-- ==== Sys2Proof/Word.lean ====
section
/-! DEFINITION. The word types of HUFFCODEC (spec 00_scope.md rules R6, R7): bytes, the 32-bit command word and data
registers, the 64-bit error registers, the 40-bit node weight, and a register file indexed by a symbol byte. -/

namespace Sys2Proof

/-- A byte, also a symbol: SYM_BITS = 8 (R6). -/
abbrev Byte := BitVec 8

/-- A 32-bit register or command word (R6 LEN_BITS, COUNT_BITS; R80). -/
abbrev Word := BitVec 32

/-- The 64-bit error registers ERR_EXP and ERR_ACT (R29). -/
abbrev Wide := BitVec 64

/-- A tree node's weight: WEIGHT_BITS = 40 (R6). -/
abbrev Weight := BitVec 40

/-- 256 like things, one for each symbol byte (R33, R34). -/
abbrev Table (α : Type) := Vector α 256

end Sys2Proof
end

