-- ==== Sys2Proof/Syntax.lean ====
section
/-! DEFINITION. The commands of HUFFCODEC as syntax: one constructor per row of spec/opcode_table.json, operands as the
buffers they name (30_encoding.md rules R81 to R84), never raw selector bits. -/

namespace Sys2Proof

/-- A buffer a mutating BB command may name: "PB or PATH" (R84). -/
inductive Dst where
  | pb
  | path
  deriving DecidableEq, Repr

/-- "Any" legal selector: one of the 258 bit buffers (10_state.md rule R32). -/
inductive Sel where
  | cw (s : Byte)
  | pb
  | path
  deriving DecidableEq, Repr

/-- A writable buffer read as a selector. -/
def Dst.sel : Dst → Sel
  | .pb => .pb
  | .path => .path

/-- The twenty commands (30_encoding.md rule R83). -/
inductive Instr where
  | nop
  | bbInit (dst : Dst)
  | bbAppendBit (dst : Dst) (bit : Bool)
  | bbAppendFrom (dst : Dst) (src : Sel)
  | bbReadBit (sel : Sel)
  | bbRemoveLast (dst : Dst)
  | bbClear (dst : Dst)
  | bbLen (sel : Sel)
  | bbBytecount (sel : Sel)
  | bbToBytes (sel : Sel)
  | ftCount
  | htBuild
  | htInferMap
  | htDecodeOne
  | encEncode
  | decDecode
  | ctSerialize
  | ctDeserialize
  | compress
  | decompress
  deriving DecidableEq, Repr

/-- Why a command word is refused at decode (30_encoding.md rule R87, in the order of its checks). -/
inductive DecodeError where
  | unknownOpcode
  | reservedBits
  | badSelector
  | sameBuffer
  deriving DecidableEq, Repr

end Sys2Proof
end

