-- ==== Sys2Proof/WellFormed.lean ====
section
/-! DEFINITION. Which terms of Instr are commands. The operand types already rule out a reserved selector and a codeword
buffer where PB or PATH is required; one check is left, that BB_APPEND_FROM names two different buffers (40_bitbuffer.md
rule R114, decode check 4 of 30_encoding.md rule R87). -/

namespace Sys2Proof

/-- The check on one command, as a Bool. -/
def Instr.ok : Instr → Bool
  | .bbAppendFrom dst src => dst.sel != src
  | .nop | .bbInit _ | .bbAppendBit _ _ | .bbReadBit _ | .bbRemoveLast _ | .bbClear _ | .bbLen _ | .bbBytecount _
  | .bbToBytes _ | .ftCount | .htBuild | .htInferMap | .htDecodeOne | .encEncode | .decDecode | .ctSerialize
  | .ctDeserialize | .compress | .decompress => true

/-- The command has an encoding. -/
abbrev Instr.WellFormed (i : Instr) : Prop := i.ok = true

end Sys2Proof
end

