-- ==== Sys2Proof/Decode.lean ====
section
/-! DEFINITION. The command word (30_encoding.md rules R80 to R87): a decoder total on 32-bit words, which refuses by name,
and the encoder written from the same layout. -/

namespace Sys2Proof

/-! ## Fields (R81) -/

/-- OP, bits 7:0. -/
def opField (w : Word) : BitVec 8 := w.extractLsb' 0 8

/-- A, bits 16:8. -/
def aField (w : Word) : BitVec 9 := w.extractLsb' 8 9

/-- B, bits 25:17. -/
def bField (w : Word) : BitVec 9 := w.extractLsb' 17 9

/-- BIT, bit 26. -/
def bitField (w : Word) : Bool := w.getLsbD 26

/-- Bits 31:27, which every format says must be 0. -/
def zeroField (w : Word) : BitVec 5 := w.extractLsb' 27 5

/-- The word with these fields and bits 31:27 zero: `OP + (A << 8) + (B << 17) + (BIT << 26)` (R81). -/
def packWord (op : BitVec 8) (a b : BitVec 9) (bit : Bool) : Word :=
  (0#5 ++ BitVec.ofBool bit ++ b ++ a ++ op : BitVec 32)

/-! ## Opcodes and formats (R82, R83) -/

/-- The rows of the opcode map, without operands. -/
inductive Op where
  | nop | bbInit | bbAppendBit | bbAppendFrom | bbReadBit | bbRemoveLast | bbClear | bbLen | bbBytecount | bbToBytes
  | ftCount | htBuild | htInferMap | htDecodeOne | encEncode | decDecode | ctSerialize | ctDeserialize | compress
  | decompress
  deriving DecidableEq, Repr

/-- The formats of R82: which fields a row uses beside OP. -/
inductive Format where
  | n | s | sb | ss
  deriving DecidableEq, Repr

/-- One row of the opcode map (R83). -/
structure OpRow where
  op : Op
  code : BitVec 8
  format : Format
  deriving DecidableEq, Repr

/-- The opcode map (R83). -/
def opRows : List OpRow :=
  [⟨.nop, 0x00, .n⟩,
    ⟨.bbInit, 0x10, .s⟩, ⟨.bbAppendBit, 0x11, .sb⟩, ⟨.bbAppendFrom, 0x12, .ss⟩, ⟨.bbReadBit, 0x13, .s⟩,
    ⟨.bbRemoveLast, 0x14, .s⟩, ⟨.bbClear, 0x15, .s⟩, ⟨.bbLen, 0x16, .s⟩, ⟨.bbBytecount, 0x17, .s⟩,
    ⟨.bbToBytes, 0x18, .s⟩,
    ⟨.ftCount, 0x20, .n⟩,
    ⟨.htBuild, 0x30, .n⟩, ⟨.htInferMap, 0x31, .n⟩, ⟨.htDecodeOne, 0x32, .n⟩,
    ⟨.encEncode, 0x40, .n⟩, ⟨.decDecode, 0x41, .n⟩,
    ⟨.ctSerialize, 0x50, .n⟩, ⟨.ctDeserialize, 0x51, .n⟩,
    ⟨.compress, 0x60, .n⟩, ⟨.decompress, 0x61, .n⟩]

/-- The row an OP value names, if any; the other values are reserved (R86). -/
def rowOfCode (code : BitVec 8) : Option OpRow := opRows.find? fun r => r.code == code

/-- Every field the format does not use is 0, and so are bits 31:27 (R82, R85). -/
def Format.restIsZero : Format → Word → Bool
  | .n, w => aField w == 0 && bField w == 0 && !bitField w && zeroField w == 0
  | .s, w => bField w == 0 && !bitField w && zeroField w == 0
  | .sb, w => bField w == 0 && zeroField w == 0
  | .ss, w => !bitField w && zeroField w == 0

/-! ## Selectors (R84; 10_state.md rule R32) -/

/-- "PB or PATH": 0x100 or 0x101. -/
def dstOf (n : BitVec 9) : Except DecodeError Dst :=
  if n = 0x100 then .ok .pb else if n = 0x101 then .ok .path else .error .badSelector

/-- "Any": 0x000 .. 0x101. -/
def selOf (n : BitVec 9) : Except DecodeError Sel :=
  if n.toNat < 0x100 then .ok (.cw (n.setWidth 8))
  else if n = 0x100 then .ok .pb
  else if n = 0x101 then .ok .path
  else .error .badSelector

/-- The selector value of a writable buffer. -/
def dstCode : Dst → BitVec 9
  | .pb => 0x100
  | .path => 0x101

/-- The selector value of a buffer. -/
def selCode : Sel → BitVec 9
  | .cw s => s.setWidth 9
  | .pb => 0x100
  | .path => 0x101

/-! ## The decoder (R87): opcode, reserved bits, selectors with A before B, same buffer -/

/-- BB_APPEND_FROM's selector checks and the same-buffer check (R87 checks 3 and 4). -/
def decodeAppendFrom (w : Word) : Except DecodeError Instr :=
  match dstOf (aField w) with
  | .error e => .error e
  | .ok dst =>
    match selOf (bField w) with
    | .error e => .error e
    | .ok src => if dst.sel = src then .error .sameBuffer else .ok (.bbAppendFrom dst src)

/-- The operands of a row, once the opcode and the reserved bits have passed. -/
def decodeOperands (op : Op) (w : Word) : Except DecodeError Instr :=
  match op with
  | .nop => .ok .nop
  | .bbInit => (dstOf (aField w)).map .bbInit
  | .bbAppendBit => (dstOf (aField w)).map fun dst => .bbAppendBit dst (bitField w)
  | .bbAppendFrom => decodeAppendFrom w
  | .bbReadBit => (selOf (aField w)).map .bbReadBit
  | .bbRemoveLast => (dstOf (aField w)).map .bbRemoveLast
  | .bbClear => (dstOf (aField w)).map .bbClear
  | .bbLen => (selOf (aField w)).map .bbLen
  | .bbBytecount => (selOf (aField w)).map .bbBytecount
  | .bbToBytes => (selOf (aField w)).map .bbToBytes
  | .ftCount => .ok .ftCount
  | .htBuild => .ok .htBuild
  | .htInferMap => .ok .htInferMap
  | .htDecodeOne => .ok .htDecodeOne
  | .encEncode => .ok .encEncode
  | .decDecode => .ok .decDecode
  | .ctSerialize => .ok .ctSerialize
  | .ctDeserialize => .ok .ctDeserialize
  | .compress => .ok .compress
  | .decompress => .ok .decompress

/-- Every 32-bit word either is exactly one command or is refused by name (R80). -/
def decode (w : Word) : Except DecodeError Instr :=
  match rowOfCode (opField w) with
  | none => .error .unknownOpcode
  | some row => if row.format.restIsZero w then decodeOperands row.op w else .error .reservedBits

/-! ## The encoder (R81 to R84) -/

/-- The command word of a command. -/
def encode : Instr → Word
  | .nop => packWord 0x00 0 0 false
  | .bbInit dst => packWord 0x10 (dstCode dst) 0 false
  | .bbAppendBit dst bit => packWord 0x11 (dstCode dst) 0 bit
  | .bbAppendFrom dst src => packWord 0x12 (dstCode dst) (selCode src) false
  | .bbReadBit sel => packWord 0x13 (selCode sel) 0 false
  | .bbRemoveLast dst => packWord 0x14 (dstCode dst) 0 false
  | .bbClear dst => packWord 0x15 (dstCode dst) 0 false
  | .bbLen sel => packWord 0x16 (selCode sel) 0 false
  | .bbBytecount sel => packWord 0x17 (selCode sel) 0 false
  | .bbToBytes sel => packWord 0x18 (selCode sel) 0 false
  | .ftCount => packWord 0x20 0 0 false
  | .htBuild => packWord 0x30 0 0 false
  | .htInferMap => packWord 0x31 0 0 false
  | .htDecodeOne => packWord 0x32 0 0 false
  | .encEncode => packWord 0x40 0 0 false
  | .decDecode => packWord 0x41 0 0 false
  | .ctSerialize => packWord 0x50 0 0 false
  | .ctDeserialize => packWord 0x51 0 0 false
  | .compress => packWord 0x60 0 0 false
  | .decompress => packWord 0x61 0 0 false

/-- The 32-bit word of an opcode-table row given as `nbits` bits; every bit above them is 0. -/
def tableWord (nbits w : Nat) : Word := BitVec.ofNat 32 (w % 2 ^ nbits)

/-- What the decoder reads from a word numbered as spec/opcode_table.json numbers it. A command is one 32-bit word. -/
def decodeTableWord (nbits w : Nat) : Option Instr :=
  match decode (tableWord nbits w) with
  | .ok i => some i
  | .error _ => none

end Sys2Proof
end

