-- ==== Sys2Proof/Config.lean ====
section
/-! DEFINITION. What an implementation of HUFFCODEC fixes, the parameters of 00_scope.md rule R6, and the free value `any()`
of 00_scope.md rule R10 and 93_implementation_defined.md U1. -/

namespace Sys2Proof

/-- The parameters of rule R6 that a model takes as arguments (log entry 4). WORD_BITS is read by no rule and is left out,
as 93_implementation_defined.md U2 allows. -/
structure Config where
  /-- CAP_PB, in bits -/
  capPb : Nat
  /-- CAP_PATH, in bits -/
  capPath : Nat
  /-- CAP_IN, in bytes -/
  capIn : Nat
  /-- CAP_OUT, in bytes -/
  capOut : Nat
  deriving DecidableEq, Repr

/-- CAP_CW, in bits: fixed (R6). -/
def capCw : Nat := 255

/-- The ranges of rule R6 that a model must accept. -/
abbrev Config.wf (c : Config) : Prop :=
  (1 ≤ c.capPb ∧ c.capPb < 2 ^ 32) ∧ (255 ≤ c.capPath ∧ c.capPath < 2 ^ 32) ∧
    (1 ≤ c.capIn ∧ c.capIn < 2 ^ 32) ∧ (1 ≤ c.capOut ∧ c.capOut < 2 ^ 32)

/-- The defaults of rule R6. -/
def Config.default : Config where
  capPb := 2 ^ 32 - 1
  capPath := 255
  capIn := 2 ^ 32 - 1
  capOut := 2 ^ 32 - 1

/-- The free value `any()`: the bit that the n-th draw gives (R10, U1). It has no body here, so nothing can be proved about
which bit a draw gives; a statement about drawn bits holds for every one (log entry 3). -/
opaque Config.freeBit : Nat → Bool

end Sys2Proof
end

