-- ==== Sys2Proof/Machine/State.lean ====
section
/-! DEFINITION. The state of one HUFFCODEC block (10_state.md rule R20), the errors a command can end in (60_exceptions.md
rules R220 to R225), the HOST's operations, the two reasons a step can stop, and the state after reset (10_state.md rule R45,
70_reset_and_hazards.md rule R250). -/

namespace Sys2Proof.Machine

/-! ## Bit buffers and the tree -/

/-- A bit buffer (10_state.md rules R30, R31): the bits below the logical length, index 0 first, and the high-water mark.
`len(B)` is the length of `bits`. -/
structure BitBuf where
  bits : List Bool
  hwm : Nat
  deriving DecidableEq, Repr

/-- A tree node (10_state.md rule R36). -/
inductive Node where
  | leaf (sym : Byte) (weight : Weight)
  | internal (weight : Weight) (left right : Node) (seq : Nat)
  deriving DecidableEq, Repr

/-- The tree store's value (10_state.md rule R36): `Single` holds a leaf and `Multi` an internal node. -/
inductive TreeState where
  | empty
  | single (sym : Byte) (weight : Weight)
  | multi (weight : Weight) (left right : Node) (seq : Nat)
  deriving DecidableEq, Repr

/-- A stream buffer, IN or OUT: its bytes from address 0 on; a byte at or beyond the length does not exist
(20_memory.md rules R60, R61; 93_implementation_defined.md U6; log entry 6). -/
abbrev Memory := List Byte

/-! ## Errors -/

/-- Sub-codes of FormatError, in the order of the checks (60_exceptions.md rule R223). -/
inductive FormatSub where
  | truncatedMagic | badMagic | truncatedSymbolCount | truncatedBitCount | truncatedTable | truncatedPayload
  | emptyTable | zeroCount | duplicateSymbol
  deriving DecidableEq, Repr

/-- Sub-codes of IllegalCommand (60_exceptions.md rule R225): the four decode errors, and NoTree of a command's body. -/
inductive IllegalSub where
  | decode (e : DecodeError)
  | noTree
  deriving DecidableEq, Repr

/-- How a command can end in `Err(kind, sub, exp, act)` (60_exceptions.md rules R220 to R225). -/
inductive Err where
  /-- EmptyAlphabet -/
  | emptyAlphabet
  /-- IndexOutOfRange, Read: the length and the index asked for -/
  | indexRead (len index : Nat)
  /-- IndexOutOfRange, Underflow -/
  | indexUnderflow
  /-- FormatError with its expected and actual values -/
  | format (sub : FormatSub) (exp act : Nat)
  /-- DecodeOverrun: the length, and the bit index at which the unfinished symbol began -/
  | decodeOverrun (len start : Nat)
  /-- MissingCodeword: the symbol and its address in IN -/
  | missingCodeword (sym : Byte) (addr : Nat)
  /-- CapacityExceeded, BitBuffer: the capacity and the length needed -/
  | capacityBitBuffer (cap need : Nat)
  /-- CapacityExceeded, Out: the capacity and the length needed -/
  | capacityOut (cap need : Nat)
  /-- IllegalCommand: the sub-code and the command word -/
  | illegal (sub : IllegalSub) (w : Word)
  deriving DecidableEq, Repr

/-! ## The HOST -/

/-- What the HOST may do between two commands (20_memory.md rules R62, R63, R68; 10_state.md rule R40;
70_reset_and_hazards.md rule R250). A command is issued by a write to register 0x000, CMD. Every register a write can change is
32 bits wide (log entry 10). -/
inductive HostOp where
  | loadIn (bytes : List Byte)
  | readIn
  | readOut
  | readReg (n : BitVec 9)
  | writeReg (n : BitVec 9) (v : Word)
  | reset
  deriving DecidableEq, Repr

/-! ## The state -/

/-- One HUFFCODEC block (10_state.md rule R20) with its parameters, the free-draw counter and the HOST's waiting
operations. -/
structure State where
  /-- parameters of 00_scope.md rule R6; no step changes them (log entry 4) -/
  cfg : Config
  /-- ARG (R21) -/
  arg : Word
  /-- RES (R22) -/
  res : Word
  /-- CUR (R24) -/
  cur : Word
  /-- STATUS (R28) -/
  status : Word
  /-- ERR_EXP (R29) -/
  errExp : Wide
  /-- ERR_ACT (R29) -/
  errAct : Wide
  /-- TREE_INFO (R38) -/
  treeInfo : Word
  /-- FREQ[0..255] (R34) -/
  freq : Table Word
  /-- TREE (R36) -/
  tree : TreeState
  /-- CW[0..255] (R32, R33) -/
  cw : Table BitBuf
  /-- CW_VALID[0..255] (R33) -/
  cwValid : Table Bool
  /-- PB (R32) -/
  pb : BitBuf
  /-- PATH (R32) -/
  path : BitBuf
  /-- IN; its length is IN_LEN (R23, R60) -/
  inp : Memory
  /-- OUT; its length is OUT_LEN (R23, R61) -/
  out : Memory
  /-- the model's own: how many free draws have been made (log entry 3) -/
  draws : Nat
  /-- the model's own: the HOST's operations not yet performed, oldest first (log entry 1) -/
  host : List HostOp
  deriving DecidableEq, Repr

/-- Why a step stops the machine. -/
inductive Fault where
  /-- Raised by HOST_LOAD_IN with more than CAP_IN bytes, which breaks a HOST duty and is 'stuck' in the spec
  (20_memory.md rule R62, 93_implementation_defined.md U4). Safe: the spec has no move there (log entry 5). -/
  | hostLoadTooLong
  deriving DecidableEq, Repr

/-- Why the model gives an instruction no meaning. -/
inductive Refusal where
  /-- Raised by exec's arm of an instruction without a meaning; no arm does. Safe. -/
  | notModelled (mnemonic : String)
  deriving DecidableEq, Repr

/-- What a step or a command answers. -/
abbrev Answer := Host.Outcome State Fault Refusal

/-- The state after reset for given parameters (10_state.md rule R45). -/
def State.resetWith (c : Config) : State where
  cfg := c
  arg := 0
  res := 0
  cur := 0
  status := 0
  errExp := 0
  errAct := 0
  treeInfo := 0
  freq := Vector.replicate 256 0
  tree := .empty
  cw := Vector.replicate 256 ⟨[], 0⟩
  cwValid := Vector.replicate 256 false
  pb := ⟨[], 0⟩
  path := ⟨[], 0⟩
  inp := []
  out := []
  draws := 0
  host := []

/-- The machine right after reset, with the default parameters of 00_scope.md rule R6. -/
def State.reset : State := State.resetWith Config.default

end Sys2Proof.Machine
end

