-- ==== Sys2Proof/Machine/Flags.lean ====
section
/-! DEFINITION. The status computations: the kind, sub-code and recorded values of each error (60_exceptions.md rules R220 to
R225), the STATUS word (10_state.md rule R28) and the TREE_INFO word (10_state.md rule R38). -/

namespace Sys2Proof.Machine

/-- STATUS.ERR's code of an error's kind (60_exceptions.md rule R220). -/
def Err.kind : Err → Nat
  | .emptyAlphabet => 1
  | .indexRead _ _ => 2
  | .indexUnderflow => 2
  | .format _ _ _ => 3
  | .decodeOverrun _ _ => 4
  | .missingCodeword _ _ => 5
  | .capacityBitBuffer _ _ => 6
  | .capacityOut _ _ => 6
  | .illegal _ _ => 7

/-- FormatError's sub-codes (60_exceptions.md rule R223). -/
def FormatSub.code : FormatSub → Nat
  | .truncatedMagic => 1
  | .badMagic => 2
  | .truncatedSymbolCount => 3
  | .truncatedBitCount => 4
  | .truncatedTable => 5
  | .truncatedPayload => 6
  | .emptyTable => 7
  | .zeroCount => 8
  | .duplicateSymbol => 9

/-- IllegalCommand's sub-codes (60_exceptions.md rule R225). -/
def IllegalSub.code : IllegalSub → Nat
  | .decode .unknownOpcode => 1
  | .decode .reservedBits => 2
  | .decode .badSelector => 3
  | .decode .sameBuffer => 4
  | .noTree => 5

/-- STATUS.SUB's code of an error, 0 for a kind without sub-codes (60_exceptions.md rules R221 to R225). -/
def Err.sub : Err → Nat
  | .emptyAlphabet => 0
  | .indexRead _ _ => 1
  | .indexUnderflow => 2
  | .format sub _ _ => sub.code
  | .decodeOverrun _ _ => 0
  | .missingCodeword _ _ => 0
  | .capacityBitBuffer _ _ => 1
  | .capacityOut _ _ => 2
  | .illegal sub _ => sub.code

/-- The value ERR_EXP records (60_exceptions.md rules R221 to R225). -/
def Err.exp : Err → Nat
  | .emptyAlphabet => 1
  | .indexRead len _ => len
  | .indexUnderflow => 1
  | .format _ exp _ => exp
  | .decodeOverrun len _ => len
  | .missingCodeword sym _ => sym.toNat
  | .capacityBitBuffer cap _ => cap
  | .capacityOut cap _ => cap
  | .illegal _ _ => 0

/-- The value ERR_ACT records (60_exceptions.md rules R221 to R225). -/
def Err.act : Err → Nat
  | .emptyAlphabet => 0
  | .indexRead _ index => index
  | .indexUnderflow => 0
  | .format _ _ act => act
  | .decodeOverrun _ start => start
  | .missingCodeword _ addr => addr
  | .capacityBitBuffer _ need => need
  | .capacityOut _ need => need
  | .illegal _ w => w.toNat

/-- STATUS from its fields: ERR in bits 3:0, SUB in bits 7:4, the rest zero (10_state.md rule R28). -/
def statusWord (kind sub : Nat) : Word := BitVec.ofNat 32 (kind + 16 * sub)

/-- STATUS.ERR (10_state.md rule R28). -/
def statusErr (status : Word) : BitVec 4 := status.extractLsb' 0 4

/-- STATUS.SUB (10_state.md rule R28). -/
def statusSub (status : Word) : BitVec 4 := status.extractLsb' 4 4

/-- STATUS of an error. -/
def Err.status (e : Err) : Word := statusWord e.kind e.sub

/-- TREE_INFO from its fields: KIND in bits 1:0, LEAVES in bits 10:2, the rest zero (10_state.md rule R38). -/
def treeInfoWord (kind leaves : Nat) : Word := BitVec.ofNat 32 (kind + 4 * leaves)

/-- A node's weight (10_state.md rule R36). -/
def Node.weight : Node → Weight
  | .leaf _ weight => weight
  | .internal weight _ _ _ => weight

/-- The symbols of a node's leaves, left to right. -/
def Node.symbols : Node → List Byte
  | .leaf sym _ => [sym]
  | .internal _ left right _ => left.symbols ++ right.symbols

/-- The symbols of a tree's leaves, left to right. -/
def TreeState.symbols : TreeState → List Byte
  | .empty => []
  | .single sym _ => [sym]
  | .multi _ left right _ => left.symbols ++ right.symbols

/-- TREE_INFO.KIND: 0 Empty, 1 Single, 2 Multi (10_state.md rule R38). -/
def TreeState.kind : TreeState → Nat
  | .empty => 0
  | .single _ _ => 1
  | .multi _ _ _ _ => 2

/-- What TREE_INFO holds for a tree (10_state.md rule R38). -/
def TreeState.info (t : TreeState) : Word := treeInfoWord t.kind t.symbols.length

end Sys2Proof.Machine
end

