-- ==== Sys2Proof/Machine/Ops.lean ====
section
/-! DEFINITION. The named operations the commands share: register files indexed by a symbol, stream buffers and their byte and
bit order, the bit buffer primitives, the table order, and how a command ends (Ok or Err). -/

namespace Sys2Proof.Machine

/-! ## Register files indexed by a symbol byte (10_state.md rules R33, R34) -/

/-- Element `s` of a register file, indexed by the unsigned byte (41_frequency_table.md rule R142). -/
def tget {α : Type} (t : Table α) (s : Byte) : α := t[s.toNat]'s.isLt

/-- The register file with element `s` written. -/
def tset {α : Type} (t : Table α) (s : Byte) (x : α) : Table α := Vector.set t s.toNat x s.isLt

/-- The register file whose element `s` is `f s`. -/
def tabulate {α : Type} (f : Byte → α) : Table α :=
  ⟨⟨(List.range 256).map fun i => f (BitVec.ofNat 8 i)⟩, by simp⟩

/-! ## Stream buffers (20_memory.md rules R60, R61, R65, R69) -/

/-- The byte at an address, if it exists (R60, R61). -/
def Memory.read (m : Memory) (a : Nat) : Option Byte := m[a]?

/-- A stream fits its buffer: the one canonical form of a stream is the list of its bytes, so equal streams are equal
data, and only the capacity can be exceeded (R60, R61). -/
abbrev Memory.wf (cap : Nat) (m : Memory) : Prop := m.length ≤ cap

/-- A byte the caller has shown to exist; 0 stands for one that does not, which no rule reads (45_system_toplevel.md rule
R218: "no read is ever out of bounds"; log entry 12). -/
def Memory.byte (m : Memory) (a : Nat) : Byte := (m.read a).getD 0

/-- `MemRead(S, addr, n)` (00_scope.md rule R10). -/
def Memory.slice (m : Memory) (a n : Nat) : List Byte := (m.drop a).take n

/-- IN_LEN (10_state.md rule R23). -/
def State.inLen (s : State) : Word := BitVec.ofNat 32 s.inp.length

/-- OUT_LEN (10_state.md rule R23). -/
def State.outLen (s : State) : Word := BitVec.ofNat 32 s.out.length

/-- The number a byte sequence denotes, least significant byte first: on four bytes `le32` (00_scope.md rule R10,
20_memory.md rule R65). -/
def le32 (bytes : List Byte) : Nat := bytes.foldr (fun b n => b.toNat + 256 * n) 0

/-- `bytes_le32(v)` (00_scope.md rule R10). -/
def bytesLe32 (v : Nat) : List Byte :=
  [BitVec.ofNat 8 v, BitVec.ofNat 8 (v / 256), BitVec.ofNat 8 (v / 65536), BitVec.ofNat 8 (v / 16777216)]

/-- `ceil8(n) = (n + 7) div 8`, formed without wrap (00_scope.md rule R10). -/
def ceil8 (n : Nat) : Nat := (n + 7) / 8

/-- The byte whose bit `j` is `f j` (20_memory.md rule R66). -/
def byteOfBits (f : Nat → Bool) : Byte :=
  BitVec.ofNat 8 ((f 0).toNat + 2 * (f 1).toNat + 4 * (f 2).toNat + 8 * (f 3).toNat + 16 * (f 4).toNat +
    32 * (f 5).toNat + 64 * (f 6).toNat + 128 * (f 7).toNat)

/-- `L` bits unpacked from the bytes at address `a` on: bit `i` is bit `i mod 8` of byte `i div 8` (20_memory.md rule
R66). -/
def Memory.unpack (m : Memory) (a len : Nat) : List Bool :=
  (List.range len).map fun i => (m.byte (a + i / 8)).getLsbD (i % 8)

/-! ## Bit buffers (10_state.md rules R30, R31; 40_bitbuffer.md) -/

/-- `len(B)` (R30). -/
def BitBuf.len (b : BitBuf) : Nat := b.bits.length

/-- A buffer just created empty: no bit counts as written (R31). -/
def BitBuf.created : BitBuf := ⟨[], 0⟩

/-- A buffer created whole with these bits: `len = hwm = |β|` (R31). -/
def BitBuf.fresh (bits : List Bool) : BitBuf := ⟨bits, bits.length⟩

/-- `push(B, b)` (40_bitbuffer.md rule R112). -/
def BitBuf.push (cap : Nat) (b : BitBuf) (bit : Bool) : Except Err BitBuf :=
  if b.len = cap then .error (.capacityBitBuffer cap (b.len + 1))
  else .ok ⟨b.bits ++ [bit], max b.hwm (b.len + 1)⟩

/-- `pop(B)` (40_bitbuffer.md rule R116): the storage bit and hwm stay. -/
def BitBuf.pop (b : BitBuf) : Except Err BitBuf :=
  if b.len = 0 then .error .indexUnderflow else .ok ⟨b.bits.dropLast, b.hwm⟩

/-- `push` of each bit in order (the loop of 40_bitbuffer.md rule R114). -/
def BitBuf.pushAll (cap : Nat) : BitBuf → List Bool → Except Err BitBuf
  | b, [] => .ok b
  | b, bit :: bits =>
    match b.push cap bit with
    | .error e => .error e
    | .ok b' => BitBuf.pushAll cap b' bits

/-- Bit `i` of a buffer as packing sees it (40_bitbuffer.md rule R120): the bit itself below `len`; a free draw for a stale
bit; 0 at and above `hwm`. The draw of the stale bit at `len + k` is number `base + k`. -/
def BitBuf.packedBit (b : BitBuf) (base i : Nat) : Bool :=
  match b.bits[i]? with
  | some bit => bit
  | none => if i < b.hwm then Config.freeBit (base + (i - b.len)) else false

/-- `pack(B)` (40_bitbuffer.md rule R120), its draws numbered from `base`. -/
def BitBuf.pack (b : BitBuf) (base : Nat) : List Byte :=
  (List.range (ceil8 b.len)).map fun k => byteOfBits fun j => b.packedBit base (8 * k + j)

/-- How many stale bits `pack(B)` observes, each one draw (40_bitbuffer.md rule R120). -/
def BitBuf.packDraws (b : BitBuf) : Nat := min b.hwm (8 * ceil8 b.len) - b.len

/-! ## The frequency table (10_state.md rules R34, R35; 00_scope.md rule R8) -/

/-- `s8(b)` (00_scope.md rule R8). -/
def s8 (b : Byte) : Int := b.toInt

/-- The 256 symbols in table order: 0x80 .. 0xFF, 0x00 .. 0x7F (R35). -/
def tableOrder : List Byte := (List.range 256).map fun i => BitVec.ofNat 8 (i + 128)

/-- The symbols with an entry, in table order (R35). -/
def tableEntries (freq : Table Word) : List Byte := tableOrder.filter fun s => tget freq s != 0

/-! ## The codeword map (10_state.md rule R33) -/

/-- The map emptied: no symbol has an entry and every CW buffer is created anew (42_huffman_tree.md rules R152, R160). -/
def State.clearMap (s : State) : State :=
  { s with cw := tabulate fun _ => BitBuf.created, cwValid := tabulate fun _ => false }

/-! ## How a command ends (60_exceptions.md rules R226, R230)

An error transfers no control and saves nothing: taking it writes the three error registers, and the next command runs at
once. There is no handler and so no return from one (R230). -/

/-- The block's exception: `STATUS`, `ERR_EXP` and `ERR_ACT` record the error (R226 item 1). -/
def State.takeError (s : State) (e : Err) : State :=
  { s with status := e.status, errExp := BitVec.ofNat 64 e.exp, errAct := BitVec.ofNat 64 e.act }

/-- A command that ends `Ok` writes 0 to the three error registers (10_state.md rules R28, R29). -/
def State.endOk (s : State) : State := { s with status := 0, errExp := 0, errAct := 0 }

/-- OUT emptied: `OUT_LEN <- 0` (R226 item 2). -/
def State.emptyOut (s : State) : State := { s with out := [] }

/-- The body of a primitive command: all of its writes, or an error and none (R226, R227). -/
abbrev Body := State → Except Err State

/-- A primitive command that does not write OUT. -/
def finish (body : Body) (s : State) : Answer :=
  match body s with
  | .ok t => .next t.endOk
  | .error e => .next (s.takeError e)

/-- A primitive command that writes OUT when it succeeds: its error empties OUT (R226 item 2). -/
def finishOut (body : Body) (s : State) : Answer :=
  match body s with
  | .ok t => .next t.endOk
  | .error e => .next (s.emptyOut.takeError e)

/-- The stages of a composite command in order, up to the first that fails: the state the completed stages left, and the
error if one failed (45_system_toplevel.md rule R211). -/
def runStages : List Body → State → State × Option Err
  | [], s => (s, none)
  | stage :: stages, s =>
    match stage s with
    | .ok t => runStages stages t
    | .error e => (s, some e)

/-- A composite command: on an error the completed stages stay committed and OUT is emptied (45_system_toplevel.md rule
R211; R226 items 2 and 3). -/
def finishComposite (stages : List Body) (s : State) : Answer :=
  match runStages stages s with
  | (t, none) => .next t.endOk
  | (t, some e) => .next (t.emptyOut.takeError e)

end Sys2Proof.Machine
end

