-- ==== Sys2Proof/Machine/Operands.lean ====
section
/-! DEFINITION. The operand forms: every buffer a selector names, read and written in one place (10_state.md rule R32;
30_encoding.md rule R84). The other operands are registers (ARG, CUR) and streams. -/

namespace Sys2Proof.Machine

/-- `B(sel)` (10_state.md rule R32). An absent CW[s] is an empty buffer (10_state.md rule R33). -/
def State.buf (s : State) : Sel → BitBuf
  | .cw sym => tget s.cw sym
  | .pb => s.pb
  | .path => s.path

/-- `cap` of a writable buffer (10_state.md rule R32). -/
def State.dstCap (s : State) : Dst → Nat
  | .pb => s.cfg.capPb
  | .path => s.cfg.capPath

/-- A write of a whole writable buffer. -/
def State.setBuf (s : State) (dst : Dst) (b : BitBuf) : State :=
  match dst with
  | .pb => { s with pb := b }
  | .path => { s with path := b }

/-- A write of RES with a number shown to fit it (10_state.md rule R22). -/
def State.setRes (s : State) (n : Nat) : State := { s with res := BitVec.ofNat 32 n }

end Sys2Proof.Machine
end

