-- ==== Sys2Proof/Machine/BitBuffer.lean ====
section
/-! DEFINITION. The nine BB commands (40_bitbuffer.md). -/

namespace Sys2Proof.Machine

/-- BB_INIT (R111). -/
def bbInitBody (dst : Dst) : Body := fun s => .ok (s.setBuf dst BitBuf.created)

def execBbInit (dst : Dst) (s : State) : Answer := finish (bbInitBody dst) s

/-- BB_APPEND_BIT (R113). -/
def bbAppendBitBody (dst : Dst) (bit : Bool) : Body := fun s =>
  ((s.buf dst.sel).push (s.dstCap dst) bit).map (s.setBuf dst)

def execBbAppendBit (dst : Dst) (bit : Bool) (s : State) : Answer := finish (bbAppendBitBody dst bit) s

/-- BB_APPEND_FROM (R114). The first check is decode check 4 of R87, repeated in R114's pseudocode; ERR_ACT is the command
word. -/
def bbAppendFromBody (dst : Dst) (src : Sel) : Body := fun s =>
  if dst.sel = src then .error (.illegal (.decode .sameBuffer) (encode (.bbAppendFrom dst src)))
  else
    let d := s.buf dst.sel
    let b := s.buf src
    if s.dstCap dst < d.len + b.len then .error (.capacityBitBuffer (s.dstCap dst) (d.len + b.len))
    else (d.pushAll (s.dstCap dst) b.bits).map (s.setBuf dst)

def execBbAppendFrom (dst : Dst) (src : Sel) (s : State) : Answer := finish (bbAppendFromBody dst src) s

/-- BB_READ_BIT (R115): the index is ARG. -/
def bbReadBitBody (sel : Sel) : Body := fun s =>
  match (s.buf sel).bits[s.arg.toNat]? with
  | none => .error (.indexRead (s.buf sel).len s.arg.toNat)
  | some bit => .ok (s.setRes bit.toNat)

def execBbReadBit (sel : Sel) (s : State) : Answer := finish (bbReadBitBody sel) s

/-- BB_REMOVE_LAST (R117). -/
def bbRemoveLastBody (dst : Dst) : Body := fun s => (s.buf dst.sel).pop.map (s.setBuf dst)

def execBbRemoveLast (dst : Dst) (s : State) : Answer := finish (bbRemoveLastBody dst) s

/-- BB_CLEAR (R118): the storage and hwm stay. -/
def bbClearBody (dst : Dst) : Body := fun s => .ok (s.setBuf dst ⟨[], (s.buf dst.sel).hwm⟩)

def execBbClear (dst : Dst) (s : State) : Answer := finish (bbClearBody dst) s

/-- BB_LEN (R119). -/
def bbLenBody (sel : Sel) : Body := fun s => .ok (s.setRes (s.buf sel).len)

def execBbLen (sel : Sel) (s : State) : Answer := finish (bbLenBody sel) s

/-- BB_BYTECOUNT (R121). -/
def bbBytecountBody (sel : Sel) : Body := fun s => .ok (s.setRes (ceil8 (s.buf sel).len))

def execBbBytecount (sel : Sel) (s : State) : Answer := finish (bbBytecountBody sel) s

/-- BB_TO_BYTES (R120): each stale bit observed is one draw. -/
def bbToBytesBody (sel : Sel) : Body := fun s =>
  let b := s.buf sel
  if s.cfg.capOut < ceil8 b.len then .error (.capacityOut s.cfg.capOut (ceil8 b.len))
  else .ok { s with out := b.pack s.draws, draws := s.draws + b.packDraws }

def execBbToBytes (sel : Sel) (s : State) : Answer := finishOut (bbToBytesBody sel) s

end Sys2Proof.Machine
end

