-- ==== Sys2Proof/Machine/Huffman.lean ====
section
/-! DEFINITION. The tree commands: HT_BUILD, HT_INFER_MAP, HT_DECODE_ONE (42_huffman_tree.md). -/

namespace Sys2Proof.Machine

/-! ## HT_BUILD -/

/-- A node's place in the queue's order (R154): weight, then leaf before internal, then `s8` or creation number. -/
structure Key where
  weight : Nat
  tag : Nat
  tie : Int
  deriving DecidableEq, Repr

/-- `key` (R154). -/
def Node.key : Node → Key
  | .leaf sym weight => ⟨weight.toNat, 0, s8 sym⟩
  | .internal weight _ _ seq => ⟨weight.toNat, 1, seq⟩

/-- Lexicographic order of keys (R154). -/
def Key.lt (a b : Key) : Bool :=
  a.weight < b.weight || (a.weight == b.weight && (a.tag < b.tag || (a.tag == b.tag && a.tie < b.tie)))

/-- `extract_min(Q)`: the node least in the order of R154, and the queue without it (R150). -/
def extractMin : List Node → Option (Node × List Node)
  | [] => none
  | x :: q =>
    match extractMin q with
    | none => some (x, [])
    | some (m, rest) => if x.key.lt m.key then some (x, q) else some (m, x :: rest)

/-- The merge step (R155), with the source's three-way rule for left and right kept as written (R152; 90_conflicts.md C8). -/
def mergeNodes (a b : Node) (seq : Nat) : Node :=
  if a.weight < b.weight then .internal (a.weight + b.weight) a b seq
  else if b.weight < a.weight then .internal (a.weight + b.weight) b a seq
  else .internal (a.weight + b.weight) a b seq

/-- The loop `while |Q| ≥ 2` (R152). Each turn lowers `|Q|` by one (R156), so `|Q|` turns are enough fuel. -/
def mergeLoop : (fuel seq : Nat) → List Node → List Node
  | 0, _, q => q
  | fuel + 1, seq, q =>
    match extractMin q with
    | none => q
    | some (a, q₁) =>
      match extractMin q₁ with
      | none => q
      | some (b, q₂) => mergeLoop fuel (seq + 1) (mergeNodes a b seq :: q₂)

/-- One leaf for each entry of the table, with the count as its weight (R153). -/
def seedQueue (freq : Table Word) : List Node :=
  (tableEntries freq).map fun s => .leaf s ((tget freq s).setWidth 40)

/-- The root as the tree store holds it (R152, R158): a leaf only when the table has one entry. -/
def Node.toTree : Node → TreeState
  | .leaf sym weight => .single sym weight
  | .internal weight left right seq => .multi weight left right seq

/-- The tree of a frequency table, none for the empty table (R152, R157: a function of FREQ alone). -/
def buildTree (freq : Table Word) : Option TreeState :=
  match mergeLoop (seedQueue freq).length 0 (seedQueue freq) with
  | [] => none
  | root :: _ => some root.toTree

/-- TREE_INFO as HT_BUILD writes it for `n` entries (R152). -/
def builtInfo (n : Nat) : Word := treeInfoWord (if n = 1 then 1 else 2) n

/-- HT_BUILD (R152). -/
def htBuildBody : Body := fun s =>
  match buildTree s.freq with
  | none => .error .emptyAlphabet
  | some tree => .ok { s.clearMap with tree := tree, treeInfo := builtInfo (tableEntries s.freq).length }

def execHtBuild (s : State) : Answer := finish htBuildBody s

/-! ## HT_INFER_MAP -/

/-- `assign(s, β)` (R160). -/
def State.assign (s : State) (sym : Byte) (bits : List Bool) : State :=
  { s with cw := tset s.cw sym (BitBuf.fresh bits), cwValid := tset s.cwValid sym true }

/-- `push(PATH, b)` (R160, R162). -/
def pushPath (bit : Bool) : Body := fun s => (s.path.push s.cfg.capPath bit).map fun p => { s with path := p }

/-- `pop(PATH)` (R160, R162). -/
def popPath : Body := fun s => s.path.pop.map fun p => { s with path := p }

/-- `visit` (R160, R162): append on entry, remove on exit, left before right. -/
def visit : Node → Body
  | .leaf sym _ => fun s => .ok (s.assign sym s.path.bits)
  | .internal _ left right _ => fun s =>
    (pushPath false s).bind fun s₁ =>
      (visit left s₁).bind fun s₂ =>
        (popPath s₂).bind fun s₃ =>
          (pushPath true s₃).bind fun s₄ =>
            (visit right s₄).bind fun s₅ => popPath s₅

/-- The map emptied and a fresh path buffer, before the tree is walked (R160). -/
def State.beginInfer (s : State) : State := { s.clearMap with path := BitBuf.created }

/-- HT_INFER_MAP (R160, R161, R162); `w` is the command word NoTree records (R151). -/
def inferMapBody (w : Word) : Body := fun s =>
  match s.tree with
  | .empty => .error (.illegal .noTree w)
  | .single sym _ => .ok (s.beginInfer.assign sym [false])
  | .multi weight left right seq => visit (.internal weight left right seq) s.beginInfer

def execHtInferMap (s : State) : Answer := finish (inferMapBody (encode .htInferMap)) s

/-! ## HT_DECODE_ONE -/

/-- The walk from a node: one bit of `P` per edge, left on 0 and right on 1, to a leaf; none when the bits run out (R170).
Answers the leaf's symbol and the cursor after the last bit read. -/
def walk : Node → List Bool → Nat → Option (Byte × Nat)
  | .leaf sym _, _, c => some (sym, c)
  | .internal _ left right _, bits, c =>
    match bits[c]? with
    | none => none
    | some false => walk left bits (c + 1)
    | some true => walk right bits (c + 1)

/-- `decode_one(T, P, c0)` (R170, R172). A Single tree takes one bit without reading it. On Empty it raises NoTree (R151). -/
def decodeOne (w : Word) (tree : TreeState) (bits : List Bool) (c : Nat) : Except Err (Byte × Nat) :=
  match tree with
  | .empty => .error (.illegal .noTree w)
  | .single sym _ => if bits.length ≤ c then .error (.decodeOverrun bits.length c) else .ok (sym, c + 1)
  | .multi weight left right seq =>
    match walk (.internal weight left right seq) bits c with
    | none => .error (.decodeOverrun bits.length c)
    | some r => .ok r

/-- HT_DECODE_ONE (R170). -/
def decodeOneBody (w : Word) : Body := fun s =>
  match decodeOne w s.tree s.pb.bits s.cur.toNat with
  | .error e => .error e
  | .ok (sym, c) => .ok { s.setRes sym.toNat with cur := BitVec.ofNat 32 c }

def execHtDecodeOne (s : State) : Answer := finish (decodeOneBody (encode .htDecodeOne)) s

end Sys2Proof.Machine
end

