-- ==== Sys2Proof/Machine/Codec.lean ====
section
/-! DEFINITION. The encoder and the decoder: ENC_ENCODE and DEC_DECODE (43_encoder_decoder.md). -/

namespace Sys2Proof.Machine

/-- The loop of ENC_ENCODE (R180) over the bytes from address `a` on, with the output `β` so far. -/
def encodeLoop (cw : Table BitBuf) (valid : Table Bool) (cap : Nat) : List Byte → (a : Nat) → List Bool → Except Err (List Bool)
  | [], _, β => .ok β
  | s :: bytes, a, β =>
    if tget valid s = false then .error (.missingCodeword s a)
    else if cap < β.length + (tget cw s).len then .error (.capacityBitBuffer cap (β.length + (tget cw s).len))
    else encodeLoop cw valid cap bytes (a + 1) (β ++ (tget cw s).bits)

/-- ENC_ENCODE (R180): PB is a new buffer, committed only on `Ok`. -/
def encodeBody : Body := fun s =>
  (encodeLoop s.cw s.cwValid s.cfg.capPb s.inp 0 []).map fun β => { s with pb := BitBuf.fresh β }

def execEncEncode (s : State) : Answer := finish encodeBody s

/-- The loop of DEC_DECODE (R184) from cursor `c` with the output so far. Each turn advances the cursor by at least 1, so
`len(PB)` turns are enough fuel (70_reset_and_hazards.md rule R270). -/
def decodeLoop (w : Word) (tree : TreeState) (bits : List Bool) (cap : Nat) :
    (fuel c : Nat) → List Byte → Except Err (List Byte × Nat)
  | 0, c, out => .ok (out, c)
  | fuel + 1, c, out =>
    if c < bits.length then
      match decodeOne w tree bits c with
      | .error e => .error e
      | .ok (sym, c') =>
        if out.length = cap then .error (.capacityOut cap (out.length + 1))
        else decodeLoop w tree bits cap fuel c' (out ++ [sym])
    else .ok (out, c)

/-- DEC_DECODE (R184); `w` is the command word NoTree records (R151). The register CUR is not read. -/
def decodeBody (w : Word) : Body := fun s =>
  if s.tree = .empty then .error (.illegal .noTree w)
  else
    (decodeLoop w s.tree s.pb.bits s.cfg.capOut s.pb.len 0 []).map fun r =>
      { s with out := r.1, cur := BitVec.ofNat 32 r.2 }

def execDecDecode (s : State) : Answer := finishOut (decodeBody (encode .decDecode)) s

end Sys2Proof.Machine
end

