-- ==== Sys2Proof/Machine/Container.lean ====
section
/-! DEFINITION. The container framer: the wire format (30_encoding.md rules R92 to R97), CT_SERIALIZE and CT_DESERIALIZE
(44_container.md). -/

namespace Sys2Proof.Machine

/-- The magic signature, four bytes in stream order (30_encoding.md rule R93). -/
def magic : List Byte := [0xC0, 0xDE, 0x0D, 0xDE]

/-! ## CT_SERIALIZE -/

/-- The bytes of one table entry: symbol, then count (30_encoding.md rule R92). -/
def entryBytes (freq : Table Word) (s : Byte) : List Byte := s :: bytesLe32 (tget freq s).toNat

/-- A container's bytes (R190): magic, symbol count, bit count, entries in table order, payload. -/
def containerBytes (freq : Table Word) (bitCount : Nat) (payload : List Byte) : List Byte :=
  magic ++ bytesLe32 (tableEntries freq).length ++ bytesLe32 bitCount ++
    (tableEntries freq).flatMap (entryBytes freq) ++ payload

/-- The length of a container (30_encoding.md rule R92). -/
def containerLength (symbolCount bitCount : Nat) : Nat := 12 + 5 * symbolCount + ceil8 bitCount

/-- CT_SERIALIZE (R190, R191). -/
def serializeBody : Body := fun s =>
  let n := (tableEntries s.freq).length
  let len := containerLength n s.pb.len
  if n = 0 then .error .emptyAlphabet
  else if s.cfg.capOut < len then .error (.capacityOut s.cfg.capOut len)
  else .ok { s with out := containerBytes s.freq s.pb.len (s.pb.pack s.draws), draws := s.draws + s.pb.packDraws }

def execCtSerialize (s : State) : Answer := finishOut serializeBody s

/-! ## CT_DESERIALIZE -/

/-- The table loop of R195: `k` entries from entry `i` on, with the table so far; ZeroCount before DuplicateSymbol (R199). -/
def readEntries (m : Memory) : (k i : Nat) → Table Word → Except Err (Table Word)
  | 0, _, f => .ok f
  | k + 1, i, f =>
    let o := 12 + 5 * i
    let s := m.byte o
    let cnt := le32 (m.slice (o + 1) 4)
    if cnt = 0 then .error (.format .zeroCount o s.toNat)
    else if tget f s ≠ 0 then .error (.format .duplicateSymbol o s.toNat)
    else readEntries m k (i + 1) (tset f s (BitVec.ofNat 32 cnt))

/-- The six checks of the source in order (R196), every sum exact (R197); answers SC and BC. -/
def parseHeader (m : Memory) : Except Err (Nat × Nat) :=
  let n := m.length
  let sc := le32 (m.slice 4 4)
  let bc := le32 (m.slice 8 4)
  let t := 12 + 5 * sc
  let p := t + ceil8 bc
  if n < 4 then .error (.format .truncatedMagic 4 n)
  else if m.slice 0 4 ≠ magic then .error (.format .badMagic 0xDE0DDEC0 (le32 (m.slice 0 4)))
  else if n < 8 then .error (.format .truncatedSymbolCount 8 n)
  else if n < 12 then .error (.format .truncatedBitCount 12 n)
  else if n < t then .error (.format .truncatedTable t n)
  else if n < p then .error (.format .truncatedPayload p n)
  else if sc = 0 then .error (.format .emptyTable 1 0)
  else .ok (sc, bc)

/-- The whole parse of R195: the table and the payload bits. -/
def parseContainer (capPb : Nat) (m : Memory) : Except Err (Table Word × List Bool) :=
  match parseHeader m with
  | .error e => .error e
  | .ok (sc, bc) =>
    match readEntries m sc 0 (tabulate fun _ => 0) with
    | .error e => .error e
    | .ok f =>
      if capPb < bc then .error (.capacityBitBuffer capPb bc)
      else .ok (f, m.unpack (12 + 5 * sc) bc)

/-- CT_DESERIALIZE (R195): FREQ and PB are committed only on `Ok`. -/
def deserializeBody : Body := fun s =>
  (parseContainer s.cfg.capPb s.inp).map fun r => { s with freq := r.1, pb := BitBuf.fresh r.2 }

def execCtDeserialize (s : State) : Answer := finish deserializeBody s

end Sys2Proof.Machine
end

