-- ==== Sys2Proof/Machine/Frequency.lean ====
section
/-! DEFINITION. The frequency counter (41_frequency_table.md). -/

namespace Sys2Proof.Machine

/-- The counts of a byte sequence, one register per byte value (R140). -/
def countBytes (bytes : List Byte) : Table Word := tabulate fun b => BitVec.ofNat 32 (bytes.count b)

/-- FT_COUNT (R140): all 256 registers are written. -/
def ftCountBody : Body := fun s => .ok { s with freq := countBytes s.inp }

def execFtCount (s : State) : Answer := finish ftCountBody s

end Sys2Proof.Machine
end

