-- ==== Sys2Proof/Machine/System.lean ====
section
/-! DEFINITION. NOP and the composite commands (45_system_toplevel.md). -/

namespace Sys2Proof.Machine

/-- NOP (R210): nothing but the error registers. -/
def execNop (s : State) : Answer := finish .ok s

/-- The stages of COMPRESS (R212). -/
def compressStages : List Body :=
  [ftCountBody, htBuildBody, inferMapBody (encode .compress), encodeBody, serializeBody]

def execCompress (s : State) : Answer := finishComposite compressStages s

/-- The stages of DECOMPRESS (R214). -/
def decompressStages : List Body := [deserializeBody, htBuildBody, decodeBody (encode .decompress)]

def execDecompress (s : State) : Answer := finishComposite decompressStages s

end Sys2Proof.Machine
end

