-- ==== Sys2Proof/Machine/Dispatch.lean ====
section
/-! DEFINITION. One arm per command: its meaning. -/

namespace Sys2Proof.Machine

def exec (i : Instr) (s : State) : Host.Outcome State Fault Refusal :=
  match i with
  | .nop => Sys2Proof.Machine.execNop s
  | .bbInit dst => Sys2Proof.Machine.execBbInit dst s
  | .bbAppendBit dst bit => Sys2Proof.Machine.execBbAppendBit dst bit s
  | .bbAppendFrom dst src => Sys2Proof.Machine.execBbAppendFrom dst src s
  | .bbReadBit sel => Sys2Proof.Machine.execBbReadBit sel s
  | .bbRemoveLast dst => Sys2Proof.Machine.execBbRemoveLast dst s
  | .bbClear dst => Sys2Proof.Machine.execBbClear dst s
  | .bbLen sel => Sys2Proof.Machine.execBbLen sel s
  | .bbBytecount sel => Sys2Proof.Machine.execBbBytecount sel s
  | .bbToBytes sel => Sys2Proof.Machine.execBbToBytes sel s
  | .ftCount => Sys2Proof.Machine.execFtCount s
  | .htBuild => Sys2Proof.Machine.execHtBuild s
  | .htInferMap => Sys2Proof.Machine.execHtInferMap s
  | .htDecodeOne => Sys2Proof.Machine.execHtDecodeOne s
  | .encEncode => Sys2Proof.Machine.execEncEncode s
  | .decDecode => Sys2Proof.Machine.execDecDecode s
  | .ctSerialize => Sys2Proof.Machine.execCtSerialize s
  | .ctDeserialize => Sys2Proof.Machine.execCtDeserialize s
  | .compress => Sys2Proof.Machine.execCompress s
  | .decompress => Sys2Proof.Machine.execDecompress s

end Sys2Proof.Machine
end

