-- ==== Sys2Proof/Machine/HostPort.lean ====
section
/-! DEFINITION. The HOST's operations on the block between commands (20_memory.md rules R62, R63, R68; 10_state.md rule R40;
30_encoding.md rule R80; 70_reset_and_hazards.md rule R250). -/

namespace Sys2Proof.Machine

/-- A command word written to CMD: decoded, and run or refused by IllegalCommand with no other effect (30_encoding.md rules
R80, R87; 60_exceptions.md rules R225, R226). -/
def issue (w : Word) (s : State) : Answer :=
  match decode w with
  | .error e => .next (s.takeError (.illegal (.decode e) w))
  | .ok i => exec i s

/-- What a HOST read of a register returns, zero-extended (10_state.md rule R40). CMD and unlisted numbers read 0. -/
def State.readReg (s : State) (n : BitVec 9) : Wide :=
  if 0x100 ≤ n.toNat then (tget s.freq (n.setWidth 8)).setWidth 64
  else if n = 0x001 then s.status.setWidth 64
  else if n = 0x002 then s.errExp
  else if n = 0x003 then s.errAct
  else if n = 0x004 then s.res.setWidth 64
  else if n = 0x005 then s.arg.setWidth 64
  else if n = 0x006 then s.cur.setWidth 64
  else if n = 0x007 then s.inLen.setWidth 64
  else if n = 0x008 then s.outLen.setWidth 64
  else if n = 0x009 then s.treeInfo.setWidth 64
  else 0

/-- HOST_READ_IN (20_memory.md rule R63). -/
def State.readIn (s : State) : List Byte := s.inp

/-- HOST_READ_OUT (20_memory.md rule R63). -/
def State.readOut (s : State) : List Byte := s.out

/-- A HOST write to a register other than CMD: ARG, CUR and FREQ[s] are written; any other number changes nothing
(10_state.md rule R40). -/
def State.writeReg (s : State) (n : BitVec 9) (v : Word) : State :=
  if 0x100 ≤ n.toNat then { s with freq := tset s.freq (n.setWidth 8) v }
  else if n = 0x005 then { s with arg := v }
  else if n = 0x006 then { s with cur := v }
  else s

/-- Reset (70_reset_and_hazards.md rule R250): every piece of the block's state takes its reset value. The parameters, the
free-draw counter and the HOST's own waiting operations are no state of the block and stay (log entry 9). -/
def State.afterReset (s : State) : State := { State.resetWith s.cfg with draws := s.draws, host := s.host }

/-- One HOST operation on the block. -/
def hostOp (op : HostOp) (s : State) : Answer :=
  match op with
  | .loadIn bytes => if s.cfg.capIn < bytes.length then .fault .hostLoadTooLong else .next { s with inp := bytes }
  | .readIn => .next s
  | .readOut => .next s
  | .readReg _ => .next s
  | .writeReg n v => if n = 0x000 then issue v s else .next (s.writeReg n v)
  | .reset => .next s.afterReset

/-- The block's next event: the HOST's oldest waiting operation, or nothing when none waits (log entries 1 and 2). -/
def nextEvent (s : State) : Answer :=
  match s.host with
  | [] => .next s
  | op :: rest => hostOp op { s with host := rest }

end Sys2Proof.Machine
end

