-- ==== Sys2Proof/Machine/Step.lean ====
section
/-! DEFINITION. One step of the machine, and how a command word is put where the next step takes it from. -/

namespace Sys2Proof.Machine

/-- One step: the HOST's oldest waiting operation is performed (10_state.md rule R27: commands arrive one at a time from the
HOST; there is no fetch). -/
def step (s : State) : Host.Outcome State Fault Refusal := nextEvent s

/-- `s` with the HOST about to issue this command word: a write of it to CMD stands first in the queue. -/
def State.withFetchWord (s : State) (nbits w : Nat) : State :=
  { s with host := .writeReg 0x000 (tableWord nbits w) :: s.host }

end Sys2Proof.Machine
end

