-- ==== Sys2Proof/Safety.lean ====
section
/-! DEFINITION. What claims about HUFFCODEC use: the invariants the spec states of the block's state, collected as BlockInv; the
HOST's duty; a safe run; and the codewords a tree gives. -/

namespace Sys2Proof.Machine

/-- `len(B) ≤ hwm(B) ≤ cap(B)` (10_state.md rules R30, R31). -/
abbrev BitBuf.wf (cap : Nat) (b : BitBuf) : Prop := b.len ≤ b.hwm ∧ b.hwm ≤ cap

/-- The codeword map's invariant for one symbol (10_state.md rule R33). -/
abbrev mapEntryWf (valid : Bool) (b : BitBuf) : Prop :=
  b.wf capCw ∧ (valid = false → b.len = 0) ∧ (valid = true → 1 ≤ b.len)

/-- A node's weights (10_state.md rule R36): an internal node weighs the sum of its children, a leaf 1 .. 2^32 − 1. -/
def Node.wf : Node → Prop
  | .leaf _ weight => 1 ≤ weight.toNat ∧ weight.toNat < 2 ^ 32
  | .internal weight left right seq =>
    weight.toNat = left.weight.toNat + right.weight.toNat ∧ seq ≤ 254 ∧ left.wf ∧ right.wf

/-- The invariants of a stored tree (10_state.md rule R36): weights, and pairwise distinct leaf symbols. -/
def TreeState.wf : TreeState → Prop
  | .empty => True
  | .single sym weight => (Node.leaf sym weight).wf
  | .multi weight left right seq =>
    (Node.internal weight left right seq).wf ∧ (left.symbols ++ right.symbols).Nodup

/-- STATUS holds a kind 0 .. 7 and a sub-code, its other bits zero, and `Ok` leaves no diagnostic (10_state.md rules R28, R29;
60_exceptions.md rule R220). -/
abbrev statusWf (s : State) : Prop :=
  s.status = statusWord (statusErr s.status).toNat (statusSub s.status).toNat ∧ (statusErr s.status).toNat ≤ 7 ∧
    (statusErr s.status = 0 → s.status = 0 ∧ s.errExp = 0 ∧ s.errAct = 0)

/-- What every state the block can reach satisfies: the parameters are in range (00_scope.md rule R6), the streams and
buffers fit (R23, R30, R31), the codeword map (R33), the tree and its mirror TREE_INFO (R36, R38), the status registers. -/
structure BlockInv (s : State) : Prop where
  cfg : s.cfg.wf
  inp : s.inp.wf s.cfg.capIn
  out : s.out.wf s.cfg.capOut
  pb : s.pb.wf s.cfg.capPb
  path : s.path.wf s.cfg.capPath
  map : ∀ b : Byte, mapEntryWf (tget s.cwValid b) (tget s.cw b)
  tree : s.tree.wf
  info : s.treeInfo = s.tree.info
  status : statusWf s

/-- The HOST keeps its duty in every operation it has waiting (20_memory.md rules R62, R68). -/
def HostDuty (s : State) : Prop := ∀ bytes, HostOp.loadIn bytes ∈ s.host → bytes.length ≤ s.cfg.capIn

/-- A safe step: the machine goes on. -/
def StepsOn (s : State) : Prop := ∃ t, step s = .next t

/-- A safe run: none of the first `k` steps stops the machine. -/
def RunsOn (k : Nat) (s : State) : Prop :=
  ∃ t, Host.Core.run ⟨State, Fault, Refusal, step, State.reset⟩ k s = .next t

end Sys2Proof.Machine

namespace Sys2Proof.Claims

open Sys2Proof.Machine

/-- Each leaf's symbol with the branch bits from the node to it, 0 left and 1 right (R162). -/
def codes : Node → List (Byte × List Bool)
  | .leaf s _ => [(s, [])]
  | .internal _ l r _ =>
    (codes l).map (fun c => (c.1, false :: c.2)) ++ (codes r).map (fun c => (c.1, true :: c.2))

/-- The codewords of a tree (R160 to R162): the one-bit string 0 for the symbol of a Single tree. -/
def treeCodes : TreeState → List (Byte × List Bool)
  | .empty => []
  | .single s _ => [(s, [false])]
  | .multi w l r k => codes (.internal w l r k)

/-- The length of the longest codeword of a list of codes. -/
def longest (cs : List (Byte × List Bool)) : Nat := (cs.map fun c => c.2.length).foldr max 0

end Sys2Proof.Claims
end

