-- ==== Sys2Proof/Certificates/Slice0/Obligations.lean ====
section
/-! DEFINITION. The statements for the provers, each formalising rules of spec/ (OBLIGATIONS.json names them), and the few
notions they are written in. An equality `t = ok { s with … }` is also the statement's frame: every field not named in it,
IN and OUT byte for byte among them, is as it was in `s`. -/

namespace Sys2Proof.Claims

open Sys2Proof.Machine

/-! ## Notions -/

/-- `s` with the error registers as a command that ends `Ok` leaves them (R28, R29). -/
def ok (s : State) : State := { s with status := 0, errExp := 0, errAct := 0 }

/-- `s` with an error recorded: STATUS, ERR_EXP, ERR_ACT (R226 item 1). -/
def err (s : State) (status exp act : Nat) : State :=
  { s with status := BitVec.ofNat 32 status, errExp := BitVec.ofNat 64 exp, errAct := BitVec.ofNat 64 act }

/-- The commands of a list one after the other. -/
def runCmds : List Instr → State → Option State
  | [], s => some s
  | i :: is, s =>
    match exec i s with
    | .next t => runCmds is t
    | .fault _ => none
    | .refused _ => none

/-- The commands of a list one after the other, up to the first that ends in an error. -/
def runUntilError : List Instr → State → Option State
  | [], s => some s
  | i :: is, s =>
    match exec i s with
    | .next t => if t.status = 0 then runUntilError is t else some t
    | .fault _ => none
    | .refused _ => none

/-- The command word with these fields: `OP + (A << 8) + (B << 17) + (BIT << 26)` (R81). -/
def word (op : BitVec 8) (a b : BitVec 9) (bit : Bool) : Word :=
  op.setWidth 32 + (a.setWidth 32 <<< 8) + (b.setWidth 32 <<< 17) + ((BitVec.ofBool bit).setWidth 32 <<< 26)

/-- The selector of a buffer (R32). -/
def number : Sel → BitVec 9
  | .cw s => s.setWidth 9
  | .pb => 0x100
  | .path => 0x101

/-- The rows of spec/opcode_table.json: opcode and mask. -/
def tableRows : List (BitVec 8 × Word) :=
  [(0x00, 0xFFFFFFFF), (0x10, 0xFFFE00FF), (0x11, 0xFBFE00FF), (0x12, 0xFC0000FF), (0x13, 0xFFFE00FF), (0x14, 0xFFFE00FF),
    (0x15, 0xFFFE00FF), (0x16, 0xFFFE00FF), (0x17, 0xFFFE00FF), (0x18, 0xFFFE00FF), (0x20, 0xFFFFFFFF), (0x30, 0xFFFFFFFF),
    (0x31, 0xFFFFFFFF), (0x32, 0xFFFFFFFF), (0x40, 0xFFFFFFFF), (0x41, 0xFFFFFFFF), (0x50, 0xFFFFFFFF), (0x51, 0xFFFFFFFF),
    (0x60, 0xFFFFFFFF), (0x61, 0xFFFFFFFF)]

/-- The opcodes whose field A must be PB or PATH (R84). -/
def dstOpcodes : List (BitVec 8) := [0x10, 0x11, 0x12, 0x14, 0x15]

/-- The opcodes whose field A may name any buffer (R84). -/
def anyOpcodes : List (BitVec 8) := [0x13, 0x16, 0x17, 0x18]

/-- IllegalCommand's sub-code of a decode error (R225). -/
def decodeCode : DecodeError → Nat
  | .unknownOpcode => 1
  | .reservedBits => 2
  | .badSelector => 3
  | .sameBuffer => 4

/-- Node `x` is dequeued before node `y` (R154), written out case by case. -/
def Before : Node → Node → Prop
  | .leaf s w, .leaf s' w' => w.toNat < w'.toNat ∨ w.toNat = w'.toNat ∧ s.toInt < s'.toInt
  | .leaf _ w, .internal w' _ _ _ => w.toNat ≤ w'.toNat
  | .internal w _ _ _, .leaf _ w' => w.toNat < w'.toNat
  | .internal w _ _ k, .internal w' _ _ k' => w.toNat < w'.toNat ∨ w.toNat = w'.toNat ∧ k < k'

/-- One leaf for each symbol with a non-zero count (R153). -/
def seeds (freq : Table Word) : List Node :=
  ((List.range 256).map (BitVec.ofNat 8)).filterMap fun s =>
    if tget freq s = 0 then none else some (.leaf s ((tget freq s).setWidth 40))

/-- The loop of R152 as a relation: from creation number `seq` and queue `q` (a set, so its list is taken up to order) to the
root; each turn takes the least node `a`, then the least node `b` of what remains, and puts back their merge with `a` left and
`b` right (R154, R155). -/
inductive QueueRun : Nat → List Node → Node → Prop
  | done (seq : Nat) (root : Node) : QueueRun seq [root] root
  | turn (seq : Nat) (q : List Node) (a b : Node) (rest : List Node) (root : Node) :
      q.Perm (a :: b :: rest) → (∀ x ∈ b :: rest, Before a x) → (∀ x ∈ rest, Before b x) →
      QueueRun (seq + 1) (.internal (a.weight + b.weight) a b seq :: rest) root → QueueRun seq q root

/-- The root as TREE holds it (R36, R158). -/
def stored : Node → TreeState
  | .leaf s w => .single s w
  | .internal w l r k => .multi w l r k

/-- The next node of the two-queue method (R156): the leaf when the two fronts have equal weight. -/
def front : List Node → List Node → Option (Node × List Node × List Node)
  | [], [] => none
  | l :: ls, [] => some (l, ls, [])
  | [], i :: is => some (i, [], is)
  | l :: ls, i :: is =>
    if i.weight.toNat < l.weight.toNat then some (i, l :: ls, is) else some (l, ls, i :: is)

/-- The two-queue method of R156: sorted leaves, and a first-in first-out queue of internal nodes. -/
def twoQueue : (fuel seq : Nat) → List Node → List Node → Option Node
  | 0, _, _, _ => none
  | fuel + 1, seq, ls, is =>
    match front ls is with
    | none => none
    | some (a, ls₁, is₁) =>
      match front ls₁ is₁ with
      | none => some a
      | some (b, ls₂, is₂) => twoQueue fuel (seq + 1) ls₂ (is₂ ++ [.internal (a.weight + b.weight) a b seq])

/-- The leaves of a node, left to right. -/
def leaves : Node → List (Byte × Weight)
  | .leaf s w => [(s, w)]
  | .internal _ l r _ => leaves l ++ leaves r

/-- The creation numbers of a node's internal nodes. -/
def seqs : Node → List Nat
  | .leaf _ _ => []
  | .internal _ l r k => k :: (seqs l ++ seqs r)

/-- How many nodes there are at and below a node. -/
def size : Node → Nat
  | .leaf _ _ => 1
  | .internal _ l r _ => 1 + size l + size r

/-- A symbol's codeword, the empty string if it has none. -/
def codeword (t : TreeState) (b : Byte) : List Bool := ((treeCodes t).lookup b).getD []

/-- The bits decode to the bytes under a tree, none left over: for a Single tree one bit of any value per byte (R172), for a
Multi tree the concatenation of the bytes' codewords (R98, R170). -/
def DecodesTo : TreeState → List Bool → List Byte → Prop
  | .empty, _, _ => False
  | .single s _, bits, bs => bs = List.replicate bits.length s
  | .multi w l r k, bits, bs =>
    (∀ b ∈ bs, b ∈ (TreeState.multi w l r k).symbols) ∧ bits = bs.flatMap (codeword (.multi w l r k))

/-- The bytes of a table's entries as a container holds them (R92). -/
def entriesBytes (es : List (Byte × Nat)) : List Byte := es.flatMap fun e => e.1 :: bytesLe32 e.2

/-- The bytes before the payload of a container (R92, R93). -/
def headBytes (es : List (Byte × Nat)) (bitCount : Nat) : List Byte :=
  [0xC0, 0xDE, 0x0D, 0xDE] ++ bytesLe32 es.length ++ bytesLe32 bitCount ++ entriesBytes es

/-- The bytes hold the bits, LSB-first within each byte (R66, R95); what stands at and beyond the last bit is left open. -/
def Holds (bytes : List Byte) (bits : List Bool) : Prop :=
  ceil8 bits.length ≤ bytes.length ∧ ∀ i (h : i < bits.length), (bytes.getD (i / 8) 0).getLsbD (i % 8) = bits[i]

/-- The entries are a frequency table: at least one, symbols distinct, counts 1 .. 2^32 − 1 (R34, R94). -/
def TableEntries (es : List (Byte × Nat)) : Prop :=
  es ≠ [] ∧ (es.map Prod.fst).Nodup ∧ ∀ e ∈ es, 1 ≤ e.2 ∧ e.2 < 2 ^ 32

/-- The stream begins with a container of these entries, in any order, and these payload bits; padding bits and trailing
bytes are left open (R92, R200 to R202). -/
def IsContainer (m : Memory) (es : List (Byte × Nat)) (bits : List Bool) : Prop :=
  TableEntries es ∧ bits.length < 2 ^ 32 ∧ ∃ rest, m = headBytes es bits.length ++ rest ∧ Holds rest bits

/-- The register file FREQ holds exactly the entries. -/
def HoldsTable (freq : Table Word) (es : List (Byte × Nat)) : Prop :=
  ∀ b, (tget freq b).toNat = (es.lookup b).getD 0

/-- The payload ENC_ENCODE makes of IN with the tree its own counts give (R98, R212). -/
def payload (bytes : List Byte) : List Bool :=
  match buildTree (countBytes bytes) with
  | none => []
  | some t => bytes.flatMap (codeword t)

/-- The frequency entries of IN in table order: ascending signed byte (R35, R140). -/
def countEntries (bytes : List Byte) : List (Byte × Nat) :=
  ((List.range 256).map fun i => BitVec.ofNat 8 (i + 128)).filterMap fun b =>
    if bytes.count b = 0 then none else some (b, bytes.count b)

/-- FREQ's entries in table order (R35). -/
def freqEntries (freq : Table Word) : List (Byte × Nat) :=
  ((List.range 256).map fun i => BitVec.ofNat 8 (i + 128)).filterMap fun b =>
    if tget freq b = 0 then none else some (b, (tget freq b).toNat)

/-- The STATUS values of the kinds a command's body can raise (R229; codes of R220 to R225). -/
def bodyErrors : Instr → List Nat
  | .nop | .bbInit _ | .bbClear _ | .bbLen _ | .bbBytecount _ | .ftCount => []
  | .bbAppendBit _ _ => [0x16]
  | .bbAppendFrom _ _ => [0x16]
  | .bbReadBit _ => [0x12]
  | .bbRemoveLast _ => [0x22]
  | .bbToBytes _ => [0x26]
  | .htBuild => [0x01]
  | .htInferMap => [0x57]
  | .htDecodeOne => [0x57, 0x04]
  | .encEncode => [0x05, 0x16]
  | .decDecode => [0x57, 0x04, 0x26]
  | .ctSerialize => [0x01, 0x26]
  | .ctDeserialize => [0x13, 0x23, 0x33, 0x43, 0x53, 0x63, 0x73, 0x83, 0x93, 0x16]
  | .compress => [0x01, 0x16, 0x26]
  | .decompress => [0x13, 0x23, 0x33, 0x43, 0x53, 0x63, 0x73, 0x83, 0x93, 0x16, 0x04, 0x26]

/-- The commands that write OUT when they succeed (R226 item 2). -/
def writesOut : Instr → Bool
  | .bbToBytes _ | .decDecode | .ctSerialize | .compress | .decompress => true
  | .nop | .bbInit _ | .bbAppendBit _ _ | .bbAppendFrom _ _ | .bbReadBit _ | .bbRemoveLast _ | .bbClear _ | .bbLen _
  | .bbBytecount _ | .ftCount | .htBuild | .htInferMap | .htDecodeOne | .encEncode | .ctDeserialize => false

/-- The primitive commands: all but the two composites (00_scope.md glossary). -/
def Primitive (i : Instr) : Prop := i ≠ .compress ∧ i ≠ .decompress

end Sys2Proof.Claims

open Sys2Proof Sys2Proof.Machine Sys2Proof.Claims

/-! ## Reset, the HOST, the command word -/

/-- R45: after reset, whatever the parameters, every piece of the block's state is 0 or empty. The last clause, that
`State.reset` takes the default parameters of R6, is the model's choice (log entry 4, DESIGN CHOICE). -/
def Obligations.ResetHoldsZeroAndEmpty : Prop :=
  (∀ c : Config,
    (State.resetWith c).arg = 0 ∧ (State.resetWith c).res = 0 ∧ (State.resetWith c).cur = 0 ∧
    (State.resetWith c).inLen = 0 ∧ (State.resetWith c).outLen = 0 ∧
    (State.resetWith c).inp = [] ∧ (State.resetWith c).out = [] ∧
    (State.resetWith c).status = 0 ∧ (State.resetWith c).errExp = 0 ∧ (State.resetWith c).errAct = 0 ∧
    (∀ b, tget (State.resetWith c).freq b = 0) ∧
    (State.resetWith c).tree = .empty ∧ (State.resetWith c).treeInfo = 0 ∧
    (∀ b, tget (State.resetWith c).cwValid b = false) ∧ (∀ b, tget (State.resetWith c).cw b = ⟨[], 0⟩) ∧
    (State.resetWith c).pb = ⟨[], 0⟩ ∧ (State.resetWith c).path = ⟨[], 0⟩) ∧
  State.reset = State.resetWith ⟨2 ^ 32 - 1, 255, 2 ^ 32 - 1, 2 ^ 32 - 1⟩

/-- R80: a word the HOST writes to CMD that decodes to a command runs that command, on the state without the HOST operation
that issued it. -/
def Obligations.StepRunsTheDecodedCommand : Prop :=
  ∀ (s : State) (w : Word) (i : Instr) (rest : List HostOp),
    s.host = .writeReg 0x000 w :: rest → decode w = .ok i → step s = exec i { s with host := rest }

/-- R84 to R87: every illegal word is refused by the first check it fails, every other word is a command, and a refused word
changes nothing but the error registers. -/
def Obligations.IllegalWordsFailAtTheFirstCheck : Prop :=
  (∀ w : Word, (∀ r ∈ tableRows, w.extractLsb' 0 8 ≠ r.1) → decode w = .error .unknownOpcode) ∧
  (∀ w : Word, ∀ r ∈ tableRows, w.extractLsb' 0 8 = r.1 → w &&& r.2 ≠ r.1.setWidth 32 → decode w = .error .reservedBits) ∧
  (∀ w : Word, ∀ r ∈ tableRows, w &&& r.2 = r.1.setWidth 32 → r.1 ∈ dstOpcodes →
    w.extractLsb' 8 9 ≠ 0x100 → w.extractLsb' 8 9 ≠ 0x101 → decode w = .error .badSelector) ∧
  (∀ w : Word, ∀ r ∈ tableRows, w &&& r.2 = r.1.setWidth 32 → r.1 ∈ anyOpcodes →
    0x101 < (w.extractLsb' 8 9).toNat → decode w = .error .badSelector) ∧
  (∀ w : Word, w &&& 0xFC0000FF = 0x12 → (w.extractLsb' 8 9 = 0x100 ∨ w.extractLsb' 8 9 = 0x101) →
    0x101 < (w.extractLsb' 17 9).toNat → decode w = .error .badSelector) ∧
  (∀ w : Word, w &&& 0xFC0000FF = 0x12 → (w.extractLsb' 8 9 = 0x100 ∨ w.extractLsb' 8 9 = 0x101) →
    w.extractLsb' 17 9 = w.extractLsb' 8 9 → decode w = .error .sameBuffer) ∧
  (∀ w : Word, ∀ r ∈ tableRows, w &&& r.2 = r.1.setWidth 32 →
    (r.1 ∈ dstOpcodes → w.extractLsb' 8 9 = 0x100 ∨ w.extractLsb' 8 9 = 0x101) →
    (r.1 ∈ anyOpcodes → (w.extractLsb' 8 9).toNat ≤ 0x101) →
    (r.1 = 0x12 → (w.extractLsb' 17 9).toNat ≤ 0x101 ∧ w.extractLsb' 17 9 ≠ w.extractLsb' 8 9) →
    ∃ i, decode w = .ok i) ∧
  (∀ (s : State) (w : Word) (e : DecodeError) (rest : List HostOp),
    s.host = .writeReg 0x000 w :: rest → decode w = .error e →
    step s = .next (err { s with host := rest } (7 + 16 * decodeCode e) 0 w.toNat))

/-- Decoding the word of a well-formed command gives the command back, whatever its operands (R81 to R84). -/
def Obligations.DecodeOfEncodeIsTheCommand : Prop :=
  ∀ i : Instr, i.WellFormed → decode (encode i) = .ok i

/-- A word that decodes is the word of the command it decodes to, bit for bit: no two words are one command (R80 to R85). -/
def Obligations.EncodeOfDecodeIsTheWord : Prop :=
  ∀ (w : Word) (i : Instr), decode w = .ok i → encode i = w ∧ i.WellFormed

/-- Words written out from R81, R83 and R90 decode to the commands they stand for. -/
def Obligations.WrittenOutWordsDecode : Prop :=
  decode 0x00000000 = .ok .nop ∧ decode 0x04010011 = .ok (.bbAppendBit .pb true) ∧
  decode 0x00830012 = .ok (.bbAppendFrom .pb (.cw 0x41)) ∧ decode 0x00000313 = .ok (.bbReadBit (.cw 0x03)) ∧
  decode 0x02010112 = .ok (.bbAppendFrom .path .pb) ∧ decode 0x00000020 = .ok .ftCount ∧
  decode 0x00000030 = .ok .htBuild ∧ decode 0x00000041 = .ok .decDecode ∧ decode 0x00000051 = .ok .ctDeserialize ∧
  decode 0x00000060 = .ok .compress

/-- R62: HOST_LOAD_IN of at most CAP_IN bytes replaces IN whole and changes nothing else. -/
def Obligations.HostLoadReplacesIn : Prop :=
  ∀ (s : State) (bytes : List Byte) (rest : List HostOp),
    s.host = .loadIn bytes :: rest → bytes.length ≤ s.cfg.capIn → s.cfg.capIn < 2 ^ 32 →
    ∃ t, step s = .next t ∧ t = { s with host := rest, inp := bytes } ∧ t.inLen.toNat = bytes.length

/-- The model's choice for a HOST that breaks its duty (log entry 5; 20_memory.md R62, 93_implementation_defined.md U4): a load
of more than CAP_IN bytes stops the machine. -/
def Obligations.OverlongHostLoadStops : Prop :=
  ∀ (s : State) (bytes : List Byte) (rest : List HostOp),
    s.host = .loadIn bytes :: rest → s.cfg.capIn < bytes.length → step s = .fault .hostLoadTooLong

/-- R40: the register port, every number, reads and writes; a write to CMD issues the word. -/
def Obligations.RegisterPortReadsAndWrites : Prop :=
  (∀ s : State, s.readReg 0x000 = 0 ∧ s.readReg 0x001 = s.status.setWidth 64 ∧ s.readReg 0x002 = s.errExp ∧
    s.readReg 0x003 = s.errAct ∧ s.readReg 0x004 = s.res.setWidth 64 ∧ s.readReg 0x005 = s.arg.setWidth 64 ∧
    s.readReg 0x006 = s.cur.setWidth 64 ∧ s.readReg 0x007 = s.inLen.setWidth 64 ∧ s.readReg 0x008 = s.outLen.setWidth 64 ∧
    s.readReg 0x009 = s.treeInfo.setWidth 64 ∧
    (∀ n : BitVec 9, 0x009 < n.toNat → n.toNat < 0x100 → s.readReg n = 0) ∧
    (∀ b : Byte, s.readReg (BitVec.ofNat 9 (0x100 + b.toNat)) = (tget s.freq b).setWidth 64)) ∧
  (∀ (s : State) (n : BitVec 9) (rest : List HostOp), s.host = .readReg n :: rest → step s = .next { s with host := rest }) ∧
  (∀ (s : State) (v : Word) (rest : List HostOp), s.host = .writeReg 0x005 v :: rest →
    step s = .next { s with host := rest, arg := v }) ∧
  (∀ (s : State) (v : Word) (rest : List HostOp), s.host = .writeReg 0x006 v :: rest →
    step s = .next { s with host := rest, cur := v }) ∧
  (∀ (s : State) (b : Byte) (v : Word) (rest : List HostOp), s.host = .writeReg (BitVec.ofNat 9 (0x100 + b.toNat)) v :: rest →
    ∃ t, step s = .next t ∧ t = { s with host := rest, freq := t.freq } ∧ tget t.freq b = v ∧
      ∀ c, c ≠ b → tget t.freq c = tget s.freq c) ∧
  (∀ (s : State) (n : BitVec 9) (v : Word) (rest : List HostOp), s.host = .writeReg n v :: rest →
    n ≠ 0x000 → n ≠ 0x005 → n ≠ 0x006 → n.toNat < 0x100 → step s = .next { s with host := rest }) ∧
  (∀ (s : State) (w : Word) (rest : List HostOp), s.host = .writeReg 0x000 w :: rest →
    (∀ i, decode w = .ok i → step s = exec i { s with host := rest }) ∧
    (∀ e, decode w = .error e → step s = .next (err { s with host := rest } (7 + 16 * decodeCode e) 0 w.toNat)))

/-- R63: HOST_READ_OUT and HOST_READ_IN return the streams whole and change nothing. -/
def Obligations.HostReadsReturnTheStreams : Prop :=
  ∀ s : State, s.readOut = s.out ∧ s.readIn = s.inp ∧
    (∀ rest, s.host = .readOut :: rest → step s = .next { s with host := rest }) ∧
    (∀ rest, s.host = .readIn :: rest → step s = .next { s with host := rest })

/-- R250: reset gives every piece of the block's state its reset value, whatever the state was. The parameters, the draw
counter and the HOST's waiting operations are no state of the block (log entry 9). -/
def Obligations.ResetSignalRestoresEveryReset : Prop :=
  ∀ (s : State) (rest : List HostOp), s.host = .reset :: rest →
    step s = .next { State.resetWith s.cfg with draws := s.draws, host := rest }

/-- R210: NOP is word 0, erases the record of an earlier error and does nothing else; any other bit with its opcode is
ReservedBits. -/
def Obligations.NopErasesTheErrorRecord : Prop :=
  (∀ s : State, exec .nop s = .next (ok s)) ∧ decode 0x00000000 = .ok .nop ∧
  (∀ w : Word, w.extractLsb' 0 8 = 0 → w ≠ 0 → decode w = .error .reservedBits)

/-! ## Bit buffers -/

/-- R32: the buffers the operand forms name, their capacities, which of them a command may write, and the reserved
selectors. -/
def Obligations.SelectorsNameTheirBuffers : Prop :=
  ∀ s : State, (∀ b, s.buf (.cw b) = tget s.cw b) ∧ s.buf .pb = s.pb ∧ s.buf .path = s.path ∧
    (∀ x, s.setBuf .pb x = { s with pb := x }) ∧ (∀ x, s.setBuf .path x = { s with path := x }) ∧
    s.dstCap .pb = s.cfg.capPb ∧ s.dstCap .path = s.cfg.capPath ∧ capCw = 255 ∧
    (∀ b, selOf (b.setWidth 9) = .ok (.cw b)) ∧ selOf 0x100 = .ok .pb ∧ selOf 0x101 = .ok .path ∧
    (∀ b : Byte, dstOf (b.setWidth 9) = .error .badSelector) ∧ dstOf 0x100 = .ok .pb ∧ dstOf 0x101 = .ok .path ∧
    (∀ n : BitVec 9, 0x101 < n.toNat → selOf n = .error .badSelector ∧ dstOf n = .error .badSelector)

/-- R111: word `OP 0x10, A`; the length and hwm become 0. -/
def Obligations.BbInitCreatesTheBufferEmpty : Prop :=
  ∀ (s : State) (dst : Dst), decode (word 0x10 (number dst.sel) 0 false) = .ok (.bbInit dst) ∧
    exec (.bbInit dst) s = .next (ok (s.setBuf dst ⟨[], 0⟩))

/-- R112, R113: the bit goes to index `len` and hwm rises with the length; a full buffer is left as it is. -/
def Obligations.BbAppendBitPushesOneBit : Prop :=
  ∀ (s : State) (dst : Dst) (bit : Bool), decode (word 0x11 (number dst.sel) 0 bit) = .ok (.bbAppendBit dst bit) ∧
    ((s.buf dst.sel).len ≠ s.dstCap dst →
      exec (.bbAppendBit dst bit) s = .next (ok (s.setBuf dst
        ⟨(s.buf dst.sel).bits ++ [bit], max (s.buf dst.sel).hwm ((s.buf dst.sel).len + 1)⟩))) ∧
    ((s.buf dst.sel).len = s.dstCap dst →
      exec (.bbAppendBit dst bit) s = .next (err s 0x16 (s.dstCap dst) ((s.buf dst.sel).len + 1)))

/-- R114: all bits of the source in order after the destination's, the source unchanged; nothing is appended when the sum does
not fit; the destination itself as source is refused. -/
def Obligations.BbAppendFromAppendsTheSource : Prop :=
  ∀ (s : State) (dst : Dst) (src : Sel), BlockInv s →
    (dst.sel ≠ src → decode (word 0x12 (number dst.sel) (number src) false) = .ok (.bbAppendFrom dst src)) ∧
    (dst.sel ≠ src → (s.buf dst.sel).len + (s.buf src).len ≤ s.dstCap dst →
      exec (.bbAppendFrom dst src) s = .next (ok (s.setBuf dst
        ⟨(s.buf dst.sel).bits ++ (s.buf src).bits,
          max (s.buf dst.sel).hwm ((s.buf dst.sel).len + (s.buf src).len)⟩))) ∧
    (dst.sel ≠ src → s.dstCap dst < (s.buf dst.sel).len + (s.buf src).len →
      exec (.bbAppendFrom dst src) s =
        .next (err s 0x16 (s.dstCap dst) ((s.buf dst.sel).len + (s.buf src).len))) ∧
    (dst.sel = src → decode (word 0x12 (number dst.sel) (number src) false) = .error .sameBuffer ∧
      exec (.bbAppendFrom dst src) s = .next (err s 0x47 0 (word 0x12 (number dst.sel) (number src) false).toNat))

/-- R115: RES becomes the bit at ARG; at or beyond the length nothing is read. -/
def Obligations.BbReadBitReadsTheBitAtArg : Prop :=
  ∀ (s : State) (sel : Sel), decode (word 0x13 (number sel) 0 false) = .ok (.bbReadBit sel) ∧
    (∀ h : s.arg.toNat < (s.buf sel).bits.length,
      exec (.bbReadBit sel) s = .next (ok { s with res := if (s.buf sel).bits[s.arg.toNat] then 1 else 0 })) ∧
    ((s.buf sel).len ≤ s.arg.toNat →
      exec (.bbReadBit sel) s = .next (err s 0x12 (s.buf sel).len s.arg.toNat))

/-- R116, R117: the last bit goes and hwm stays; an empty buffer raises Underflow. -/
def Obligations.BbRemoveLastDropsOneBit : Prop :=
  ∀ (s : State) (dst : Dst), decode (word 0x14 (number dst.sel) 0 false) = .ok (.bbRemoveLast dst) ∧
    (∀ bits bit, (s.buf dst.sel).bits = bits ++ [bit] →
      exec (.bbRemoveLast dst) s = .next (ok (s.setBuf dst ⟨bits, (s.buf dst.sel).hwm⟩))) ∧
    ((s.buf dst.sel).bits = [] → exec (.bbRemoveLast dst) s = .next (err s 0x22 1 0))

/-- R118: the length becomes 0 and hwm stays. -/
def Obligations.BbClearKeepsTheHighWaterMark : Prop :=
  ∀ (s : State) (dst : Dst), decode (word 0x15 (number dst.sel) 0 false) = .ok (.bbClear dst) ∧
    exec (.bbClear dst) s = .next (ok (s.setBuf dst ⟨[], (s.buf dst.sel).hwm⟩))

/-- R119: RES becomes the length; for a codeword buffer it is 0 exactly when the symbol has no entry. -/
def Obligations.BbLenReturnsTheLength : Prop :=
  ∀ (s : State) (sel : Sel), BlockInv s → decode (word 0x16 (number sel) 0 false) = .ok (.bbLen sel) ∧
    ∃ r : Word, exec (.bbLen sel) s = .next (ok { s with res := r }) ∧ r.toNat = (s.buf sel).bits.length ∧
      ∀ b, sel = .cw b → (r = 0 ↔ tget s.cwValid b = false)

/-- R121: RES becomes `ceil(length / 8)`. -/
def Obligations.BbBytecountReturnsTheByteCount : Prop :=
  ∀ (s : State) (sel : Sel), BlockInv s → decode (word 0x17 (number sel) 0 false) = .ok (.bbBytecount sel) ∧
    ∃ r : Word, exec (.bbBytecount sel) s = .next (ok { s with res := r }) ∧
      r.toNat = ((s.buf sel).bits.length + 7) / 8

/-- R120: OUT becomes the bits packed LSB-first, with 0 at and above hwm; nothing is said of the stale bits between. A pack
that does not fit OUT empties it. -/
def Obligations.BbToBytesPacksTheBits : Prop :=
  ∀ (s : State) (sel : Sel), BlockInv s → decode (word 0x18 (number sel) 0 false) = .ok (.bbToBytes sel) ∧
    (((s.buf sel).len + 7) / 8 ≤ s.cfg.capOut →
      ∃ t, exec (.bbToBytes sel) s = .next t ∧ t = ok { s with out := t.out, draws := t.draws } ∧ s.draws ≤ t.draws ∧
        t.out.length = ((s.buf sel).len + 7) / 8 ∧
        (∀ i (h : i < (s.buf sel).bits.length), (t.out.getD (i / 8) 0).getLsbD (i % 8) = (s.buf sel).bits[i]) ∧
        (∀ i, (s.buf sel).hwm ≤ i → i < 8 * t.out.length → (t.out.getD (i / 8) 0).getLsbD (i % 8) = false)) ∧
    (s.cfg.capOut < ((s.buf sel).len + 7) / 8 →
      exec (.bbToBytes sel) s = .next (err { s with out := [] } 0x26 s.cfg.capOut (((s.buf sel).len + 7) / 8)))

/-- R122 (a): the bits appended to a new buffer, each by a command of its own, read back one by one. -/
def Obligations.AppendedBitsReadBack : Prop :=
  ∀ (s : State) (dst : Dst) (bits : List Bool), bits.length ≤ s.dstCap dst → bits.length < 2 ^ 32 →
    ∃ t, runCmds (.bbInit dst :: bits.map (.bbAppendBit dst)) s = some t ∧
      ∀ i (h : i < bits.length),
        exec (.bbReadBit dst.sel) { t with arg := BitVec.ofNat 32 i } =
          .next { t with arg := BitVec.ofNat 32 i, res := if bits[i] then 1 else 0 }

/-- R122 (b): removing the last bit and appending `x` gives the original length, `x` last and every earlier bit as it was. -/
def Obligations.RemoveThenAppendReplacesTheLastBit : Prop :=
  ∀ (s : State) (dst : Dst) (bits : List Bool) (old x : Bool), (s.buf dst.sel).bits = bits ++ [old] → BlockInv s →
    runCmds [.bbRemoveLast dst, .bbAppendBit dst x] s =
      some (ok (s.setBuf dst ⟨bits ++ [x], (s.buf dst.sel).hwm⟩))

/-- R122 (c): BB_APPEND_FROM is the sequence of BB_APPEND_BIT of the source's bits, where they fit. -/
def Obligations.AppendFromIsRepeatedAppendBit : Prop :=
  ∀ (s : State) (dst : Dst) (src : Sel), dst.sel ≠ src →
    (s.buf dst.sel).len + (s.buf src).len ≤ s.dstCap dst →
    ∃ t, runCmds ((s.buf src).bits.map (.bbAppendBit dst)) s = some t ∧
      exec (.bbAppendFrom dst src) s = .next (ok t)

/-- R122 (d): for a buffer with `hwm = len`, unpacking its packed bytes gives its bits back, and packing draws nothing. -/
def Obligations.UnpackOfPackIsTheBits : Prop :=
  ∀ (b : BitBuf) (base : Nat), b.hwm = b.len → Memory.unpack (b.pack base) 0 b.len = b.bits ∧ b.packDraws = 0

/-! ## The frequency counter -/

/-- R140: all 256 registers become the counts of the byte values of IN. -/
def Obligations.FtCountCountsEveryByte : Prop :=
  ∀ s : State, BlockInv s → decode 0x00000020 = .ok .ftCount ∧
    ∃ t, exec .ftCount s = .next t ∧ t = ok { s with freq := t.freq } ∧
      ∀ b, (tget t.freq b).toNat = s.inp.count b

/-- R141: the counts sum to IN_LEN, are non-zero exactly for the bytes of IN, and there is one entry per distinct byte. -/
def Obligations.FtCountSumsToTheInputLength : Prop :=
  ∀ s : State, BlockInv s →
    ∃ t, exec .ftCount s = .next t ∧
      (((List.range 256).map (BitVec.ofNat 8)).map fun b => (tget t.freq b).toNat).sum = s.inp.length ∧
      (∀ b, tget t.freq b ≠ 0 ↔ b ∈ s.inp) ∧ (freqEntries t.freq).length = s.inp.dedup.length

/-! ## The Huffman tree -/

/-- R152 to R155, R158: HT_BUILD on an empty table raises EmptyAlphabet; otherwise it stores the root of the queue run from
the table's leaves, sets TREE_INFO, and empties the codeword map. -/
def Obligations.HtBuildRunsTheQueue : Prop :=
  decode 0x00000030 = .ok .htBuild ∧
  (∀ s : State, (∀ b, tget s.freq b = 0) → exec .htBuild s = .next (err s 0x01 1 0)) ∧
  (∀ s : State, (∃ b, tget s.freq b ≠ 0) →
    ∃ t root, exec .htBuild s = .next t ∧ QueueRun 0 (seeds s.freq) root ∧ t.tree = stored root ∧
      t = ok { s with tree := t.tree, treeInfo := t.treeInfo, cw := t.cw, cwValid := t.cwValid } ∧
      (∀ b, tget t.cwValid b = false) ∧ (∀ b, tget t.cw b = ⟨[], 0⟩) ∧
      t.treeInfo.toNat = (if (seeds s.freq).length = 1 then 1 else 2) + 4 * (seeds s.freq).length)

/-- R156, R36: the built tree's leaves are the table's entries, its n − 1 internal nodes are numbered 0 .. n − 2, it has 2n − 1
nodes, the root weighs the sum of the counts, and no weight wraps. -/
def Obligations.HtBuildTreeSizeAndWeight : Prop :=
  ∀ s : State, (∃ b, tget s.freq b ≠ 0) →
    ∃ t root, exec .htBuild s = .next t ∧ t.tree = stored root ∧ root.wf ∧
      (leaves root).Perm ((freqEntries s.freq).map fun e => (e.1, BitVec.ofNat 40 e.2)) ∧
      (seqs root).Perm (List.range ((freqEntries s.freq).length - 1)) ∧
      size root = 2 * (freqEntries s.freq).length - 1 ∧
      root.weight.toNat = ((freqEntries s.freq).map Prod.snd).sum

/-- R156: the two-queue method on the leaves sorted by the order of R154 builds the same tree. -/
def Obligations.HtBuildEqualsTheTwoQueueMethod : Prop :=
  ∀ (s : State) (ls : List Node), ls ≠ [] → ls.Perm (seeds s.freq) → ls.Pairwise Before →
    ∃ t root, exec .htBuild s = .next t ∧ t.tree = stored root ∧ twoQueue ls.length 0 ls [] = some root

/-- R160 to R162: HT_INFER_MAP without a tree raises NoTree; otherwise the map holds exactly the codewords of the tree's
leaves, PATH is empty with the stale bits of the longest codeword (none for a Single tree), and nothing else changes. -/
def Obligations.InferMapAssignsTheTreePaths : Prop :=
  decode 0x00000031 = .ok .htInferMap ∧
  (∀ s : State, s.tree = .empty → exec .htInferMap s = .next (err s 0x57 0 0x31)) ∧
  (∀ s : State, BlockInv s → s.tree ≠ .empty →
    ∃ t, exec .htInferMap s = .next t ∧
      t = ok { s with cw := t.cw, cwValid := t.cwValid, path := t.path } ∧
      (∀ b β, (b, β) ∈ treeCodes s.tree → tget t.cw b = ⟨β, β.length⟩ ∧ tget t.cwValid b = true) ∧
      (∀ b, b ∉ (treeCodes s.tree).map Prod.fst → tget t.cw b = ⟨[], 0⟩ ∧ tget t.cwValid b = false) ∧
      (∀ b w, s.tree = .single b w → t.path = ⟨[], 0⟩) ∧
      (∀ w l r k, s.tree = .multi w l r k → t.path = ⟨[], longest (treeCodes s.tree)⟩))

/-- R164 (a): no codeword of an inferred map is a prefix of another. -/
def Obligations.InferredMapIsPrefixFree : Prop :=
  ∀ s : State, BlockInv s → s.tree ≠ .empty →
    ∃ t, exec .htInferMap s = .next t ∧
      ∀ a b, tget t.cwValid a = true → tget t.cwValid b = true → a ≠ b →
        ¬ (tget t.cw a).bits <+: (tget t.cw b).bits

/-- R164 (b): for a Multi tree the codeword lengths meet Kraft's sum exactly: `Σ 2^(−len) = 1`, scaled by 2^255. -/
def Obligations.InferredMapIsComplete : Prop :=
  ∀ (s : State) (w : Weight) (l r : Node) (k : Nat), BlockInv s → s.tree = .multi w l r k →
    ∃ t, exec .htInferMap s = .next t ∧
      ((((List.range 256).map (BitVec.ofNat 8)).filter fun b => tget t.cwValid b).map fun b =>
        2 ^ (255 - (tget t.cw b).bits.length)).sum = 2 ^ 255

/-- R170, R172: HT_DECODE_ONE answers the symbol whose codeword stands at CUR and moves CUR behind it; a Single tree takes one
bit of any value; it overruns when the bits end first, and raises NoTree without a tree. -/
def Obligations.HtDecodeOneWalksTheTree : Prop :=
  decode 0x00000032 = .ok .htDecodeOne ∧
  (∀ s : State, s.tree = .empty → exec .htDecodeOne s = .next (err s 0x57 0 0x32)) ∧
  (∀ (s : State) (sym : Byte) (w : Weight), BlockInv s → s.tree = .single sym w →
    (s.cur.toNat < s.pb.len →
      exec .htDecodeOne s = .next (ok { s with res := sym.setWidth 32, cur := s.cur + 1 })) ∧
    (s.pb.len ≤ s.cur.toNat → exec .htDecodeOne s = .next (err s 0x04 s.pb.len s.cur.toNat))) ∧
  (∀ (s : State) (w : Weight) (l r : Node) (k : Nat), s.tree = .multi w l r k →
    (∀ b β, (b, β) ∈ treeCodes s.tree → β <+: s.pb.bits.drop s.cur.toNat →
      exec .htDecodeOne s = .next (ok { s with res := b.setWidth 32, cur := BitVec.ofNat 32 (s.cur.toNat + β.length) })) ∧
    ((∀ c ∈ treeCodes s.tree, ¬ c.2 <+: s.pb.bits.drop s.cur.toNat) →
      exec .htDecodeOne s = .next (err s 0x04 s.pb.len s.cur.toNat)))

/-- R173: on the map HT_INFER_MAP made of any tree, decoding at a place where a symbol's codeword stands (for a Single tree: at
any place inside the buffer) answers that symbol and consumes exactly its codeword. -/
def Obligations.DecodingAgreesWithTheInferredMap : Prop :=
  ∀ (s : State) (p : BitBuf) (c : Word), BlockInv s → s.tree ≠ .empty → p.bits.length < 2 ^ 32 →
    ∃ t, exec .htInferMap s = .next t ∧
      ∀ b, tget t.cwValid b = true →
        ((tget t.cw b).bits <+: p.bits.drop c.toNat ∨ (∃ w, s.tree = .single b w) ∧ c.toNat < p.bits.length) →
        ∃ u, exec .htDecodeOne { t with pb := p, cur := c } = .next u ∧ u.status = 0 ∧ u.res = b.setWidth 32 ∧
          u.cur.toNat = c.toNat + (tget t.cw b).bits.length

/-! ## Encoder and decoder -/

/-- R180, R181: PB becomes a new buffer with the codewords of IN in order; the first byte without an entry, or whose codeword
does not fit, is the error reported, and PB is then unchanged. -/
def Obligations.EncEncodeConcatenatesCodewords : Prop :=
  decode 0x00000040 = .ok .encEncode ∧ ∀ s : State, BlockInv s →
    ((∀ b ∈ s.inp, tget s.cwValid b = true) →
      (s.inp.flatMap fun b => (tget s.cw b).bits).length ≤ s.cfg.capPb →
      exec .encEncode s = .next (ok { s with
        pb := ⟨s.inp.flatMap fun b => (tget s.cw b).bits, (s.inp.map fun b => (tget s.cw b).bits.length).sum⟩ })) ∧
    (∀ done b rest, s.inp = done ++ b :: rest → (∀ x ∈ done, tget s.cwValid x = true) →
      (done.flatMap fun x => (tget s.cw x).bits).length ≤ s.cfg.capPb →
      (tget s.cwValid b = false → exec .encEncode s = .next (err s 0x05 b.toNat done.length)) ∧
      (tget s.cwValid b = true →
        s.cfg.capPb < (done.flatMap fun x => (tget s.cw x).bits).length + (tget s.cw b).bits.length →
        exec .encEncode s = .next (err s 0x16 s.cfg.capPb
          ((done.flatMap fun x => (tget s.cw x).bits).length + (tget s.cw b).bits.length))))

/-- R184, R172: OUT becomes the bytes PB's bits decode to and CUR the length of PB; a last codeword cut short is DecodeOverrun
at its first bit, a byte too many for OUT is CapacityExceeded, and either empties OUT and leaves CUR. -/
def Obligations.DecDecodeDecodesTheWholeBuffer : Prop :=
  decode 0x00000041 = .ok .decDecode ∧
  (∀ s : State, s.tree = .empty → exec .decDecode s = .next (err { s with out := [] } 0x57 0 0x41)) ∧
  (∀ (s : State) (bs : List Byte), DecodesTo s.tree s.pb.bits bs → bs.length ≤ s.cfg.capOut →
    exec .decDecode s = .next (ok { s with out := bs, cur := BitVec.ofNat 32 s.pb.bits.length })) ∧
  (∀ (s : State) (bs : List Byte) (tail : List Bool) (w : Weight) (l r : Node) (k : Nat), s.tree = .multi w l r k →
    (∀ b ∈ bs, b ∈ s.tree.symbols) → s.pb.bits = bs.flatMap (codeword s.tree) ++ tail → bs.length ≤ s.cfg.capOut →
    tail ≠ [] → (∀ c ∈ treeCodes s.tree, ¬ c.2 <+: tail) →
    exec .decDecode s =
      .next (err { s with out := [] } 0x04 s.pb.bits.length (bs.flatMap (codeword s.tree)).length)) ∧
  (∀ (s : State) (bs : List Byte) (bits tail : List Bool), s.pb.bits = bits ++ tail → DecodesTo s.tree bits bs →
    bs.length = s.cfg.capOut + 1 →
    exec .decDecode s = .next (err { s with out := [] } 0x26 s.cfg.capOut (s.cfg.capOut + 1)))

/-- R186: with a table that covers IN, build, infer, encode and decode give IN back, unless a capacity error stops the
encoder or OUT is too small. -/
def Obligations.EncodeThenDecodeReturnsIn : Prop :=
  ∀ s t : State, BlockInv s → (∃ b, tget s.freq b ≠ 0) → (∀ b ∈ s.inp, tget s.freq b ≠ 0) →
    s.inp.length ≤ s.cfg.capOut →
    runCmds [.htBuild, .htInferMap, .encEncode] s = some t → t.status = 0 →
    ∃ u, exec .decDecode t = .next u ∧ u.status = 0 ∧ u.out = s.inp ∧ u.cur.toNat = u.pb.bits.length

/-! ## The container -/

/-- R190, R191: CT_SERIALIZE writes magic, counts, entries in table order and the packed payload; an empty table is
EmptyAlphabet and a container too long for OUT is CapacityExceeded, each emptying OUT. -/
def Obligations.CtSerializeWritesTheContainer : Prop :=
  decode 0x00000050 = .ok .ctSerialize ∧ ∀ s : State, BlockInv s →
    (freqEntries s.freq = [] → exec .ctSerialize s = .next (err { s with out := [] } 0x01 1 0)) ∧
    (freqEntries s.freq ≠ [] →
      12 + 5 * (freqEntries s.freq).length + (s.pb.len + 7) / 8 ≤ s.cfg.capOut →
      ∃ t pay, exec .ctSerialize s = .next t ∧ t = ok { s with out := t.out, draws := t.draws } ∧
        t.out = headBytes (freqEntries s.freq) s.pb.len ++ pay ∧ pay.length = (s.pb.len + 7) / 8 ∧
        Holds pay s.pb.bits ∧
        (∀ i, s.pb.hwm ≤ i → i < 8 * pay.length → (pay.getD (i / 8) 0).getLsbD (i % 8) = false)) ∧
    (freqEntries s.freq ≠ [] →
      s.cfg.capOut < 12 + 5 * (freqEntries s.freq).length + (s.pb.len + 7) / 8 →
      exec .ctSerialize s = .next (err { s with out := [] } 0x26 s.cfg.capOut
        (12 + 5 * (freqEntries s.freq).length + (s.pb.len + 7) / 8)))

/-- R196, R197, R198: the six checks in order, each a FormatError with its exact expected and actual values, and nothing else
changed. -/
def Obligations.HeaderChecksFailInOrder : Prop :=
  ∀ (s : State) (sc bc : Nat), sc = le32 ((s.inp.drop 4).take 4) → bc = le32 ((s.inp.drop 8).take 4) →
    (s.inp.length < 4 → exec .ctDeserialize s = .next (err s 0x13 4 s.inp.length)) ∧
    (4 ≤ s.inp.length → s.inp.take 4 ≠ [0xC0, 0xDE, 0x0D, 0xDE] →
      exec .ctDeserialize s = .next (err s 0x23 0xDE0DDEC0 (le32 (s.inp.take 4)))) ∧
    (s.inp.take 4 = [0xC0, 0xDE, 0x0D, 0xDE] →
      (s.inp.length < 8 → exec .ctDeserialize s = .next (err s 0x33 8 s.inp.length)) ∧
      (8 ≤ s.inp.length → s.inp.length < 12 → exec .ctDeserialize s = .next (err s 0x43 12 s.inp.length)) ∧
      (12 ≤ s.inp.length →
        (s.inp.length < 12 + 5 * sc →
          exec .ctDeserialize s = .next (err s 0x53 (12 + 5 * sc) s.inp.length)) ∧
        (12 + 5 * sc ≤ s.inp.length → s.inp.length < 12 + 5 * sc + (bc + 7) / 8 →
          exec .ctDeserialize s = .next (err s 0x63 (12 + 5 * sc + (bc + 7) / 8) s.inp.length)) ∧
        (12 + 5 * sc + (bc + 7) / 8 ≤ s.inp.length → sc = 0 →
          exec .ctDeserialize s = .next (err s 0x73 1 0))))

/-- R199: after the six checks the first bad entry in stream order is reported, ZeroCount before DuplicateSymbol, with its
offset and symbol. -/
def Obligations.BadTableEntriesAreRefused : Prop :=
  ∀ (s : State) (es more : List (Byte × Nat)) (b : Byte) (cnt bc : Nat) (rest : List Byte),
    (es.map Prod.fst).Nodup → (∀ e ∈ es, 1 ≤ e.2 ∧ e.2 < 2 ^ 32) → cnt < 2 ^ 32 → bc < 2 ^ 32 →
    (es ++ (b, cnt) :: more).length < 2 ^ 32 → (bc + 7) / 8 ≤ rest.length →
    s.inp = headBytes (es ++ (b, cnt) :: more) bc ++ rest →
    (cnt = 0 → exec .ctDeserialize s = .next (err s 0x83 (12 + 5 * es.length) b.toNat)) ∧
    (cnt ≠ 0 → b ∈ es.map Prod.fst → exec .ctDeserialize s = .next (err s 0x93 (12 + 5 * es.length) b.toNat))

/-- R195, R200 to R202: a container, its entries in any order, its padding bits and any trailing bytes of any value, gives FREQ
exactly its entries and PB exactly its bits; bits too many for PB are CapacityExceeded. -/
def Obligations.CtDeserializeReadsTheContainer : Prop :=
  ∀ (s : State) (es : List (Byte × Nat)) (bits : List Bool), IsContainer s.inp es bits →
    (bits.length ≤ s.cfg.capPb →
      ∃ t, exec .ctDeserialize s = .next t ∧ t = ok { s with freq := t.freq, pb := ⟨bits, bits.length⟩ } ∧
        HoldsTable t.freq es) ∧
    (s.cfg.capPb < bits.length → exec .ctDeserialize s = .next (err s 0x16 s.cfg.capPb bits.length))

/-- R205: what CT_SERIALIZE wrote, loaded into IN, deserializes to the same 256 counts and the same payload bits. -/
def Obligations.DeserializeInvertsSerialize : Prop :=
  ∀ s t u : State, BlockInv s → exec .ctSerialize s = .next t → t.status = 0 →
    u.cfg = s.cfg → u.inp = t.out →
    ∃ v, exec .ctDeserialize u = .next v ∧ v.status = 0 ∧ v.freq = s.freq ∧
      v.pb = ⟨s.pb.bits, s.pb.bits.length⟩

/-- R204: a container cut short is a FormatError, by where it is cut, and never a partial table or buffer. -/
def Obligations.TruncatedContainersAreRejected : Prop :=
  ∀ (s : State) (es : List (Byte × Nat)) (bits : List Bool) (pay : List Byte) (n : Nat),
    TableEntries es → bits.length < 2 ^ 32 → pay.length = (bits.length + 7) / 8 → Holds pay bits →
    n < (headBytes es bits.length ++ pay).length → s.inp = (headBytes es bits.length ++ pay).take n →
    (n < 4 → exec .ctDeserialize s = .next (err s 0x13 4 n)) ∧
    (4 ≤ n → n < 8 → exec .ctDeserialize s = .next (err s 0x33 8 n)) ∧
    (8 ≤ n → n < 12 → exec .ctDeserialize s = .next (err s 0x43 12 n)) ∧
    (12 ≤ n → n < 12 + 5 * es.length → exec .ctDeserialize s = .next (err s 0x53 (12 + 5 * es.length) n)) ∧
    (12 + 5 * es.length ≤ n →
      exec .ctDeserialize s = .next (err s 0x63 (12 + 5 * es.length + (bits.length + 7) / 8) n))

/-! ## The composites -/

/-- R211, R216: a composite is its stages issued as commands, up to the first that fails, after which OUT is empty. -/
def Obligations.CompositesAreTheirStages : Prop :=
  ∀ s : State,
    (∃ u, runUntilError [.ftCount, .htBuild, .htInferMap, .encEncode, .ctSerialize] s = some u ∧
      exec .compress s = .next (if u.status = 0 then u else { u with out := [] })) ∧
    (∃ u, runUntilError [.ctDeserialize, .htBuild, .decDecode] s = some u ∧
      exec .decompress s = .next (if u.status = 0 then u else { u with out := [] }))

/-- R212: COMPRESS on empty input raises EmptyAlphabet with FREQ all zero and OUT empty, and TREE and the map as before. -/
def Obligations.CompressOfNothingIsEmptyAlphabet : Prop :=
  ∀ s : State, s.inp = [] →
    ∃ t, exec .compress s = .next t ∧ t = err { s with freq := t.freq, out := [] } 0x01 1 0 ∧ ∀ b, tget t.freq b = 0

/-- R212, R213: COMPRESS of a non-empty IN whose codewords fit PB and whose container fits OUT writes the container of IN's
counts and codewords, its padding bits 0, with the by-products of its stages. -/
def Obligations.CompressWritesTheContainer : Prop :=
  ∀ s : State, BlockInv s → s.inp ≠ [] → (payload s.inp).length ≤ s.cfg.capPb →
    12 + 5 * (countEntries s.inp).length + ((payload s.inp).length + 7) / 8 ≤ s.cfg.capOut →
    ∃ t pay, exec .compress s = .next t ∧
      t = ok { s with freq := t.freq, tree := t.tree, treeInfo := t.treeInfo, cw := t.cw, cwValid := t.cwValid, path := t.path, pb := ⟨payload s.inp, (payload s.inp).length⟩, out := t.out } ∧
      t.out = headBytes (countEntries s.inp) (payload s.inp).length ++ pay ∧
      pay.length = ((payload s.inp).length + 7) / 8 ∧ Holds pay (payload s.inp) ∧
      (∀ i, (payload s.inp).length ≤ i → i < 8 * pay.length → (pay.getD (i / 8) 0).getLsbD (i % 8) = false) ∧
      (∀ b, (tget t.freq b).toNat = s.inp.count b) ∧ buildTree t.freq = some t.tree ∧
      (∀ b ∈ s.inp, tget t.cwValid b = true ∧ (tget t.cw b).bits = codeword t.tree b) ∧
      (payload s.inp).length = ((countEntries s.inp).map fun e => e.2 * (codeword t.tree e.1).length).sum

/-- R213: COMPRESS depends on nothing but IN and the capacities: two states that agree on these give the same outcome and the
same OUT, and it makes no free draw. -/
def Obligations.CompressDependsOnlyOnIn : Prop :=
  ∀ s s' : State, s.cfg = s'.cfg → s.inp = s'.inp →
    ∃ t t', exec .compress s = .next t ∧ exec .compress s' = .next t' ∧ t.out = t'.out ∧ t.status = t'.status ∧
      t.errExp = t'.errExp ∧ t.errAct = t'.errAct ∧ t.draws = s.draws ∧ t'.draws = s'.draws

/-- R214: DECOMPRESS of a container whose bits decode under its own table's tree writes the decoded bytes, with the by-products
of its stages and the map left empty. -/
def Obligations.DecompressWritesTheDecodedBytes : Prop :=
  ∀ (s : State) (es : List (Byte × Nat)) (bits : List Bool) (bs : List Byte) (f : Table Word) (tree : TreeState),
    IsContainer s.inp es bits → HoldsTable f es → buildTree f = some tree → DecodesTo tree bits bs →
    bits.length ≤ s.cfg.capPb → bs.length ≤ s.cfg.capOut →
    ∃ t, exec .decompress s = .next t ∧
      t = ok { s with freq := f, pb := ⟨bits, bits.length⟩, tree := tree, treeInfo := tree.info, cw := t.cw, cwValid := t.cwValid, out := bs, cur := BitVec.ofNat 32 bits.length } ∧
      (∀ b, tget t.cwValid b = false) ∧ ∀ b, tget t.cw b = ⟨[], 0⟩

/-- R215 (a): for every non-empty IN, what COMPRESS wrote, loaded into IN, DECOMPRESSes to IN, provided it fits OUT. -/
def Obligations.DecompressInvertsCompress : Prop :=
  ∀ s t : State, BlockInv s → s.inp ≠ [] → exec .compress s = .next t → t.status = 0 → s.inp.length ≤ s.cfg.capOut →
    ∃ v, exec .decompress { t with inp := t.out } = .next v ∧ v.status = 0 ∧ v.out = s.inp

/-! ## Whole-machine rules -/

/-- R229: a well-formed command ends `Ok` or in one of the kinds listed for its body. -/
def Obligations.CommandsRaiseOnlyTheirKinds : Prop :=
  ∀ (i : Instr) (s : State), i.WellFormed → BlockInv s →
    ∃ t, exec i s = .next t ∧ (t.status = 0 ∨ ∃ v ∈ bodyErrors i, t.status = BitVec.ofNat 32 v)

/-- R226, R227: a primitive command that ends in an error writes the three error registers and nothing else, but that a command
that writes OUT empties it. -/
def Obligations.FailedPrimitivesCommitNothing : Prop :=
  ∀ (i : Instr) (s t : State), Primitive i → exec i s = .next t → t.status ≠ 0 →
    t = { s with status := t.status, errExp := t.errExp, errAct := t.errAct, out := if writesOut i then [] else s.out }

/-- R21 to R24, R26, R36, R60: which commands may write which state. No command writes ARG or IN. -/
def Obligations.CommandsWriteOnlyTheirState : Prop :=
  ∀ (i : Instr) (s t : State), exec i s = .next t →
    t.arg = s.arg ∧ t.inp = s.inp ∧ t.cfg = s.cfg ∧ t.host = s.host ∧
    ((∀ sel, i ≠ .bbReadBit sel ∧ i ≠ .bbLen sel ∧ i ≠ .bbBytecount sel) → i ≠ .htDecodeOne → t.res = s.res) ∧
    (i ≠ .htDecodeOne → i ≠ .decDecode → i ≠ .decompress → t.cur = s.cur) ∧
    (writesOut i = false → t.out = s.out) ∧
    (i ≠ .htBuild → i ≠ .compress → i ≠ .decompress → t.tree = s.tree ∧ t.treeInfo = s.treeInfo) ∧
    (i ≠ .ftCount → i ≠ .ctDeserialize → i ≠ .compress → i ≠ .decompress → t.freq = s.freq) ∧
    (i ≠ .htBuild → i ≠ .htInferMap → i ≠ .compress → i ≠ .decompress → t.cw = s.cw ∧ t.cwValid = s.cwValid) ∧
    ((∀ bit src, i ≠ .bbInit .pb ∧ i ≠ .bbAppendBit .pb bit ∧ i ≠ .bbAppendFrom .pb src ∧ i ≠ .bbRemoveLast .pb ∧
        i ≠ .bbClear .pb) → i ≠ .encEncode → i ≠ .ctDeserialize → i ≠ .compress → i ≠ .decompress → t.pb = s.pb) ∧
    ((∀ bit src, i ≠ .bbInit .path ∧ i ≠ .bbAppendBit .path bit ∧ i ≠ .bbAppendFrom .path src ∧ i ≠ .bbRemoveLast .path ∧
        i ≠ .bbClear .path) → i ≠ .htInferMap → i ≠ .compress → t.path = s.path)

/-- R12, R68, R270: while the HOST keeps its duty every step goes on and the HOST's remaining operations keep it. -/
def Obligations.StepsGoOnWhileTheHostKeepsItsDuty : Prop :=
  ∀ s : State, HostDuty s → ∃ t, step s = .next t ∧ HostDuty t ∧ t.host = s.host.tail ∧ t.cfg = s.cfg

/-- Every step keeps the invariants of 00_scope.md R6 and 10_state.md R23, R28 to R31, R33, R36, R38. -/
def Obligations.StepKeepsTheInvariants : Prop :=
  ∀ s t : State, BlockInv s → step s = .next t → BlockInv t

/-- The invariants hold after reset, for the defaults and for any parameters in range. -/
def Obligations.ResetMeetsTheInvariants : Prop :=
  BlockInv State.reset ∧ ∀ c : Config, c.wf → BlockInv (State.resetWith c)

/-- R252: the outcome of each command as the first after reset. -/
def Obligations.FirstCommandAfterReset : Prop :=
  exec .nop State.reset = .next State.reset ∧
  (∀ dst, exec (.bbInit dst) State.reset = .next State.reset ∧ exec (.bbClear dst) State.reset = .next State.reset) ∧
  (∀ dst bit, ∃ t, exec (.bbAppendBit dst bit) State.reset = .next t ∧ t.status = 0) ∧
  (∀ dst src, dst.sel ≠ src → exec (.bbAppendFrom dst src) State.reset = .next State.reset) ∧
  (∀ sel, exec (.bbLen sel) State.reset = .next State.reset ∧ exec (.bbBytecount sel) State.reset = .next State.reset) ∧
  (∀ sel, exec (.bbReadBit sel) State.reset = .next (err State.reset 0x12 0 0)) ∧
  (∀ dst, exec (.bbRemoveLast dst) State.reset = .next (err State.reset 0x22 1 0)) ∧
  (∀ sel, ∃ t, exec (.bbToBytes sel) State.reset = .next t ∧ t.status = 0 ∧ t.out = []) ∧
  (∃ t, exec .ftCount State.reset = .next t ∧ t.status = 0 ∧ ∀ b, tget t.freq b = 0) ∧
  exec .htBuild State.reset = .next (err State.reset 0x01 1 0) ∧
  (∃ t, exec .compress State.reset = .next t ∧ t.status = 0x01 ∧ t.errExp = 1 ∧ t.errAct = 0) ∧
  exec .ctSerialize State.reset = .next (err State.reset 0x01 1 0) ∧
  exec .htInferMap State.reset = .next (err State.reset 0x57 0 0x31) ∧
  exec .htDecodeOne State.reset = .next (err State.reset 0x57 0 0x32) ∧
  exec .decDecode State.reset = .next (err State.reset 0x57 0 0x41) ∧
  (∃ t, exec .encEncode State.reset = .next t ∧ t.status = 0 ∧ t.pb = ⟨[], 0⟩) ∧
  exec .ctDeserialize State.reset = .next (err State.reset 0x13 4 0) ∧
  exec .decompress State.reset = .next (err State.reset 0x13 4 0)
end

