-- ==== Sys2Proof/Laws/State.lean ====
section
/-! SUPPORT. One lemma for each field of State under each named update of it, so that no proof unfolds a record update. -/

namespace Sys2Proof.Machine

/-! ## takeError -/

@[simp] theorem State.takeError_cfg (s : State) (e : Err) : (s.takeError e).cfg = s.cfg := rfl
@[simp] theorem State.takeError_arg (s : State) (e : Err) : (s.takeError e).arg = s.arg := rfl
@[simp] theorem State.takeError_res (s : State) (e : Err) : (s.takeError e).res = s.res := rfl
@[simp] theorem State.takeError_cur (s : State) (e : Err) : (s.takeError e).cur = s.cur := rfl
@[simp] theorem State.takeError_status (s : State) (e : Err) : (s.takeError e).status = e.status := rfl
@[simp] theorem State.takeError_errExp (s : State) (e : Err) : (s.takeError e).errExp = BitVec.ofNat 64 e.exp := rfl
@[simp] theorem State.takeError_errAct (s : State) (e : Err) : (s.takeError e).errAct = BitVec.ofNat 64 e.act := rfl
@[simp] theorem State.takeError_treeInfo (s : State) (e : Err) : (s.takeError e).treeInfo = s.treeInfo := rfl
@[simp] theorem State.takeError_freq (s : State) (e : Err) : (s.takeError e).freq = s.freq := rfl
@[simp] theorem State.takeError_tree (s : State) (e : Err) : (s.takeError e).tree = s.tree := rfl
@[simp] theorem State.takeError_cw (s : State) (e : Err) : (s.takeError e).cw = s.cw := rfl
@[simp] theorem State.takeError_cwValid (s : State) (e : Err) : (s.takeError e).cwValid = s.cwValid := rfl
@[simp] theorem State.takeError_pb (s : State) (e : Err) : (s.takeError e).pb = s.pb := rfl
@[simp] theorem State.takeError_path (s : State) (e : Err) : (s.takeError e).path = s.path := rfl
@[simp] theorem State.takeError_inp (s : State) (e : Err) : (s.takeError e).inp = s.inp := rfl
@[simp] theorem State.takeError_out (s : State) (e : Err) : (s.takeError e).out = s.out := rfl
@[simp] theorem State.takeError_draws (s : State) (e : Err) : (s.takeError e).draws = s.draws := rfl
@[simp] theorem State.takeError_host (s : State) (e : Err) : (s.takeError e).host = s.host := rfl

/-! ## endOk -/

@[simp] theorem State.endOk_cfg (s : State) : (s.endOk).cfg = s.cfg := rfl
@[simp] theorem State.endOk_arg (s : State) : (s.endOk).arg = s.arg := rfl
@[simp] theorem State.endOk_res (s : State) : (s.endOk).res = s.res := rfl
@[simp] theorem State.endOk_cur (s : State) : (s.endOk).cur = s.cur := rfl
@[simp] theorem State.endOk_status (s : State) : (s.endOk).status = 0 := rfl
@[simp] theorem State.endOk_errExp (s : State) : (s.endOk).errExp = 0 := rfl
@[simp] theorem State.endOk_errAct (s : State) : (s.endOk).errAct = 0 := rfl
@[simp] theorem State.endOk_treeInfo (s : State) : (s.endOk).treeInfo = s.treeInfo := rfl
@[simp] theorem State.endOk_freq (s : State) : (s.endOk).freq = s.freq := rfl
@[simp] theorem State.endOk_tree (s : State) : (s.endOk).tree = s.tree := rfl
@[simp] theorem State.endOk_cw (s : State) : (s.endOk).cw = s.cw := rfl
@[simp] theorem State.endOk_cwValid (s : State) : (s.endOk).cwValid = s.cwValid := rfl
@[simp] theorem State.endOk_pb (s : State) : (s.endOk).pb = s.pb := rfl
@[simp] theorem State.endOk_path (s : State) : (s.endOk).path = s.path := rfl
@[simp] theorem State.endOk_inp (s : State) : (s.endOk).inp = s.inp := rfl
@[simp] theorem State.endOk_out (s : State) : (s.endOk).out = s.out := rfl
@[simp] theorem State.endOk_draws (s : State) : (s.endOk).draws = s.draws := rfl
@[simp] theorem State.endOk_host (s : State) : (s.endOk).host = s.host := rfl

/-! ## emptyOut -/

@[simp] theorem State.emptyOut_cfg (s : State) : (s.emptyOut).cfg = s.cfg := rfl
@[simp] theorem State.emptyOut_arg (s : State) : (s.emptyOut).arg = s.arg := rfl
@[simp] theorem State.emptyOut_res (s : State) : (s.emptyOut).res = s.res := rfl
@[simp] theorem State.emptyOut_cur (s : State) : (s.emptyOut).cur = s.cur := rfl
@[simp] theorem State.emptyOut_status (s : State) : (s.emptyOut).status = s.status := rfl
@[simp] theorem State.emptyOut_errExp (s : State) : (s.emptyOut).errExp = s.errExp := rfl
@[simp] theorem State.emptyOut_errAct (s : State) : (s.emptyOut).errAct = s.errAct := rfl
@[simp] theorem State.emptyOut_treeInfo (s : State) : (s.emptyOut).treeInfo = s.treeInfo := rfl
@[simp] theorem State.emptyOut_freq (s : State) : (s.emptyOut).freq = s.freq := rfl
@[simp] theorem State.emptyOut_tree (s : State) : (s.emptyOut).tree = s.tree := rfl
@[simp] theorem State.emptyOut_cw (s : State) : (s.emptyOut).cw = s.cw := rfl
@[simp] theorem State.emptyOut_cwValid (s : State) : (s.emptyOut).cwValid = s.cwValid := rfl
@[simp] theorem State.emptyOut_pb (s : State) : (s.emptyOut).pb = s.pb := rfl
@[simp] theorem State.emptyOut_path (s : State) : (s.emptyOut).path = s.path := rfl
@[simp] theorem State.emptyOut_inp (s : State) : (s.emptyOut).inp = s.inp := rfl
@[simp] theorem State.emptyOut_out (s : State) : (s.emptyOut).out = [] := rfl
@[simp] theorem State.emptyOut_draws (s : State) : (s.emptyOut).draws = s.draws := rfl
@[simp] theorem State.emptyOut_host (s : State) : (s.emptyOut).host = s.host := rfl

/-! ## clearMap -/

@[simp] theorem State.clearMap_cfg (s : State) : (s.clearMap).cfg = s.cfg := rfl
@[simp] theorem State.clearMap_arg (s : State) : (s.clearMap).arg = s.arg := rfl
@[simp] theorem State.clearMap_res (s : State) : (s.clearMap).res = s.res := rfl
@[simp] theorem State.clearMap_cur (s : State) : (s.clearMap).cur = s.cur := rfl
@[simp] theorem State.clearMap_status (s : State) : (s.clearMap).status = s.status := rfl
@[simp] theorem State.clearMap_errExp (s : State) : (s.clearMap).errExp = s.errExp := rfl
@[simp] theorem State.clearMap_errAct (s : State) : (s.clearMap).errAct = s.errAct := rfl
@[simp] theorem State.clearMap_treeInfo (s : State) : (s.clearMap).treeInfo = s.treeInfo := rfl
@[simp] theorem State.clearMap_freq (s : State) : (s.clearMap).freq = s.freq := rfl
@[simp] theorem State.clearMap_tree (s : State) : (s.clearMap).tree = s.tree := rfl
@[simp] theorem State.clearMap_cw (s : State) : (s.clearMap).cw = tabulate fun _ => BitBuf.created := rfl
@[simp] theorem State.clearMap_cwValid (s : State) : (s.clearMap).cwValid = tabulate fun _ => false := rfl
@[simp] theorem State.clearMap_pb (s : State) : (s.clearMap).pb = s.pb := rfl
@[simp] theorem State.clearMap_path (s : State) : (s.clearMap).path = s.path := rfl
@[simp] theorem State.clearMap_inp (s : State) : (s.clearMap).inp = s.inp := rfl
@[simp] theorem State.clearMap_out (s : State) : (s.clearMap).out = s.out := rfl
@[simp] theorem State.clearMap_draws (s : State) : (s.clearMap).draws = s.draws := rfl
@[simp] theorem State.clearMap_host (s : State) : (s.clearMap).host = s.host := rfl

/-! ## setRes -/

@[simp] theorem State.setRes_cfg (s : State) (n : Nat) : (s.setRes n).cfg = s.cfg := rfl
@[simp] theorem State.setRes_arg (s : State) (n : Nat) : (s.setRes n).arg = s.arg := rfl
@[simp] theorem State.setRes_res (s : State) (n : Nat) : (s.setRes n).res = BitVec.ofNat 32 n := rfl
@[simp] theorem State.setRes_cur (s : State) (n : Nat) : (s.setRes n).cur = s.cur := rfl
@[simp] theorem State.setRes_status (s : State) (n : Nat) : (s.setRes n).status = s.status := rfl
@[simp] theorem State.setRes_errExp (s : State) (n : Nat) : (s.setRes n).errExp = s.errExp := rfl
@[simp] theorem State.setRes_errAct (s : State) (n : Nat) : (s.setRes n).errAct = s.errAct := rfl
@[simp] theorem State.setRes_treeInfo (s : State) (n : Nat) : (s.setRes n).treeInfo = s.treeInfo := rfl
@[simp] theorem State.setRes_freq (s : State) (n : Nat) : (s.setRes n).freq = s.freq := rfl
@[simp] theorem State.setRes_tree (s : State) (n : Nat) : (s.setRes n).tree = s.tree := rfl
@[simp] theorem State.setRes_cw (s : State) (n : Nat) : (s.setRes n).cw = s.cw := rfl
@[simp] theorem State.setRes_cwValid (s : State) (n : Nat) : (s.setRes n).cwValid = s.cwValid := rfl
@[simp] theorem State.setRes_pb (s : State) (n : Nat) : (s.setRes n).pb = s.pb := rfl
@[simp] theorem State.setRes_path (s : State) (n : Nat) : (s.setRes n).path = s.path := rfl
@[simp] theorem State.setRes_inp (s : State) (n : Nat) : (s.setRes n).inp = s.inp := rfl
@[simp] theorem State.setRes_out (s : State) (n : Nat) : (s.setRes n).out = s.out := rfl
@[simp] theorem State.setRes_draws (s : State) (n : Nat) : (s.setRes n).draws = s.draws := rfl
@[simp] theorem State.setRes_host (s : State) (n : Nat) : (s.setRes n).host = s.host := rfl

/-! ## assign -/

@[simp] theorem State.assign_cfg (s : State) (sym : Byte) (bits : List Bool) : (s.assign sym bits).cfg = s.cfg := rfl
@[simp] theorem State.assign_arg (s : State) (sym : Byte) (bits : List Bool) : (s.assign sym bits).arg = s.arg := rfl
@[simp] theorem State.assign_res (s : State) (sym : Byte) (bits : List Bool) : (s.assign sym bits).res = s.res := rfl
@[simp] theorem State.assign_cur (s : State) (sym : Byte) (bits : List Bool) : (s.assign sym bits).cur = s.cur := rfl
@[simp] theorem State.assign_status (s : State) (sym : Byte) (bits : List Bool) : (s.assign sym bits).status = s.status := rfl
@[simp] theorem State.assign_errExp (s : State) (sym : Byte) (bits : List Bool) : (s.assign sym bits).errExp = s.errExp := rfl
@[simp] theorem State.assign_errAct (s : State) (sym : Byte) (bits : List Bool) : (s.assign sym bits).errAct = s.errAct := rfl
@[simp] theorem State.assign_treeInfo (s : State) (sym : Byte) (bits : List Bool) : (s.assign sym bits).treeInfo = s.treeInfo := rfl
@[simp] theorem State.assign_freq (s : State) (sym : Byte) (bits : List Bool) : (s.assign sym bits).freq = s.freq := rfl
@[simp] theorem State.assign_tree (s : State) (sym : Byte) (bits : List Bool) : (s.assign sym bits).tree = s.tree := rfl
@[simp] theorem State.assign_cw (s : State) (sym : Byte) (bits : List Bool) : (s.assign sym bits).cw = tset s.cw sym (BitBuf.fresh bits) := rfl
@[simp] theorem State.assign_cwValid (s : State) (sym : Byte) (bits : List Bool) : (s.assign sym bits).cwValid = tset s.cwValid sym true := rfl
@[simp] theorem State.assign_pb (s : State) (sym : Byte) (bits : List Bool) : (s.assign sym bits).pb = s.pb := rfl
@[simp] theorem State.assign_path (s : State) (sym : Byte) (bits : List Bool) : (s.assign sym bits).path = s.path := rfl
@[simp] theorem State.assign_inp (s : State) (sym : Byte) (bits : List Bool) : (s.assign sym bits).inp = s.inp := rfl
@[simp] theorem State.assign_out (s : State) (sym : Byte) (bits : List Bool) : (s.assign sym bits).out = s.out := rfl
@[simp] theorem State.assign_draws (s : State) (sym : Byte) (bits : List Bool) : (s.assign sym bits).draws = s.draws := rfl
@[simp] theorem State.assign_host (s : State) (sym : Byte) (bits : List Bool) : (s.assign sym bits).host = s.host := rfl

/-! ## beginInfer -/

@[simp] theorem State.beginInfer_cfg (s : State) : (s.beginInfer).cfg = s.cfg := rfl
@[simp] theorem State.beginInfer_arg (s : State) : (s.beginInfer).arg = s.arg := rfl
@[simp] theorem State.beginInfer_res (s : State) : (s.beginInfer).res = s.res := rfl
@[simp] theorem State.beginInfer_cur (s : State) : (s.beginInfer).cur = s.cur := rfl
@[simp] theorem State.beginInfer_status (s : State) : (s.beginInfer).status = s.status := rfl
@[simp] theorem State.beginInfer_errExp (s : State) : (s.beginInfer).errExp = s.errExp := rfl
@[simp] theorem State.beginInfer_errAct (s : State) : (s.beginInfer).errAct = s.errAct := rfl
@[simp] theorem State.beginInfer_treeInfo (s : State) : (s.beginInfer).treeInfo = s.treeInfo := rfl
@[simp] theorem State.beginInfer_freq (s : State) : (s.beginInfer).freq = s.freq := rfl
@[simp] theorem State.beginInfer_tree (s : State) : (s.beginInfer).tree = s.tree := rfl
@[simp] theorem State.beginInfer_cw (s : State) : (s.beginInfer).cw = tabulate fun _ => BitBuf.created := rfl
@[simp] theorem State.beginInfer_cwValid (s : State) : (s.beginInfer).cwValid = tabulate fun _ => false := rfl
@[simp] theorem State.beginInfer_pb (s : State) : (s.beginInfer).pb = s.pb := rfl
@[simp] theorem State.beginInfer_path (s : State) : (s.beginInfer).path = BitBuf.created := rfl
@[simp] theorem State.beginInfer_inp (s : State) : (s.beginInfer).inp = s.inp := rfl
@[simp] theorem State.beginInfer_out (s : State) : (s.beginInfer).out = s.out := rfl
@[simp] theorem State.beginInfer_draws (s : State) : (s.beginInfer).draws = s.draws := rfl
@[simp] theorem State.beginInfer_host (s : State) : (s.beginInfer).host = s.host := rfl

/-! ## afterReset -/

@[simp] theorem State.afterReset_cfg (s : State) : (s.afterReset).cfg = s.cfg := rfl
@[simp] theorem State.afterReset_arg (s : State) : (s.afterReset).arg = (State.resetWith s.cfg).arg := rfl
@[simp] theorem State.afterReset_res (s : State) : (s.afterReset).res = (State.resetWith s.cfg).res := rfl
@[simp] theorem State.afterReset_cur (s : State) : (s.afterReset).cur = (State.resetWith s.cfg).cur := rfl
@[simp] theorem State.afterReset_status (s : State) : (s.afterReset).status = (State.resetWith s.cfg).status := rfl
@[simp] theorem State.afterReset_errExp (s : State) : (s.afterReset).errExp = (State.resetWith s.cfg).errExp := rfl
@[simp] theorem State.afterReset_errAct (s : State) : (s.afterReset).errAct = (State.resetWith s.cfg).errAct := rfl
@[simp] theorem State.afterReset_treeInfo (s : State) : (s.afterReset).treeInfo = (State.resetWith s.cfg).treeInfo := rfl
@[simp] theorem State.afterReset_freq (s : State) : (s.afterReset).freq = (State.resetWith s.cfg).freq := rfl
@[simp] theorem State.afterReset_tree (s : State) : (s.afterReset).tree = (State.resetWith s.cfg).tree := rfl
@[simp] theorem State.afterReset_cw (s : State) : (s.afterReset).cw = (State.resetWith s.cfg).cw := rfl
@[simp] theorem State.afterReset_cwValid (s : State) : (s.afterReset).cwValid = (State.resetWith s.cfg).cwValid := rfl
@[simp] theorem State.afterReset_pb (s : State) : (s.afterReset).pb = (State.resetWith s.cfg).pb := rfl
@[simp] theorem State.afterReset_path (s : State) : (s.afterReset).path = (State.resetWith s.cfg).path := rfl
@[simp] theorem State.afterReset_inp (s : State) : (s.afterReset).inp = (State.resetWith s.cfg).inp := rfl
@[simp] theorem State.afterReset_out (s : State) : (s.afterReset).out = (State.resetWith s.cfg).out := rfl
@[simp] theorem State.afterReset_draws (s : State) : (s.afterReset).draws = s.draws := rfl
@[simp] theorem State.afterReset_host (s : State) : (s.afterReset).host = s.host := rfl

/-! ## setBuf -/

@[simp] theorem State.setBuf_cfg (s : State) (dst : Dst) (b : BitBuf) : (s.setBuf dst b).cfg = s.cfg := by cases dst <;> rfl
@[simp] theorem State.setBuf_arg (s : State) (dst : Dst) (b : BitBuf) : (s.setBuf dst b).arg = s.arg := by cases dst <;> rfl
@[simp] theorem State.setBuf_res (s : State) (dst : Dst) (b : BitBuf) : (s.setBuf dst b).res = s.res := by cases dst <;> rfl
@[simp] theorem State.setBuf_cur (s : State) (dst : Dst) (b : BitBuf) : (s.setBuf dst b).cur = s.cur := by cases dst <;> rfl
@[simp] theorem State.setBuf_status (s : State) (dst : Dst) (b : BitBuf) : (s.setBuf dst b).status = s.status := by cases dst <;> rfl
@[simp] theorem State.setBuf_errExp (s : State) (dst : Dst) (b : BitBuf) : (s.setBuf dst b).errExp = s.errExp := by cases dst <;> rfl
@[simp] theorem State.setBuf_errAct (s : State) (dst : Dst) (b : BitBuf) : (s.setBuf dst b).errAct = s.errAct := by cases dst <;> rfl
@[simp] theorem State.setBuf_treeInfo (s : State) (dst : Dst) (b : BitBuf) : (s.setBuf dst b).treeInfo = s.treeInfo := by cases dst <;> rfl
@[simp] theorem State.setBuf_freq (s : State) (dst : Dst) (b : BitBuf) : (s.setBuf dst b).freq = s.freq := by cases dst <;> rfl
@[simp] theorem State.setBuf_tree (s : State) (dst : Dst) (b : BitBuf) : (s.setBuf dst b).tree = s.tree := by cases dst <;> rfl
@[simp] theorem State.setBuf_cw (s : State) (dst : Dst) (b : BitBuf) : (s.setBuf dst b).cw = s.cw := by cases dst <;> rfl
@[simp] theorem State.setBuf_cwValid (s : State) (dst : Dst) (b : BitBuf) : (s.setBuf dst b).cwValid = s.cwValid := by cases dst <;> rfl
@[simp] theorem State.setBuf_pb_pb (s : State) (b : BitBuf) : (s.setBuf .pb b).pb = b := rfl
@[simp] theorem State.setBuf_path_pb (s : State) (b : BitBuf) : (s.setBuf .path b).pb = s.pb := rfl
@[simp] theorem State.setBuf_path_path (s : State) (b : BitBuf) : (s.setBuf .path b).path = b := rfl
@[simp] theorem State.setBuf_pb_path (s : State) (b : BitBuf) : (s.setBuf .pb b).path = s.path := rfl
@[simp] theorem State.setBuf_inp (s : State) (dst : Dst) (b : BitBuf) : (s.setBuf dst b).inp = s.inp := by cases dst <;> rfl
@[simp] theorem State.setBuf_out (s : State) (dst : Dst) (b : BitBuf) : (s.setBuf dst b).out = s.out := by cases dst <;> rfl
@[simp] theorem State.setBuf_draws (s : State) (dst : Dst) (b : BitBuf) : (s.setBuf dst b).draws = s.draws := by cases dst <;> rfl
@[simp] theorem State.setBuf_host (s : State) (dst : Dst) (b : BitBuf) : (s.setBuf dst b).host = s.host := by cases dst <;> rfl

/-- A writable buffer just written reads back. -/
@[simp] theorem State.buf_setBuf (s : State) (dst : Dst) (b : BitBuf) : (s.setBuf dst b).buf dst.sel = b := by
  cases dst <;> rfl

/-- A write of a writable buffer leaves every other buffer alone. -/
theorem State.buf_setBuf_of_ne (s : State) (dst : Dst) (b : BitBuf) (sel : Sel) (h : dst.sel ≠ sel) :
    (s.setBuf dst b).buf sel = s.buf sel := by
  cases dst <;> cases sel <;> first | rfl | exact absurd rfl h

/-- The capacities are no field a command writes. -/
@[simp] theorem State.dstCap_setBuf (s : State) (d dst : Dst) (b : BitBuf) : (s.setBuf dst b).dstCap d = s.dstCap d := by
  cases dst <;> cases d <;> rfl

@[simp] theorem State.buf_endOk (s : State) (sel : Sel) : s.endOk.buf sel = s.buf sel := by cases sel <;> rfl
@[simp] theorem State.buf_takeError (s : State) (e : Err) (sel : Sel) : (s.takeError e).buf sel = s.buf sel := by
  cases sel <;> rfl
@[simp] theorem State.dstCap_endOk (s : State) (dst : Dst) : s.endOk.dstCap dst = s.dstCap dst := by cases dst <;> rfl
@[simp] theorem State.dstCap_takeError (s : State) (e : Err) (dst : Dst) : (s.takeError e).dstCap dst = s.dstCap dst := by
  cases dst <;> rfl
@[simp] theorem State.endOk_endOk (s : State) : s.endOk.endOk = s.endOk := rfl
@[simp] theorem State.setBuf_setBuf (s : State) (dst : Dst) (a b : BitBuf) : (s.setBuf dst a).setBuf dst b = s.setBuf dst b := by
  cases dst <;> rfl
theorem State.setBuf_endOk (s : State) (dst : Dst) (b : BitBuf) : s.endOk.setBuf dst b = (s.setBuf dst b).endOk := by
  cases dst <;> rfl

end Sys2Proof.Machine
end

