-- ==== Sys2Proof/Laws/Ops.lean ====
section
/-! SUPPORT. What each shared operation of Machine/Ops.lean and Machine/Operands.lean does, said once. -/

namespace Sys2Proof.Machine

/-! ## Register files -/

@[simp] theorem tget_tabulate {α : Type} (f : Byte → α) (b : Byte) : tget (tabulate f) b = f b := by
  simp [tabulate, tget]

theorem tget_tset {α : Type} (t : Table α) (a b : Byte) (x : α) : tget (tset t a x) b = if a = b then x else tget t b := by
  simp [tset, tget, Vector.getElem_set, BitVec.toNat_eq]

@[simp] theorem tget_tset_self {α : Type} (t : Table α) (a : Byte) (x : α) : tget (tset t a x) a = x := by
  simp [tget_tset]

theorem tget_tset_of_ne {α : Type} (t : Table α) {a b : Byte} (x : α) (h : a ≠ b) : tget (tset t a x) b = tget t b := by
  simp [tget_tset, h]

@[simp] theorem tget_replicate {α : Type} (x : α) (b : Byte) : tget (Vector.replicate 256 x) b = x := by
  simp [tget]

/-- Two register files with the same elements are the same data. -/
theorem table_ext {α : Type} {t u : Table α} (h : ∀ b, tget t b = tget u b) : t = u := by
  apply Vector.ext
  intro i hi
  have := h (BitVec.ofNat 8 i)
  simpa [tget, Nat.mod_eq_of_lt hi] using this

/-! ## Bytes and bits -/

/-- Bit `j` of a byte made from bits is bit `j` (20_memory.md rule R66). -/
theorem byteOfBits_getLsbD (f : Nat → Bool) (j : Nat) (h : j < 8) : (byteOfBits f).getLsbD j = f j := by
  have hb : ∀ k, (f k).toNat ≤ 1 := fun k => Bool.toNat_le (f k)
  have := hb 0; have := hb 1; have := hb 2; have := hb 3; have := hb 4; have := hb 5; have := hb 6; have := hb 7
  have hj : f j = decide ((f j).toNat = 1) := by cases f j <;> rfl
  rw [hj, byteOfBits, BitVec.getLsbD_ofNat, Nat.testBit_eq_decide_div_mod_eq]
  simp only [h, decide_true, Bool.true_and, decide_eq_decide]
  interval_cases j <;> omega

@[simp] theorem bytesLe32_length (v : Nat) : (bytesLe32 v).length = 4 := rfl

/-- `le32` inverts `bytes_le32` on 32-bit numbers (45_system_toplevel.md rule R219). -/
theorem le32_bytesLe32 {v : Nat} (h : v < 2 ^ 32) : le32 (bytesLe32 v) = v := by
  simp only [le32, bytesLe32, List.foldr, BitVec.toNat_ofNat]
  omega

theorem le32_append_lt {bytes : List Byte} (h : bytes.length ≤ 4) : le32 bytes < 2 ^ 32 := by
  match bytes, h with
  | [], _ => simp [le32]
  | [a], _ => simp only [le32, List.foldr]; omega
  | [a, b], _ => simp only [le32, List.foldr]; omega
  | [a, b, c], _ => simp only [le32, List.foldr]; omega
  | [a, b, c, d], _ => simp only [le32, List.foldr]; omega

theorem ceil8_eq (n : Nat) : ceil8 n = (n + 7) / 8 := rfl

/-! ## Streams -/

@[simp] theorem Memory.unpack_length (m : Memory) (a len : Nat) : (m.unpack a len).length = len := by
  simp [Memory.unpack]

theorem Memory.byte_eq_getD (m : Memory) (a : Nat) : m.byte a = m.getD a 0 := by
  simp [Memory.byte, Memory.read]

/-- Bit `i` of an unpacked payload (20_memory.md rule R66). -/
theorem Memory.unpack_getElem (m : Memory) (a len i : Nat) (h : i < (m.unpack a len).length) :
    (m.unpack a len)[i] = (m.byte (a + i / 8)).getLsbD (i % 8) := by
  simp [Memory.unpack]

/-! ## Bit buffers -/

theorem BitBuf.push_ok {cap : Nat} {b : BitBuf} (bit : Bool) (h : b.len ≠ cap) :
    b.push cap bit = .ok ⟨b.bits ++ [bit], max b.hwm (b.len + 1)⟩ := by
  simp [BitBuf.push, h]

theorem BitBuf.push_full {cap : Nat} {b : BitBuf} (bit : Bool) (h : b.len = cap) :
    b.push cap bit = .error (.capacityBitBuffer cap (b.len + 1)) := by
  simp [BitBuf.push, h]

theorem BitBuf.pop_ok {b : BitBuf} {bits : List Bool} {bit : Bool} (h : b.bits = bits ++ [bit]) :
    b.pop = .ok ⟨bits, b.hwm⟩ := by
  simp [BitBuf.pop, BitBuf.len, h]

theorem BitBuf.pop_empty {b : BitBuf} (h : b.bits = []) : b.pop = .error .indexUnderflow := by
  simp [BitBuf.pop, BitBuf.len, h]

/-- Pushing bits that fit appends them all (40_bitbuffer.md rule R114). -/
theorem BitBuf.pushAll_ok {cap : Nat} (bits : List Bool) : ∀ {b : BitBuf}, b.len ≤ b.hwm → b.len + bits.length ≤ cap →
    b.pushAll cap bits = .ok ⟨b.bits ++ bits, max b.hwm (b.len + bits.length)⟩ := by
  induction bits with
  | nil => intro b hw _; simp [BitBuf.pushAll, Nat.max_eq_left hw]
  | cons bit bits ih =>
    intro b hw hc
    simp only [List.length_cons] at hc
    have hne : b.len ≠ cap := by omega
    simp only [BitBuf.pushAll, BitBuf.push_ok bit hne]
    rw [ih]
    · simp [BitBuf.len]; omega
    · simp [BitBuf.len]
    · simp only [BitBuf.len, List.length_append, List.length_singleton] at *; omega

@[simp] theorem BitBuf.pack_length (b : BitBuf) (base : Nat) : (b.pack base).length = ceil8 b.len := by
  simp [BitBuf.pack]

/-- Bit `i` of the packed bytes is bit `i` as packing sees it (40_bitbuffer.md rule R120). -/
theorem BitBuf.pack_bit (b : BitBuf) (base i : Nat) (h : i < 8 * ceil8 b.len) :
    ((b.pack base).getD (i / 8) 0).getLsbD (i % 8) = b.packedBit base i := by
  have hk : i / 8 < ceil8 b.len := by omega
  have : (b.pack base).getD (i / 8) 0 = byteOfBits fun j => b.packedBit base (8 * (i / 8) + j) := by
    simp [BitBuf.pack, List.getD, hk]
  rw [this, byteOfBits_getLsbD _ _ (Nat.mod_lt _ (by decide)), Nat.div_add_mod]

/-- Below the length packing sees the buffer's own bit. -/
theorem BitBuf.packedBit_of_lt {b : BitBuf} (base : Nat) {i : Nat} (h : i < b.bits.length) :
    b.packedBit base i = b.bits[i] := by
  simp [BitBuf.packedBit, h]

/-- At and above the high-water mark packing sees 0 (10_state.md rule R31). -/
theorem BitBuf.packedBit_of_hwm_le {b : BitBuf} (base : Nat) {i : Nat} (hl : b.len ≤ i) (h : b.hwm ≤ i) :
    b.packedBit base i = false := by
  have : b.bits[i]? = none := by simpa [BitBuf.len] using hl
  simp [BitBuf.packedBit, this, Nat.not_lt.mpr h]

/-- A stale bit is the draw whose number no other observation uses (93_implementation_defined.md U1). -/
theorem BitBuf.packedBit_stale {b : BitBuf} (base : Nat) {i : Nat} (hl : b.len ≤ i) (h : i < b.hwm) :
    b.packedBit base i = Config.freeBit (base + (i - b.len)) := by
  have : b.bits[i]? = none := by simpa [BitBuf.len] using hl
  simp [BitBuf.packedBit, this, h]

@[simp] theorem BitBuf.fresh_bits (β : List Bool) : (BitBuf.fresh β).bits = β := rfl
@[simp] theorem BitBuf.fresh_hwm (β : List Bool) : (BitBuf.fresh β).hwm = β.length := rfl
@[simp] theorem BitBuf.fresh_len (β : List Bool) : (BitBuf.fresh β).len = β.length := rfl

/-- A buffer created whole packs without a draw. -/
@[simp] theorem BitBuf.fresh_packDraws (β : List Bool) : (BitBuf.fresh β).packDraws = 0 := by
  simp [BitBuf.packDraws]

/-- What a buffer created whole packs to does not depend on the draws (44_container.md rule R192). -/
theorem BitBuf.fresh_pack (β : List Bool) (m n : Nat) : (BitBuf.fresh β).pack m = (BitBuf.fresh β).pack n := by
  have : ∀ i, (BitBuf.fresh β).packedBit m i = (BitBuf.fresh β).packedBit n i := by
    intro i
    by_cases h : i < β.length
    · simp [BitBuf.packedBit, h]
    · simp [BitBuf.packedBit, h]
  simp [BitBuf.pack, this]

/-! ## How a command ends -/

theorem finish_ok {body : Body} {s t : State} (h : body s = .ok t) : finish body s = .next t.endOk := by
  simp [finish, h]

theorem finish_error {body : Body} {s : State} {e : Err} (h : body s = .error e) : finish body s = .next (s.takeError e) := by
  simp [finish, h]

theorem finishOut_ok {body : Body} {s t : State} (h : body s = .ok t) : finishOut body s = .next t.endOk := by
  simp [finishOut, h]

theorem finishOut_error {body : Body} {s : State} {e : Err} (h : body s = .error e) :
    finishOut body s = .next (s.emptyOut.takeError e) := by
  simp [finishOut, h]

/-- Everything a command that does not write OUT can answer. -/
theorem finish_cases {body : Body} {s t : State} (h : finish body s = .next t) :
    (∃ u, body s = .ok u ∧ t = u.endOk) ∨ ∃ e, body s = .error e ∧ t = s.takeError e := by
  unfold finish at h
  split at h
  · exact .inl ⟨_, ‹_›, by simpa using h.symm⟩
  · exact .inr ⟨_, ‹_›, by simpa using h.symm⟩

/-- Everything a command that writes OUT can answer. -/
theorem finishOut_cases {body : Body} {s t : State} (h : finishOut body s = .next t) :
    (∃ u, body s = .ok u ∧ t = u.endOk) ∨ ∃ e, body s = .error e ∧ t = s.emptyOut.takeError e := by
  unfold finishOut at h
  split at h
  · exact .inl ⟨_, ‹_›, by simpa using h.symm⟩
  · exact .inr ⟨_, ‹_›, by simpa using h.symm⟩

/-- Everything a composite command can answer. -/
theorem finishComposite_cases {stages : List Body} {s t : State} (h : finishComposite stages s = .next t) :
    (∃ u, runStages stages s = (u, none) ∧ t = u.endOk) ∨
      ∃ u e, runStages stages s = (u, some e) ∧ t = u.emptyOut.takeError e := by
  unfold finishComposite at h
  split at h
  · exact .inl ⟨_, ‹_›, by simpa using h.symm⟩
  · exact .inr ⟨_, _, ‹_›, by simpa using h.symm⟩

/-- What every stage keeps, a composite's completed stages keep. -/
theorem runStages_keeps {P : State → Prop} : ∀ {stages : List Body} {s : State},
    (∀ stage ∈ stages, ∀ u v, P u → stage u = .ok v → P v) → P s → P (runStages stages s).1
  | [], _, _, hs => hs
  | stage :: stages, s, hst, hs => by
    simp only [runStages]
    cases hb : stage s with
    | error e => exact hs
    | ok u =>
      exact runStages_keeps (fun st hm => hst st (List.mem_cons_of_mem _ hm)) (hst stage (List.mem_cons_self ..) s u hs hb)

/-- A command that does not write OUT always answers a next state. -/
theorem finish_next (body : Body) (s : State) : ∃ t, finish body s = .next t := by
  unfold finish; split <;> exact ⟨_, rfl⟩

/-- A command that writes OUT always answers a next state. -/
theorem finishOut_next (body : Body) (s : State) : ∃ t, finishOut body s = .next t := by
  unfold finishOut; split <;> exact ⟨_, rfl⟩

/-- A composite command always answers a next state. -/
theorem finishComposite_next (stages : List Body) (s : State) : ∃ t, finishComposite stages s = .next t := by
  unfold finishComposite; split <;> exact ⟨_, rfl⟩

end Sys2Proof.Machine
end

