-- ==== Sys2Proof/Laws/Invariant.lean ====
section
/-! SUPPORT. What the invariants give at once: the width of every length, and each buffer's place under its high-water mark. -/

namespace Sys2Proof.Machine

/-- A buffer's capacity, whichever selector names it (10_state.md rule R32). -/
def State.selCap (s : State) : Sel → Nat
  | .cw _ => capCw
  | .pb => s.cfg.capPb
  | .path => s.cfg.capPath

theorem BlockInv.buf_wf {s : State} (h : BlockInv s) : ∀ sel, (s.buf sel).wf (s.selCap sel)
  | .cw b => (h.map b).1
  | .pb => h.pb
  | .path => h.path

theorem BlockInv.selCap_lt {s : State} (h : BlockInv s) : ∀ sel, s.selCap sel < 2 ^ 32
  | .cw _ => by simp [State.selCap, capCw]
  | .pb => h.cfg.1.2
  | .path => h.cfg.2.1.2

theorem State.selCap_dst (s : State) (dst : Dst) : s.selCap dst.sel = s.dstCap dst := by cases dst <;> rfl

theorem BlockInv.len_le_hwm {s : State} (h : BlockInv s) (sel : Sel) : (s.buf sel).len ≤ (s.buf sel).hwm :=
  (h.buf_wf sel).1

/-- Every length fits a 32-bit register (00_scope.md rule R6). -/
theorem BlockInv.buf_length_lt {s : State} (h : BlockInv s) (sel : Sel) : (s.buf sel).bits.length < 2 ^ 32 :=
  lt_of_le_of_lt (le_trans (h.buf_wf sel).1 (h.buf_wf sel).2) (h.selCap_lt sel)

theorem BlockInv.pb_length_lt {s : State} (h : BlockInv s) : s.pb.bits.length < 2 ^ 32 := h.buf_length_lt .pb

theorem BlockInv.inp_length_lt {s : State} (h : BlockInv s) : s.inp.length < 2 ^ 32 :=
  lt_of_le_of_lt h.inp h.cfg.2.2.1.2

theorem BlockInv.out_length_lt {s : State} (h : BlockInv s) : s.out.length < 2 ^ 32 :=
  lt_of_le_of_lt h.out h.cfg.2.2.2.2

/-- A symbol has no entry exactly when its codeword buffer is empty (10_state.md rule R33). -/
theorem BlockInv.valid_iff {s : State} (h : BlockInv s) (b : Byte) : tget s.cwValid b = false ↔ (tget s.cw b).len = 0 := by
  obtain ⟨-, h0, h1⟩ := h.map b
  cases hv : tget s.cwValid b with
  | false => exact ⟨fun _ => h0 hv, fun _ => rfl⟩
  | true => have := h1 hv; exact ⟨fun e => by simp at e, fun e => by omega⟩

end Sys2Proof.Machine
end

