-- ==== Sys2Proof/Laws/Huffman.lean ====
section
/-! SUPPORT. The queue's order, extract_min, the merge step, the loop's turns, the tree walk and the map inference
(42_huffman_tree.md), one lemma for each shared definition. -/

namespace Sys2Proof.Machine

/-! ## The order of keys (R154) -/

theorem Key.lt_iff (a b : Key) : a.lt b = true ↔
    a.weight < b.weight ∨ (a.weight = b.weight ∧ (a.tag < b.tag ∨ (a.tag = b.tag ∧ a.tie < b.tie))) := by
  simp [Key.lt]

theorem Key.lt_irrefl (a : Key) : a.lt a = false := by
  rw [← Bool.not_eq_true, Key.lt_iff]; omega

theorem Key.lt_trans {a b c : Key} (h : a.lt b = true) (h' : b.lt c = true) : a.lt c = true := by
  rw [Key.lt_iff] at *; omega

/-- Two different keys are ordered one way or the other: the order is total (R154). -/
theorem Key.lt_of_not_lt {a b : Key} (h : a.lt b = false) (hne : a ≠ b) : b.lt a = true := by
  rw [← Bool.not_eq_true, Key.lt_iff] at h
  rw [Key.lt_iff]
  by_contra hc
  apply hne
  cases a; cases b
  simp only [Key.mk.injEq] at *
  omega

/-- A node no heavier comes first or has the same weight. -/
theorem Key.weight_le_of_not_lt {a b : Key} (h : a.lt b = false) : b.weight ≤ a.weight := by
  rw [← Bool.not_eq_true, Key.lt_iff] at h; omega

@[simp] theorem Node.key_weight (x : Node) : x.key.weight = x.weight.toNat := by cases x <;> rfl

/-! ## extract_min (R150) -/

theorem extractMin_eq_none {q : List Node} : extractMin q = none ↔ q = [] := by
  cases q with
  | nil => simp [extractMin]
  | cons x q =>
    simp only [extractMin]
    split
    · simp
    · split <;> simp

/-- What extract_min answers: a node no other precedes, and the rest of the queue. -/
theorem extractMin_spec : ∀ {q : List Node} {m : Node} {rest : List Node}, extractMin q = some (m, rest) →
    q.Perm (m :: rest) ∧ ∀ x ∈ rest, x.key.lt m.key = false
  | [], _, _, h => by simp [extractMin] at h
  | x :: q, m, rest, h => by
    simp only [extractMin] at h
    split at h
    · rename_i hn
      rw [extractMin_eq_none] at hn
      simp only [Option.some.injEq, Prod.mk.injEq] at h
      obtain ⟨rfl, rfl⟩ := h
      simp [hn]
    · rename_i m' rest' hs
      obtain ⟨hp, hm⟩ := extractMin_spec hs
      split at h
      · rename_i hlt
        simp only [Option.some.injEq, Prod.mk.injEq] at h
        obtain ⟨rfl, rfl⟩ := h
        refine ⟨.refl _, fun y hy => ?_⟩
        rw [← Bool.not_eq_true]
        intro hc
        rcases List.mem_cons.mp (hp.subset hy) with rfl | hy'
        · have := Key.lt_trans hlt hc; rw [Key.lt_irrefl] at this; simp at this
        · have := Key.lt_trans hc hlt; rw [hm y hy'] at this; simp at this
      · rename_i hlt
        simp only [Option.some.injEq, Prod.mk.injEq] at h
        obtain ⟨rfl, rfl⟩ := h
        refine ⟨(hp.cons x).trans (.swap _ _ _), fun y hy => ?_⟩
        rcases List.mem_cons.mp hy with rfl | hy'
        · simpa using hlt
        · exact hm y hy'

theorem extractMin_length {q : List Node} {m : Node} {rest : List Node} (h : extractMin q = some (m, rest)) :
    q.length = rest.length + 1 := by
  simpa using (extractMin_spec h).1.length_eq

/-! ## The merge step (R155) -/

/-- The first-dequeued node is never the heavier, so it is the left child (R155; 90_conflicts.md C8). -/
theorem mergeNodes_eq {a b : Node} (seq : Nat) (h : a.weight.toNat ≤ b.weight.toNat) :
    mergeNodes a b seq = .internal (a.weight + b.weight) a b seq := by
  unfold mergeNodes
  split
  · rfl
  · split
    · rename_i _ hlt
      have := BitVec.lt_def.mp hlt
      omega
    · rfl

/-- One turn of the loop on a queue of two or more: the least node, the least of the rest, and their merge put back. -/
theorem mergeLoop_turn {q : List Node} (fuel seq : Nat) (h : 2 ≤ q.length) :
    ∃ a b rest, q.Perm (a :: b :: rest) ∧ (∀ x ∈ b :: rest, x.key.lt a.key = false) ∧
      (∀ x ∈ rest, x.key.lt b.key = false) ∧
      mergeLoop (fuel + 1) seq q =
        mergeLoop fuel (seq + 1) (.internal (a.weight + b.weight) a b seq :: rest) := by
  cases h1 : extractMin q with
  | none => rw [extractMin_eq_none] at h1; subst h1; simp at h
  | some r1 =>
    obtain ⟨a, q1⟩ := r1
    have l1 := extractMin_length h1
    obtain ⟨p1, m1⟩ := extractMin_spec h1
    cases h2 : extractMin q1 with
    | none => rw [extractMin_eq_none] at h2; subst h2; simp at l1; omega
    | some r2 =>
      obtain ⟨b, q2⟩ := r2
      obtain ⟨p2, m2⟩ := extractMin_spec h2
      refine ⟨a, b, q2, p1.trans (p2.cons a), fun x hx => m1 x (p2.symm.subset hx), m2, ?_⟩
      have hb : b ∈ q1 := p2.symm.subset (List.mem_cons_self ..)
      have := Key.weight_le_of_not_lt (m1 b hb)
      simp only [Node.key_weight] at this
      simp only [mergeLoop, h1, h2, mergeNodes_eq seq this]

/-- The loop leaves a queue of at most one node alone. -/
theorem mergeLoop_short {q : List Node} (fuel seq : Nat) (h : q.length ≤ 1) : mergeLoop fuel seq q = q := by
  match fuel, q, h with
  | 0, _, _ => rfl
  | _ + 1, [], _ => simp [mergeLoop, extractMin]
  | _ + 1, [x], _ => simp [mergeLoop, extractMin]

/-- With as much fuel as nodes the loop ends with one node (R156). -/
theorem mergeLoop_length : ∀ (fuel seq : Nat) (q : List Node), q ≠ [] → q.length ≤ fuel + 1 →
    (mergeLoop fuel seq q).length = 1
  | 0, seq, q, hne, hf => by
    have : q.length ≠ 0 := by simpa using hne
    simp only [mergeLoop]; omega
  | fuel + 1, seq, q, hne, hf => by
    by_cases h : 2 ≤ q.length
    · obtain ⟨a, b, rest, hp, -, -, he⟩ := mergeLoop_turn fuel seq h
      have hl := hp.length_eq
      simp only [List.length_cons] at hl
      rw [he]
      exact mergeLoop_length fuel (seq + 1) _ (by simp) (by simp only [List.length_cons]; omega)
    · have : q.length ≠ 0 := by simpa using hne
      rw [mergeLoop_short _ _ (by omega)]; omega

/-- A property of queues that every turn keeps holds of the queue the loop ends with. -/
theorem mergeLoop_keeps {P : Nat → List Node → Prop}
    (hperm : ∀ seq q q', q.Perm q' → P seq q → P seq q')
    (hturn : ∀ seq a b rest, (∀ x ∈ b :: rest, x.key.lt a.key = false) → (∀ x ∈ rest, x.key.lt b.key = false) →
      P seq (a :: b :: rest) → P (seq + 1) (.internal (a.weight + b.weight) a b seq :: rest)) :
    ∀ (fuel seq : Nat) (q : List Node), P seq q → ∃ seq', P seq' (mergeLoop fuel seq q)
  | 0, seq, q, h => ⟨seq, h⟩
  | fuel + 1, seq, q, h => by
    by_cases h2 : 2 ≤ q.length
    · obtain ⟨a, b, rest, hp, h1, h2, he⟩ := mergeLoop_turn fuel seq h2
      rw [he]
      exact mergeLoop_keeps hperm hturn fuel (seq + 1) _ (hturn seq a b rest h1 h2 (hperm _ _ _ hp h))
    · rw [mergeLoop_short _ _ (by omega)]; exact ⟨seq, h⟩

/-! ## The table and the seeds (R153) -/

theorem mem_tableOrder (b : Byte) : b ∈ tableOrder := by revert b; decide +kernel

theorem tableOrder_nodup : tableOrder.Nodup := by decide +kernel

theorem mem_tableEntries {freq : Table Word} {b : Byte} : b ∈ tableEntries freq ↔ tget freq b ≠ 0 := by
  simp [tableEntries, mem_tableOrder]

theorem tableEntries_nodup (freq : Table Word) : (tableEntries freq).Nodup := tableOrder_nodup.filter _

theorem tableEntries_length_le (freq : Table Word) : (tableEntries freq).length ≤ 256 := by
  have := List.length_filter_le (fun s => tget freq s != 0) tableOrder
  simpa [tableEntries, tableOrder] using this

theorem seedQueue_length (freq : Table Word) : (seedQueue freq).length = (tableEntries freq).length := by
  simp [seedQueue]

theorem mem_seedQueue {freq : Table Word} {x : Node} (h : x ∈ seedQueue freq) :
    ∃ b, tget freq b ≠ 0 ∧ x = .leaf b ((tget freq b).setWidth 40) := by
  simp only [seedQueue, List.mem_map] at h
  obtain ⟨b, hb, rfl⟩ := h
  exact ⟨b, mem_tableEntries.mp hb, rfl⟩

theorem seedQueue_eq_nil {freq : Table Word} : seedQueue freq = [] ↔ ∀ b, tget freq b = 0 := by
  rw [← List.length_eq_zero_iff, seedQueue_length, List.length_eq_zero_iff, List.eq_nil_iff_forall_not_mem]
  simp [mem_tableEntries]

/-- The table is empty exactly when no tree is built (R152). -/
theorem buildTree_eq_none {freq : Table Word} : buildTree freq = none ↔ ∀ b, tget freq b = 0 := by
  unfold buildTree
  by_cases h : seedQueue freq = []
  · simp [h, mergeLoop, seedQueue_eq_nil.mp h]
  · have hl := mergeLoop_length (seedQueue freq).length 0 (seedQueue freq) h (by omega)
    split
    · rename_i e; rw [e] at hl; simp at hl
    · simp only [reduceCtorEq, false_iff]
      exact fun hz => h (seedQueue_eq_nil.mpr hz)

/-- A built tree is the one node the loop ends with (R152, R156). -/
theorem buildTree_root {freq : Table Word} (h : ∃ b, tget freq b ≠ 0) :
    ∃ root, mergeLoop (seedQueue freq).length 0 (seedQueue freq) = [root] ∧ buildTree freq = some root.toTree := by
  have hne : seedQueue freq ≠ [] := fun e => by obtain ⟨b, hb⟩ := h; exact hb (seedQueue_eq_nil.mp e b)
  obtain ⟨root, hr⟩ := List.length_eq_one_iff.mp (mergeLoop_length (seedQueue freq).length 0 (seedQueue freq) hne (by omega))
  exact ⟨root, hr, by simp [buildTree, hr]⟩

@[simp] theorem Node.toTree_symbols (x : Node) : x.toTree.symbols = x.symbols := by
  cases x <;> simp [Node.toTree, TreeState.symbols, Node.symbols]

theorem Node.toTree_ne_empty (x : Node) : x.toTree ≠ .empty := by cases x <;> simp [Node.toTree]

/-! ## The queue's nodes (R36, R155, R156) -/

/-- What every turn of the loop keeps: well-formed nodes, the total weight, the leaves' symbols, and the count of turns. -/
structure Forest (total n : Nat) (syms : List Byte) (seq : Nat) (q : List Node) : Prop where
  wf : ∀ x ∈ q, x.wf
  weight : (q.map fun x => x.weight.toNat).sum = total
  symbols : (q.flatMap Node.symbols).Perm syms
  turns : seq + q.length = n

theorem Forest.perm {total n : Nat} {syms : List Byte} {seq : Nat} {q q' : List Node} (hp : q.Perm q')
    (h : Forest total n syms seq q) : Forest total n syms seq q' where
  wf x hx := h.wf x (hp.symm.subset hx)
  weight := by rw [← h.weight]; exact (hp.map _).sum_eq.symm
  symbols := (hp.flatMap_right _).symm.trans h.symbols
  turns := by rw [← h.turns, hp.length_eq]

theorem Forest.turn {total n : Nat} {syms : List Byte} {seq : Nat} {a b : Node} {rest : List Node} (ht : total < 2 ^ 40)
    (hn : n ≤ 256) (h : Forest total n syms seq (a :: b :: rest)) :
    Forest total n syms (seq + 1) (.internal (a.weight + b.weight) a b seq :: rest) := by
  have hw := h.weight
  simp only [List.map_cons, List.sum_cons] at hw
  have hs : (a.weight + b.weight).toNat = a.weight.toNat + b.weight.toNat := by
    rw [BitVec.toNat_add]; exact Nat.mod_eq_of_lt (by omega)
  have hturns := h.turns
  simp only [List.length_cons] at hturns
  refine ⟨fun x hx => ?_, ?_, ?_, ?_⟩
  · rcases List.mem_cons.mp hx with rfl | hx
    · exact ⟨hs, by omega, h.wf a (by simp), h.wf b (by simp)⟩
    · exact h.wf x (by simp [hx])
  · simp only [List.map_cons, List.sum_cons]
    change (a.weight + b.weight).toNat + _ = _
    rw [hs]; omega
  · refine List.Perm.trans (List.Perm.of_eq ?_) h.symbols
    simp [Node.symbols]
  · simp only [List.length_cons]; omega

theorem sum_le_of_le {l : List Nat} {m : Nat} (h : ∀ x ∈ l, x ≤ m) : l.sum ≤ l.length * m := by
  induction l with
  | nil => simp
  | cons x l ih =>
    have h1 := h x (by simp)
    have h2 := ih fun y hy => h y (by simp [hy])
    simp only [List.sum_cons, List.length_cons, Nat.add_mul]
    omega

/-- The counts of a table sum to less than 2^40 (R155). -/
theorem counts_lt (freq : Table Word) : ((tableEntries freq).map fun b => (tget freq b).toNat).sum < 2 ^ 40 := by
  have h := sum_le_of_le (l := (tableEntries freq).map fun b => (tget freq b).toNat) (m := 2 ^ 32 - 1) (by
    intro x hx
    obtain ⟨b, -, rfl⟩ := List.mem_map.mp hx
    have := (tget freq b).isLt
    omega)
  have := tableEntries_length_le freq
  simp only [List.length_map] at h
  omega

theorem forest_seed (freq : Table Word) :
    Forest ((tableEntries freq).map fun b => (tget freq b).toNat).sum (tableEntries freq).length (tableEntries freq) 0
      (seedQueue freq) where
  wf x hx := by
    obtain ⟨b, hb, rfl⟩ := mem_seedQueue hx
    have h1 := (tget freq b).isLt
    have h0 : (tget freq b).toNat ≠ 0 := fun e => hb (BitVec.eq_of_toNat_eq (by simpa using e))
    simp only [Node.wf, BitVec.toNat_setWidth]
    omega
  weight := by
    simp only [seedQueue, List.map_map]
    refine congrArg List.sum (List.map_congr_left fun b _ => ?_)
    have h1 := (tget freq b).isLt
    change (BitVec.setWidth 40 (tget freq b)).toNat = _
    rw [BitVec.toNat_setWidth]
    exact Nat.mod_eq_of_lt (by omega)
  symbols := by
    refine List.Perm.of_eq ?_
    simp [seedQueue, List.flatMap_map, Node.symbols]
  turns := by rw [seedQueue_length, Nat.zero_add]

/-- The built tree's root: well formed, as heavy as all counts together, its leaves' symbols the table's entries
(R36, R156). -/
theorem buildTree_forest {freq : Table Word} {t : TreeState} (h : buildTree freq = some t) :
    ∃ root : Node, t = root.toTree ∧ root.wf ∧ root.symbols.Perm (tableEntries freq) ∧
      root.weight.toNat = ((tableEntries freq).map fun b => (tget freq b).toNat).sum := by
  have hne : ∃ b, tget freq b ≠ 0 := by
    by_contra hc
    have : ∀ b, tget freq b = 0 := by simpa using hc
    rw [buildTree_eq_none.mpr this] at h; simp at h
  obtain ⟨root, h1, h2⟩ := buildTree_root hne
  obtain ⟨seq', hf⟩ := mergeLoop_keeps (P := Forest _ _ _) (fun _ _ _ hp hq => hq.perm hp)
    (fun _ _ _ _ _ _ hq => hq.turn (counts_lt freq) (tableEntries_length_le freq)) (seedQueue freq).length 0 _ (forest_seed freq)
  rw [h1] at hf
  rw [h2] at h
  exact ⟨root, (Option.some.inj h).symm, hf.wf root (by simp), by simpa using hf.symbols, by simpa using hf.weight⟩

theorem Node.toTree_wf {x : Node} (h : x.wf) (hn : x.symbols.Nodup) : x.toTree.wf := by
  cases x with
  | leaf s w => exact h
  | internal w l r k => exact ⟨h, hn⟩

/-- A built tree meets the store's invariants (R36). -/
theorem buildTree_wf {freq : Table Word} {t : TreeState} (h : buildTree freq = some t) : t.wf := by
  obtain ⟨root, rfl, hw, hp, -⟩ := buildTree_forest h
  exact Node.toTree_wf hw (hp.symm.nodup (tableEntries_nodup freq))

/-- A built tree's leaves are the table's entries (R153, R164 c). -/
theorem buildTree_symbols {freq : Table Word} {t : TreeState} (h : buildTree freq = some t) :
    t.symbols.Perm (tableEntries freq) := by
  obtain ⟨root, rfl, -, hp, -⟩ := buildTree_forest h
  simpa using hp

theorem Node.symbols_length_pos (x : Node) : 1 ≤ x.symbols.length := by
  cases x with
  | leaf => simp [Node.symbols]
  | internal w l r k =>
    have := l.symbols_length_pos
    simp only [Node.symbols, List.length_append]; omega

/-- What HT_BUILD writes to TREE_INFO mirrors what it writes to TREE (R38). -/
theorem builtInfo_eq_info {freq : Table Word} {t : TreeState} (h : buildTree freq = some t) :
    builtInfo (tableEntries freq).length = t.info := by
  have hl := (buildTree_symbols h).length_eq
  obtain ⟨root, rfl, -, hp, -⟩ := buildTree_forest h
  rw [builtInfo, TreeState.info, hl]
  have hr := hp.length_eq
  cases root with
  | leaf s w =>
    rw [if_pos (by rw [← hr]; simp [Node.symbols])]; rfl
  | internal w l r k =>
    have h1 := l.symbols_length_pos
    have h2 := r.symbols_length_pos
    simp only [Node.symbols, List.length_append] at hr
    rw [if_neg (by omega)]; rfl

/-! ## The walk (R170) -/

@[simp] theorem walk_leaf (sym : Byte) (w : Weight) (bits : List Bool) (c : Nat) :
    walk (.leaf sym w) bits c = some (sym, c) := rfl

/-- A walk reads one bit per edge and ends inside the buffer. -/
theorem walk_bounds : ∀ (x : Node) (bits : List Bool) (c : Nat) {sym : Byte} {c' : Nat},
    walk x bits c = some (sym, c') → c ≤ bits.length → c ≤ c' ∧ c' ≤ bits.length ∧ sym ∈ x.symbols
  | .leaf s w, bits, c, sym, c', h, hc => by
    simp only [walk, Option.some.injEq, Prod.mk.injEq] at h
    obtain ⟨rfl, rfl⟩ := h
    exact ⟨Nat.le_refl _, hc, by simp [Node.symbols]⟩
  | .internal w l r k, bits, c, sym, c', h, hc => by
    simp only [walk] at h
    have hlt : ∀ b, bits[c]? = some b → c + 1 ≤ bits.length := fun b hb => by
      have := (List.getElem?_eq_some_iff.mp hb).1; omega
    split at h
    · simp at h
    · rename_i hb
      obtain ⟨h1, h2, h3⟩ := walk_bounds l bits (c + 1) h (hlt _ hb)
      exact ⟨by omega, h2, by simp [Node.symbols, h3]⟩
    · rename_i hb
      obtain ⟨h1, h2, h3⟩ := walk_bounds r bits (c + 1) h (hlt _ hb)
      exact ⟨by omega, h2, by simp [Node.symbols, h3]⟩

/-- Decoding one symbol consumes at least one bit and stays inside the buffer (R171). -/
theorem decodeOne_bounds {w : Word} {tree : TreeState} {bits : List Bool} {c : Nat} {sym : Byte} {c' : Nat}
    (h : decodeOne w tree bits c = .ok (sym, c')) : c < c' ∧ c' ≤ bits.length := by
  unfold decodeOne at h
  split at h
  · simp at h
  · split at h
    · simp at h
    · simp only [Except.ok.injEq, Prod.mk.injEq] at h; omega
  · split at h
    · simp at h
    · rename_i r hw
      simp only [Except.ok.injEq] at h
      subst h
      simp only [walk] at hw
      split at hw
      · simp at hw
      all_goals
        rename_i hb
        have hlt := (List.getElem?_eq_some_iff.mp hb).1
        have := walk_bounds _ bits (c + 1) hw (by omega)
        omega

end Sys2Proof.Machine
end

