-- ==== Sys2Proof/Laws/Codewords.lean ====
section
/-! SUPPORT. The codewords of a tree: their shape, the map HT_INFER_MAP makes of them (R160 to R164) and the walk that reads
them back (R170, R173). -/

namespace Sys2Proof.Claims

open Sys2Proof.Machine

/-! ## Codes -/

theorem mem_codes_internal {w : Weight} {l r : Node} {k : Nat} {c : Byte × List Bool} :
    c ∈ codes (.internal w l r k) ↔
      (∃ d ∈ codes l, c = (d.1, false :: d.2)) ∨ ∃ d ∈ codes r, c = (d.1, true :: d.2) := by
  simp only [codes, List.mem_append, List.mem_map, eq_comm]

@[simp] theorem codes_symbols (x : Node) : (codes x).map Prod.fst = x.symbols := by
  induction x with
  | leaf s w => rfl
  | internal w l r k ihl ihr => simp [codes, Node.symbols, ← ihl, ← ihr, Function.comp_def]

theorem codes_ne_nil (x : Node) : codes x ≠ [] := by
  intro h
  have := congrArg (fun c => (c.map Prod.fst).length) h
  have h1 := x.symbols_length_pos
  simp only [codes_symbols] at this
  simp only [List.map_nil, List.length_nil] at this
  omega

/-- A codeword is shorter than the number of leaves (R162). -/
theorem codes_length_lt : ∀ (x : Node) {c : Byte × List Bool}, c ∈ codes x → c.2.length + 1 ≤ x.symbols.length
  | .leaf s w, c, h => by
    simp only [codes, List.mem_singleton] at h
    subst h; simp [Node.symbols]
  | .internal w l r k, c, h => by
    have hl := l.symbols_length_pos
    have hr := r.symbols_length_pos
    simp only [Node.symbols, List.length_append]
    rcases mem_codes_internal.mp h with ⟨d, hd, rfl⟩ | ⟨d, hd, rfl⟩
    · have := codes_length_lt l hd; simp only [List.length_cons]; omega
    · have := codes_length_lt r hd; simp only [List.length_cons]; omega

/-- Distinct symbols are at most 256 (R35). -/
theorem symbols_length_le {l : List Byte} (h : l.Nodup) : l.length ≤ 256 := by
  have := List.Subperm.length_le (List.subperm_of_subset h (fun b _ => mem_tableOrder b))
  simpa [tableOrder] using this

theorem longest_nil : longest [] = 0 := rfl

theorem le_longest {cs : List (Byte × List Bool)} {c : Byte × List Bool} (h : c ∈ cs) : c.2.length ≤ longest cs := by
  induction cs with
  | nil => simp at h
  | cons d cs ih =>
    rcases List.mem_cons.mp h with rfl | h
    · simp [longest]
    · have := ih h; simp only [longest, List.map_cons, List.foldr_cons] at *; omega

theorem longest_le {cs : List (Byte × List Bool)} {n : Nat} (h : ∀ c ∈ cs, c.2.length ≤ n) : longest cs ≤ n := by
  induction cs with
  | nil => simp [longest]
  | cons d cs ih =>
    have h1 := h d (by simp)
    have h2 := ih fun c hc => h c (by simp [hc])
    simp only [longest, List.map_cons, List.foldr_cons] at *; omega

theorem exists_longest {cs : List (Byte × List Bool)} (h : cs ≠ []) : ∃ c ∈ cs, c.2.length = longest cs := by
  induction cs with
  | nil => simp at h
  | cons d cs ih =>
    by_cases hc : cs = []
    · subst hc; exact ⟨d, by simp, by simp [longest]⟩
    · obtain ⟨c, hm, hl⟩ := ih hc
      by_cases hd : longest cs ≤ d.2.length
      · exact ⟨d, by simp, by simp only [longest, List.map_cons, List.foldr_cons] at *; omega⟩
      · exact ⟨c, by simp [hm], by simp only [longest, List.map_cons, List.foldr_cons] at *; omega⟩

/-- The longest codeword below an internal node is one bit longer than the longest below its children. -/
theorem longest_internal (w : Weight) (l r : Node) (k : Nat) :
    longest (codes (.internal w l r k)) = 1 + max (longest (codes l)) (longest (codes r)) := by
  apply Nat.le_antisymm
  · refine longest_le fun c hc => ?_
    rcases mem_codes_internal.mp hc with ⟨d, hd, rfl⟩ | ⟨d, hd, rfl⟩ <;>
      · have := le_longest hd; simp only [List.length_cons]; omega
  · obtain ⟨c, hc, hl⟩ := exists_longest (codes_ne_nil l)
    obtain ⟨d, hd, hr⟩ := exists_longest (codes_ne_nil r)
    have h1 := le_longest (mem_codes_internal (w := w) (k := k) (r := r).mpr (.inl ⟨c, hc, rfl⟩))
    have h2 := le_longest (mem_codes_internal (w := w) (k := k) (l := l).mpr (.inr ⟨d, hd, rfl⟩))
    simp only [List.length_cons] at h1 h2; omega

/-- No codeword of a tree is a prefix of another entry's (R164 a). -/
theorem codes_prefix_free : ∀ (x : Node), (codes x).Pairwise fun c d => ¬ c.2 <+: d.2 ∧ ¬ d.2 <+: c.2
  | .leaf _ _ => by simp [codes]
  | .internal w l r k => by
    have hl := codes_prefix_free l
    have hr := codes_prefix_free r
    simp only [codes, List.pairwise_append, List.pairwise_map, List.cons_prefix_cons, true_and]
    refine ⟨hl, hr, fun c hc d hd => ?_⟩
    simp only [List.mem_map] at hc hd
    obtain ⟨c', -, rfl⟩ := hc
    obtain ⟨d', -, rfl⟩ := hd
    simp [List.cons_prefix_cons]

/-- Kraft's sum of a tree's codewords is 1, scaled by any power of two they fit in (R164 b). -/
theorem codes_kraft : ∀ (x : Node) (n : Nat), (∀ c ∈ codes x, c.2.length ≤ n) →
    ((codes x).map fun c => 2 ^ (n - c.2.length)).sum = 2 ^ n
  | .leaf _ _, n, _ => by simp [codes]
  | .internal w l r k, 0, h => by
    obtain ⟨c, hc⟩ := List.exists_mem_of_ne_nil _ (codes_ne_nil l)
    have := h _ (mem_codes_internal.mpr (.inl ⟨c, hc, rfl⟩))
    simp at this
  | .internal w l r k, n + 1, h => by
    have hl := codes_kraft l n fun c hc => by
      have := h _ (mem_codes_internal.mpr (.inl ⟨c, hc, rfl⟩)); simpa using this
    have hr := codes_kraft r n fun c hc => by
      have := h _ (mem_codes_internal.mpr (.inr ⟨c, hc, rfl⟩)); simpa using this
    simp only [codes, List.map_append, List.map_map, List.sum_append, Function.comp_def, List.length_cons,
      Nat.add_sub_add_right, hl, hr]
    omega

end Sys2Proof.Claims

namespace Sys2Proof.Machine

open Sys2Proof.Claims

/-! ## HT_INFER_MAP (R160, R162) -/

/-- The walk of a subtree whose depth fits PATH: every leaf gets the path's bits and its own branch bits, no other symbol is
touched, and PATH comes back with its bits and a high-water mark that has seen the deepest leaf. -/
theorem visit_ok : ∀ (x : Node) (s : State), s.path.len + longest (codes x) ≤ s.cfg.capPath → s.path.len ≤ s.path.hwm →
    x.symbols.Nodup →
    ∃ t, visit x s = .ok t ∧
      t = { s with cw := t.cw, cwValid := t.cwValid, path := ⟨s.path.bits, max s.path.hwm (s.path.len + longest (codes x))⟩ } ∧
      (∀ c ∈ codes x, tget t.cw c.1 = BitBuf.fresh (s.path.bits ++ c.2) ∧ tget t.cwValid c.1 = true) ∧
      ∀ b, b ∉ x.symbols → tget t.cw b = tget s.cw b ∧ tget t.cwValid b = tget s.cwValid b
  | .leaf sym w, s, hc, hw, _ => by
    refine ⟨s.assign sym s.path.bits, rfl, ?_, ?_, ?_⟩
    · have : longest (codes (.leaf sym w)) = 0 := rfl
      rw [this, Nat.add_zero, Nat.max_eq_left hw]; rfl
    · intro c hm
      simp only [codes, List.mem_singleton] at hm
      subst hm
      simp [State.assign]
    · intro b hb
      simp only [Node.symbols, List.mem_singleton] at hb
      simp [State.assign, tget_tset, Ne.symm hb]
  | .internal w l r k, s, hc, hw, hn => by
    rw [longest_internal] at hc ⊢
    simp only [Node.symbols, List.nodup_append] at hn
    obtain ⟨hnl, hnr, hd⟩ := hn
    have hlen : s.path.len = s.path.bits.length := rfl
    have push1 : pushPath false s = .ok { s with path := ⟨s.path.bits ++ [false], max s.path.hwm (s.path.len + 1)⟩ } := by
      rw [pushPath, BitBuf.push_ok false (by omega)]; rfl
    obtain ⟨t1, e1, f1, m1, o1⟩ := visit_ok l { s with path := ⟨s.path.bits ++ [false], max s.path.hwm (s.path.len + 1)⟩ }
      (by simp only [BitBuf.len, List.length_append, List.length_singleton] at *; omega)
      (by simp [BitBuf.len]) hnl
    have p1 : t1.path = ⟨s.path.bits ++ [false], max (max s.path.hwm (s.path.len + 1)) (s.path.len + 1 + longest (codes l))⟩ := by
      rw [f1]; simp [BitBuf.len]
    have pop1 : popPath t1 = .ok { t1 with path := ⟨s.path.bits, t1.path.hwm⟩ } := by
      rw [popPath, BitBuf.pop_ok (b := t1.path) (bits := s.path.bits) (bit := false) (by rw [p1])]; rfl
    have c1 : t1.cfg = s.cfg := by rw [f1]
    have push2 : pushPath true { t1 with path := ⟨s.path.bits, t1.path.hwm⟩ } =
        .ok { t1 with path := ⟨s.path.bits ++ [true], max t1.path.hwm (s.path.len + 1)⟩ } := by
      rw [pushPath, BitBuf.push_ok true (by change s.path.bits.length ≠ t1.cfg.capPath; rw [c1]; omega)]; rfl
    obtain ⟨t2, e2, f2, m2, o2⟩ := visit_ok r { t1 with path := ⟨s.path.bits ++ [true], max t1.path.hwm (s.path.len + 1)⟩ }
      (by simp only [BitBuf.len, List.length_append, List.length_singleton, c1] at *; omega)
      (by simp [BitBuf.len]) hnr
    have p2 : t2.path = ⟨s.path.bits ++ [true], max (max t1.path.hwm (s.path.len + 1)) (s.path.len + 1 + longest (codes r))⟩ := by
      rw [f2]; simp [BitBuf.len]
    have pop2 : popPath t2 = .ok { t2 with path := ⟨s.path.bits, t2.path.hwm⟩ } := by
      rw [popPath, BitBuf.pop_ok (b := t2.path) (bits := s.path.bits) (bit := true) (by rw [p2])]; rfl
    refine ⟨{ t2 with path := ⟨s.path.bits, t2.path.hwm⟩ }, ?_, ?_, ?_, ?_⟩
    · simp only [visit, push1, Except.bind, e1, pop1, push2, e2, pop2]
    · have hh : t2.path.hwm = max s.path.hwm (s.path.len + (1 + max (longest (codes l)) (longest (codes r)))) := by
        rw [p2, p1]; simp only; omega
      rw [hh, f2, f1]
    · intro c hm
      rcases mem_codes_internal.mp hm with ⟨d, hdl, rfl⟩ | ⟨d, hdr, rfl⟩
      · have hs : d.1 ∈ l.symbols := by rw [← codes_symbols]; exact List.mem_map_of_mem hdl
        have hnot : d.1 ∉ r.symbols := fun hr => hd _ hs _ hr rfl
        obtain ⟨q1, q2⟩ := o2 d.1 hnot
        obtain ⟨q3, q4⟩ := m1 d hdl
        exact ⟨by simp only at q1 q3 ⊢; rw [q1, q3]; simp, by simp only at q2 ⊢; rw [q2, q4]⟩
      · obtain ⟨q1, q2⟩ := m2 d hdr
        exact ⟨by simp only at q1 ⊢; rw [q1]; simp, q2⟩
    · intro b hb
      simp only [Node.symbols, List.mem_append, not_or] at hb
      obtain ⟨q1, q2⟩ := o1 b hb.1
      obtain ⟨q3, q4⟩ := o2 b hb.2
      exact ⟨q3.trans q1, q4.trans q2⟩

/-- The depth of a tree with distinct symbols fits the default PATH (R6, R162). -/
theorem longest_codes_le {x : Node} (h : x.symbols.Nodup) : longest (codes x) ≤ 255 :=
  longest_le fun _ hc => by have := codes_length_lt x hc; have := symbols_length_le h; omega

/-! ## The walk (R170, R173) -/

/-- Where a leaf's branch bits stand at the cursor, the walk ends at that leaf. -/
theorem walk_of_prefix : ∀ (x : Node) (bits : List Bool) (c : Nat) {d : Byte × List Bool}, d ∈ codes x →
    d.2 <+: bits.drop c → walk x bits c = some (d.1, c + d.2.length)
  | .leaf s w, bits, c, d, hd, hp => by
    simp only [codes, List.mem_singleton] at hd
    subst hd; rfl
  | .internal w l r k, bits, c, d, hd, hp => by
    have step : ∀ (b : Bool) (β : List Bool), b :: β <+: bits.drop c → bits[c]? = some b ∧ β <+: bits.drop (c + 1) := by
      intro b β h
      obtain ⟨rest, h⟩ := h
      have h0 : (bits.drop c)[0]? = some b := by rw [← h]; rfl
      refine ⟨by simpa using h0, rest, ?_⟩
      rw [← List.tail_drop, ← h]; rfl
    rcases mem_codes_internal.mp hd with ⟨e, he, rfl⟩ | ⟨e, he, rfl⟩
    · obtain ⟨h1, h2⟩ := step _ _ hp
      simp only [walk, h1, walk_of_prefix l bits (c + 1) he h2, List.length_cons]
      congr 2; omega
    · obtain ⟨h1, h2⟩ := step _ _ hp
      simp only [walk, h1, walk_of_prefix r bits (c + 1) he h2, List.length_cons]
      congr 2; omega

/-- A walk that ends read a codeword of the tree. -/
theorem prefix_of_walk : ∀ (x : Node) (bits : List Bool) (c : Nat) {sym : Byte} {c' : Nat}, walk x bits c = some (sym, c') →
    ∃ d ∈ codes x, d.1 = sym ∧ d.2 <+: bits.drop c ∧ c' = c + d.2.length
  | .leaf s w, bits, c, sym, c', h => by
    simp only [walk, Option.some.injEq, Prod.mk.injEq] at h
    obtain ⟨rfl, rfl⟩ := h
    exact ⟨(s, []), by simp [codes], rfl, List.nil_prefix, rfl⟩
  | .internal w l r k, bits, c, sym, c', h => by
    have back : ∀ (b : Bool) (β : List Bool), bits[c]? = some b → β <+: bits.drop (c + 1) → b :: β <+: bits.drop c := by
      intro b β hb hp
      obtain ⟨hlt, hb⟩ := List.getElem?_eq_some_iff.mp hb
      rw [List.drop_eq_getElem_cons hlt, hb, List.cons_prefix_cons]
      exact ⟨rfl, hp⟩
    simp only [walk] at h
    split at h
    · simp at h
    · rename_i hb
      obtain ⟨d, hd, h1, h2, h3⟩ := prefix_of_walk l bits (c + 1) h
      exact ⟨(d.1, false :: d.2), mem_codes_internal.mpr (.inl ⟨d, hd, rfl⟩), h1, back _ _ hb h2,
        by simp only [List.length_cons]; omega⟩
    · rename_i hb
      obtain ⟨d, hd, h1, h2, h3⟩ := prefix_of_walk r bits (c + 1) h
      exact ⟨(d.1, true :: d.2), mem_codes_internal.mpr (.inr ⟨d, hd, rfl⟩), h1, back _ _ hb h2,
        by simp only [List.length_cons]; omega⟩

/-- Where no codeword stands at the cursor the bits run out before a leaf (R170). -/
theorem walk_eq_none {x : Node} {bits : List Bool} {c : Nat} (h : ∀ d ∈ codes x, ¬ d.2 <+: bits.drop c) :
    walk x bits c = none := by
  cases hw : walk x bits c with
  | none => rfl
  | some r =>
    obtain ⟨d, hd, -, hp, -⟩ := prefix_of_walk x bits c (sym := r.1) (c' := r.2) hw
    exact absurd hp (h d hd)

end Sys2Proof.Machine
end

