-- ==== Sys2Proof/Laws/Codec.lean ====
section
/-! SUPPORT. The loops of ENC_ENCODE and DEC_DECODE (43_encoder_decoder.md), each turn and each end said once. -/

namespace Sys2Proof.Machine

open Sys2Proof.Claims

/-! ## ENC_ENCODE (R180, R181) -/

/-- Bytes whose codewords exist and fit are all taken, and the loop goes on with the rest. -/
theorem encodeLoop_append (cw : Table BitBuf) (valid : Table Bool) (cap : Nat) (rest : List Byte) :
    ∀ (done : List Byte) (a : Nat) (β : List Bool), (∀ x ∈ done, tget valid x = true) →
      β.length + (done.flatMap fun x => (tget cw x).bits).length ≤ cap →
      encodeLoop cw valid cap (done ++ rest) a β =
        encodeLoop cw valid cap rest (a + done.length) (β ++ done.flatMap fun x => (tget cw x).bits)
  | [], a, β, _, _ => by simp
  | x :: done, a, β, hv, hc => by
    have hx := hv x (by simp)
    simp only [List.flatMap_cons, List.length_append] at hc
    simp only [List.cons_append, encodeLoop, hx]
    rw [if_neg (by simp), if_neg (by simp only [BitBuf.len]; omega),
      encodeLoop_append cw valid cap rest done (a + 1) _ (fun y hy => hv y (by simp [hy]))
        (by simp only [List.length_append]; omega)]
    simp only [List.flatMap_cons, List.length_cons, List.append_assoc]
    congr 1; omega

/-- What the loop answers fits the capacity. -/
theorem encodeLoop_length {cw : Table BitBuf} {valid : Table Bool} {cap : Nat} : ∀ {bytes : List Byte} {a : Nat}
    {β γ : List Bool}, encodeLoop cw valid cap bytes a β = .ok γ → β.length ≤ cap → γ.length ≤ cap
  | [], a, β, γ, h, hc => by
    simp only [encodeLoop, Except.ok.injEq] at h
    subst h; exact hc
  | x :: bytes, a, β, γ, h, hc => by
    simp only [encodeLoop] at h
    split at h
    · simp at h
    · split at h
      · simp at h
      · rename_i hl
        exact encodeLoop_length h (by simp only [BitBuf.len, List.length_append] at *; omega)

/-- The errors the loop can end in. -/
theorem encodeLoop_error {cw : Table BitBuf} {valid : Table Bool} {cap : Nat} : ∀ {bytes : List Byte} {a : Nat}
    {β : List Bool} {e : Err}, encodeLoop cw valid cap bytes a β = .error e →
    (∃ s addr, e = .missingCodeword s addr ∧ s ∈ bytes ∧ tget valid s = false) ∨ ∃ need, e = .capacityBitBuffer cap need
  | [], a, β, e, h => by simp [encodeLoop] at h
  | x :: bytes, a, β, e, h => by
    simp only [encodeLoop] at h
    split at h
    · rename_i hv
      simp only [Except.error.injEq] at h
      exact .inl ⟨x, a, h.symm, by simp, hv⟩
    · split at h
      · simp only [Except.error.injEq] at h
        exact .inr ⟨_, h.symm⟩
      · rcases encodeLoop_error h with ⟨s, addr, h1, h2, h3⟩ | h1
        · exact .inl ⟨s, addr, h1, by simp [h2], h3⟩
        · exact .inr h1

/-! ## HT_DECODE_ONE and DEC_DECODE (R170, R172, R184) -/

/-- On a tree of two or more leaves a codeword at the cursor decodes to its symbol (R170). -/
theorem decodeOne_multi {w : Word} {wt : Weight} {l r : Node} {k : Nat} {bits : List Bool} {c : Nat} {d : Byte × List Bool}
    (hd : d ∈ treeCodes (.multi wt l r k)) (hp : d.2 <+: bits.drop c) :
    decodeOne w (.multi wt l r k) bits c = .ok (d.1, c + d.2.length) := by
  simp only [decodeOne, walk_of_prefix (.internal wt l r k) bits c hd hp]

/-- On a tree of two or more leaves the bits run out where no codeword stands at the cursor (R170). -/
theorem decodeOne_multi_overrun {w : Word} {wt : Weight} {l r : Node} {k : Nat} {bits : List Bool} {c : Nat}
    (h : ∀ d ∈ treeCodes (.multi wt l r k), ¬ d.2 <+: bits.drop c) :
    decodeOne w (.multi wt l r k) bits c = .error (.decodeOverrun bits.length c) := by
  simp only [decodeOne, walk_eq_none (x := .internal wt l r k) h]

/-- A Single tree takes one bit (R172). -/
theorem decodeOne_single {w : Word} {s : Byte} {wt : Weight} {bits : List Bool} {c : Nat} (h : c < bits.length) :
    decodeOne w (.single s wt) bits c = .ok (s, c + 1) := by
  simp only [decodeOne, if_neg (Nat.not_le.mpr h)]

/-- A stored tree raises no error but an overrun at the cursor. -/
theorem decodeOne_error {w : Word} {tree : TreeState} {bits : List Bool} {c : Nat} {e : Err}
    (h : decodeOne w tree bits c = .error e) (ht : tree ≠ .empty) : e = .decodeOverrun bits.length c := by
  unfold decodeOne at h
  split at h
  · exact absurd rfl ht
  · split at h
    · simpa using h.symm
    · simp at h
  · split at h
    · simpa using h.symm
    · simp at h

/-- A codeword of a tree of two or more leaves is not empty (R162). -/
theorem treeCodes_multi_pos {wt : Weight} {l r : Node} {k : Nat} {d : Byte × List Bool}
    (h : d ∈ treeCodes (.multi wt l r k)) : 1 ≤ d.2.length := by
  rcases (mem_codes_internal (w := wt) (k := k)).mp h with ⟨e, -, rfl⟩ | ⟨e, -, rfl⟩ <;> simp

/-- One turn of the loop. -/
theorem decodeLoop_turn {w : Word} {tree : TreeState} {bits : List Bool} {cap fuel c c' : Nat} {out : List Byte} {sym : Byte}
    (hc : c < bits.length) (h : decodeOne w tree bits c = .ok (sym, c')) (ho : out.length ≠ cap) :
    decodeLoop w tree bits cap (fuel + 1) c out = decodeLoop w tree bits cap fuel c' (out ++ [sym]) := by
  rw [decodeLoop, if_pos hc, h]
  simp only [if_neg ho]

/-- The loop ends where the bits end (R184). -/
theorem decodeLoop_end {w : Word} {tree : TreeState} {bits : List Bool} {cap c : Nat} {out : List Byte}
    (fuel : Nat) (hc : bits.length ≤ c) : decodeLoop w tree bits cap fuel c out = .ok (out, c) := by
  cases fuel with
  | zero => rfl
  | succ fuel => rw [decodeLoop, if_neg (Nat.not_lt.mpr hc)]

/-- A run of codewords that OUT has room for is decoded symbol by symbol. -/
theorem decodeLoop_codes {w : Word} {wt : Weight} {l r : Node} {k : Nat} {bits tail : List Bool} {cap : Nat} :
    ∀ (ds : List (Byte × List Bool)) (fuel c : Nat) (out : List Byte), (∀ d ∈ ds, d ∈ treeCodes (.multi wt l r k)) →
      bits.drop c = ds.flatMap Prod.snd ++ tail → out.length + ds.length ≤ cap →
      decodeLoop w (.multi wt l r k) bits cap (fuel + ds.length) c out =
        decodeLoop w (.multi wt l r k) bits cap fuel (c + (ds.flatMap Prod.snd).length) (out ++ ds.map Prod.fst)
  | [], fuel, c, out, _, _, _ => by simp
  | d :: ds, fuel, c, out, hd, hb, ho => by
    have hm := hd d (by simp)
    have hpos := treeCodes_multi_pos hm
    simp only [List.flatMap_cons, List.append_assoc] at hb
    simp only [List.length_cons] at ho
    have hlt : c < bits.length := by
      have := congrArg List.length hb
      simp only [List.length_drop, List.length_append] at this; omega
    have hnext : bits.drop (c + d.2.length) = ds.flatMap Prod.snd ++ tail := by
      rw [← List.drop_drop, hb, List.drop_left]
    rw [List.length_cons, ← Nat.add_assoc, decodeLoop_turn hlt (decodeOne_multi hm ⟨_, hb.symm⟩) (by omega),
      decodeLoop_codes ds fuel (c + d.2.length) (out ++ [d.1]) (fun e he => hd e (by simp [he])) hnext (by simp; omega)]
    simp only [List.flatMap_cons, List.length_append, List.map_cons, List.append_assoc, List.singleton_append, Nat.add_assoc]

/-- A Single tree gives one symbol per bit, while OUT has room (R172). -/
theorem decodeLoop_single {w : Word} {s : Byte} {wt : Weight} {bits : List Bool} {cap : Nat} :
    ∀ (n fuel c : Nat) (out : List Byte), c + n ≤ bits.length → out.length + n ≤ cap →
      decodeLoop w (.single s wt) bits cap (fuel + n) c out =
        decodeLoop w (.single s wt) bits cap fuel (c + n) (out ++ List.replicate n s)
  | 0, fuel, c, out, _, _ => by simp
  | n + 1, fuel, c, out, hc, ho => by
    rw [← Nat.add_assoc, decodeLoop_turn (by omega) (decodeOne_single (by omega)) (by omega),
      decodeLoop_single n fuel (c + 1) (out ++ [s]) (by omega) (by simp; omega)]
    simp only [List.append_assoc, List.singleton_append, ← List.replicate_succ]
    congr 1; omega

/-- What the loop answers fits OUT, and the cursor is inside the buffer. -/
theorem decodeLoop_bounds {w : Word} {tree : TreeState} {bits : List Bool} {cap : Nat} : ∀ {fuel c : Nat} {out : List Byte}
    {r : List Byte × Nat}, decodeLoop w tree bits cap fuel c out = .ok r → out.length ≤ cap → c ≤ bits.length →
    r.1.length ≤ cap ∧ r.2 ≤ bits.length
  | 0, c, out, r, h, ho, hc => by
    simp only [decodeLoop, Except.ok.injEq] at h
    subst h; exact ⟨ho, hc⟩
  | fuel + 1, c, out, r, h, ho, hc => by
    rw [decodeLoop] at h
    split at h
    · split at h
      · simp at h
      · rename_i hd
        split at h
        · simp at h
        · have := decodeOne_bounds hd
          exact decodeLoop_bounds h (by simp only [List.length_append, List.length_singleton]; omega) this.2
    · simp only [Except.ok.injEq] at h
      subst h; exact ⟨ho, hc⟩

/-- With as many turns as bits the loop reads the whole buffer (R184, R270). -/
theorem decodeLoop_cursor {w : Word} {tree : TreeState} {bits : List Bool} {cap : Nat} : ∀ {fuel c : Nat} {out : List Byte}
    {r : List Byte × Nat}, decodeLoop w tree bits cap fuel c out = .ok r → bits.length ≤ c + fuel → c ≤ bits.length →
    r.2 = bits.length
  | 0, c, out, r, h, hf, hc => by
    simp only [decodeLoop, Except.ok.injEq] at h
    subst h; simp only; omega
  | fuel + 1, c, out, r, h, hf, hc => by
    rw [decodeLoop] at h
    split at h
    · split at h
      · simp at h
      · rename_i hd
        split at h
        · simp at h
        · have := decodeOne_bounds hd
          exact decodeLoop_cursor h (by omega) this.2
    · simp only [Except.ok.injEq] at h
      subst h; simp only; omega

/-- The errors the loop can end in. -/
theorem decodeLoop_error {w : Word} {tree : TreeState} {bits : List Bool} {cap : Nat} (ht : tree ≠ .empty) :
    ∀ {fuel c : Nat} {out : List Byte} {e : Err}, decodeLoop w tree bits cap fuel c out = .error e →
    (∃ start, e = .decodeOverrun bits.length start) ∨ ∃ need, e = .capacityOut cap need
  | 0, c, out, e, h => by simp [decodeLoop] at h
  | fuel + 1, c, out, e, h => by
    rw [decodeLoop] at h
    split at h
    · split at h
      · rename_i hd
        simp only [Except.error.injEq] at h
        subst h
        exact .inl ⟨c, decodeOne_error hd ht⟩
      · split at h
        · simp only [Except.error.injEq] at h
          exact .inr ⟨_, h.symm⟩
        · exact decodeLoop_error ht h
    · simp at h

end Sys2Proof.Machine
end

