-- ==== Sys2Proof/Laws/Container.lean ====
section
/-! SUPPORT. The container's layout (30_encoding.md R92 to R97), its header checks and its table loop (44_container.md). -/

namespace Sys2Proof.Machine

/-! ## Layout (R92) -/

/-- A table's entries as a container holds them, `1 + 4` bytes each. -/
theorem entries_length (es : List (Byte × Nat)) : (es.flatMap fun e => e.1 :: bytesLe32 e.2).length = 5 * es.length := by
  induction es with
  | nil => rfl
  | cons e es ih => simp only [List.flatMap_cons, List.length_append, List.length_cons, bytesLe32_length, ih]; omega

theorem containerBytes_length (freq : Table Word) (bitCount : Nat) (payload : List Byte)
    (h : payload.length = ceil8 bitCount) :
    (containerBytes freq bitCount payload).length = containerLength (tableEntries freq).length bitCount := by
  have : ((tableEntries freq).flatMap (entryBytes freq)).length = 5 * (tableEntries freq).length := by
    have := entries_length ((tableEntries freq).map fun s => (s, (tget freq s).toNat))
    rw [List.flatMap_map, List.length_map] at this
    exact this
  simp only [containerBytes, containerLength, List.length_append, bytesLe32_length, this, h, magic, List.length_cons,
    List.length_nil]

theorem le32_slice_lt (m : Memory) (a : Nat) : le32 (m.slice a 4) < 2 ^ 32 :=
  le32_append_lt (by simp only [Memory.slice, List.length_take]; omega)

/-- A slice is what stands behind the address. -/
theorem Memory.slice_of_drop {m : Memory} {a : Nat} {bytes rest : List Byte} (h : m.drop a = bytes ++ rest) :
    m.slice a bytes.length = bytes := by
  rw [Memory.slice, h, List.take_left]

theorem Memory.byte_of_drop {m : Memory} {a : Nat} {b : Byte} {rest : List Byte} (h : m.drop a = b :: rest) : m.byte a = b := by
  have : (m.drop a)[0]? = some b := by rw [h]; rfl
  rw [List.getElem?_drop, Nat.add_zero] at this
  simp [Memory.byte, Memory.read, this]

/-! ## The header checks (R196, R197) -/

/-- A header that passes: long enough for its own counts, with the magic and at least one entry. -/
theorem parseHeader_ok {m : Memory} {sc bc : Nat} (h : parseHeader m = .ok (sc, bc)) :
    m.slice 0 4 = magic ∧ sc = le32 (m.slice 4 4) ∧ bc = le32 (m.slice 8 4) ∧ 12 ≤ m.length ∧
      12 + 5 * sc + ceil8 bc ≤ m.length ∧ sc ≠ 0 := by
  simp only [parseHeader] at h
  split at h; · simp at h
  split at h; · simp at h
  split at h; · simp at h
  split at h; · simp at h
  split at h; · simp at h
  split at h; · simp at h
  split at h; · simp at h
  simp only [Except.ok.injEq, Prod.mk.injEq] at h
  obtain ⟨rfl, rfl⟩ := h
  rename_i h1 h2 h3 h4 h5 h6 h7
  exact ⟨by simpa using h2, rfl, rfl, by omega, by omega, h7⟩

/-- A header whose bytes are in place passes the checks. -/
theorem parseHeader_of_layout {m : Memory} {sc bc : Nat} (h1 : m.slice 0 4 = magic) (h2 : le32 (m.slice 4 4) = sc)
    (h3 : le32 (m.slice 8 4) = bc) (h4 : 12 + 5 * sc + ceil8 bc ≤ m.length) (h5 : sc ≠ 0) :
    parseHeader m = .ok (sc, bc) := by
  simp only [parseHeader, h1, h2, h3]
  rw [if_neg (by omega), if_neg (by simp), if_neg (by omega), if_neg (by omega), if_neg (by omega), if_neg (by omega),
    if_neg h5]

/-- A header that fails raises a FormatError (R196). -/
theorem parseHeader_error {m : Memory} {e : Err} (h : parseHeader m = .error e) : ∃ sub exp act, e = .format sub exp act := by
  simp only [parseHeader] at h
  repeat' split at h
  all_goals first
    | exact ⟨_, _, _, (Except.error.inj h).symm⟩
    | simp at h

/-! ## The table loop (R195, R199) -/

/-- Entries with non-zero counts and symbols not met before are all read. -/
theorem readEntries_append {m : Memory} {rest : List Byte} : ∀ (es : List (Byte × Nat)) (k i : Nat) (f : Table Word),
    m.drop (12 + 5 * i) = (es.flatMap fun e => e.1 :: bytesLe32 e.2) ++ rest →
    (es.map Prod.fst).Nodup → (∀ e ∈ es, 1 ≤ e.2 ∧ e.2 < 2 ^ 32) → (∀ e ∈ es, tget f e.1 = 0) →
    readEntries m (k + es.length) i f =
      readEntries m k (i + es.length) (es.foldl (fun g e => tset g e.1 (BitVec.ofNat 32 e.2)) f)
  | [], k, i, f, _, _, _, _ => rfl
  | e :: es, k, i, f, hm, hn, hc, hf => by
    obtain ⟨c1, c2⟩ := hc e (by simp)
    simp only [List.map_cons, List.nodup_cons] at hn
    simp only [List.flatMap_cons, List.cons_append, List.append_assoc] at hm
    have hb : m.byte (12 + 5 * i) = e.1 := Memory.byte_of_drop hm
    have hd : m.drop (12 + 5 * i + 1) = bytesLe32 e.2 ++ ((es.flatMap fun e => e.1 :: bytesLe32 e.2) ++ rest) := by
      rw [← List.tail_drop, hm]; rfl
    have hcnt : le32 (m.slice (12 + 5 * i + 1) 4) = e.2 := by
      rw [← bytesLe32_length e.2, Memory.slice_of_drop hd, le32_bytesLe32 c2]
    have hnext : m.drop (12 + 5 * (i + 1)) = (es.flatMap fun e => e.1 :: bytesLe32 e.2) ++ rest := by
      rw [show 12 + 5 * (i + 1) = 12 + 5 * i + 1 + 4 by omega, ← List.drop_drop, hd, ← bytesLe32_length e.2, List.drop_left]
    have h0 : tget f e.1 = 0 := hf e (by simp)
    rw [List.length_cons, ← Nat.add_assoc]
    simp only [readEntries, hb, hcnt, h0]
    rw [if_neg (by omega), if_neg (by simp), readEntries_append es k (i + 1) _ hnext hn.2
      (fun d hd => hc d (by simp [hd])) fun d hd => by
        rw [tget_tset_of_ne _ _ fun he => hn.1 (by rw [he]; exact List.mem_map_of_mem hd)]
        exact hf d (by simp [hd])]
    rw [List.foldl_cons, Nat.add_assoc, Nat.add_comm 1]

/-- The register file after the entries of a table are written. -/
theorem tget_foldl_tset : ∀ (es : List (Byte × Nat)) (f : Table Word) (b : Byte), (es.map Prod.fst).Nodup →
    tget (es.foldl (fun g e => tset g e.1 (BitVec.ofNat 32 e.2)) f) b =
      ((es.lookup b).map (BitVec.ofNat 32)).getD (tget f b)
  | [], f, b, _ => rfl
  | e :: es, f, b, hn => by
    simp only [List.map_cons, List.nodup_cons] at hn
    rw [List.foldl_cons, tget_foldl_tset es _ b hn.2]
    by_cases h : b = e.1
    · subst h
      have : es.lookup e.1 = none := by
        rw [List.lookup_eq_none_iff]
        intro p hp
        rw [bne_iff_ne]
        exact fun he => hn.1 (by rw [he]; exact List.mem_map_of_mem hp)
      rw [this, List.lookup_cons_self]; simp
    · rw [List.lookup_cons, beq_eq_false_iff_ne.mpr h, tget_tset_of_ne _ _ (Ne.symm h)]

/-- The table loop's errors are FormatErrors (R199). -/
theorem readEntries_error {m : Memory} : ∀ {k i : Nat} {f : Table Word} {e : Err}, readEntries m k i f = .error e →
    ∃ sub exp act, e = .format sub exp act
  | 0, i, f, e, h => by simp [readEntries] at h
  | k + 1, i, f, e, h => by
    simp only [readEntries] at h
    split at h
    · exact ⟨_, _, _, (Except.error.inj h).symm⟩
    · split at h
      · exact ⟨_, _, _, (Except.error.inj h).symm⟩
      · exact readEntries_error h

/-- An entry once read stays in the table. -/
theorem readEntries_keeps {m : Memory} {b : Byte} : ∀ {k i : Nat} {f g : Table Word}, readEntries m k i f = .ok g →
    tget f b ≠ 0 → tget g b ≠ 0
  | 0, i, f, g, h, hb => by
    simp only [readEntries, Except.ok.injEq] at h
    subst h; exact hb
  | k + 1, i, f, g, h, hb => by
    simp only [readEntries] at h
    split at h
    · simp at h
    · split at h
      · simp at h
      · rename_i hz hd
        refine readEntries_keeps h ?_
        rw [tget_tset]
        split
        · rename_i he
          rw [he] at hd
          exact absurd hb (by simpa using hd)
        · exact hb

/-- A table of at least one entry is not empty. -/
theorem readEntries_nonempty {m : Memory} {k i : Nat} {f g : Table Word} (h : readEntries m (k + 1) i f = .ok g) :
    ∃ b, tget g b ≠ 0 := by
  simp only [readEntries] at h
  split at h
  · simp at h
  · rename_i hz
    split at h
    · simp at h
    · refine ⟨m.byte (12 + 5 * i), readEntries_keeps h ?_⟩
      rw [tget_tset_self]
      intro e
      have hlt := le32_slice_lt m (12 + 5 * i + 1)
      have := congrArg BitVec.toNat e
      rw [BitVec.toNat_ofNat, Nat.mod_eq_of_lt hlt] at this
      exact hz (by simpa using this)

/-- Everything a parse that succeeds says of its table and its bits. -/
theorem parseContainer_ok {cap : Nat} {m : Memory} {f : Table Word} {bits : List Bool}
    (h : parseContainer cap m = .ok (f, bits)) : (∃ b, tget f b ≠ 0) ∧ bits.length ≤ cap := by
  unfold parseContainer at h
  split at h
  · simp at h
  · rename_i sc bc hh
    split at h
    · simp at h
    · rename_i g hg
      split at h
      · simp at h
      · rename_i hc
        simp only [Except.ok.injEq, Prod.mk.injEq] at h
        obtain ⟨rfl, rfl⟩ := h
        obtain ⟨-, -, -, -, -, hsc⟩ := parseHeader_ok hh
        obtain ⟨n, rfl⟩ := Nat.exists_eq_succ_of_ne_zero hsc
        exact ⟨readEntries_nonempty hg, by rw [Memory.unpack_length]; omega⟩

/-- The errors a parse can end in (R195, R196, R199). -/
theorem parseContainer_error {cap : Nat} {m : Memory} {e : Err} (h : parseContainer cap m = .error e) :
    (∃ sub exp act, e = .format sub exp act) ∨ ∃ need, e = .capacityBitBuffer cap need := by
  unfold parseContainer at h
  split at h
  · rename_i hh
    simp only [Except.error.injEq] at h
    subst h; exact .inl (parseHeader_error hh)
  · split at h
    · rename_i hr
      simp only [Except.error.injEq] at h
      subst h; exact .inl (readEntries_error hr)
    · split at h
      · exact .inr ⟨_, (Except.error.inj h).symm⟩
      · simp at h

end Sys2Proof.Machine
end

