-- ==== Sys2Proof/Laws/Decode.lean ====
section
/-! SUPPORT. The command word's fields against the masks of 30_encoding.md rule R82, and each selector's decoding. -/

namespace Sys2Proof

theorem and_eq_iff_bits (w m c : Word) : w &&& m = c ↔ ∀ i < 32, (w.getLsbD i && m.getLsbD i) = c.getLsbD i := by
  constructor
  · rintro rfl i _; simp
  · intro h; apply BitVec.eq_of_getLsbD_eq; intro i hi; simpa using h i hi

theorem field_eq_iff_bits (w : Word) (start : Nat) {n : Nat} (c : BitVec n) :
    w.extractLsb' start n = c ↔ ∀ i < n, w.getLsbD (start + i) = c.getLsbD i := by
  constructor
  · rintro rfl i hi; simp [hi]
  · intro h; apply BitVec.eq_of_getLsbD_eq; intro i hi; simpa [hi] using h i hi

/-- Masking with a row's mask leaves its opcode exactly when OP is the opcode and every unused field is 0 (R82), for a mask
that fixes OP and, above it, the bits `fixed`. -/
theorem mask_iff_bits (w m : Word) (c : BitVec 8) (fixed : Nat → Prop) [DecidablePred fixed]
    (hm : ∀ i < 32, m.getLsbD i = decide (i < 8 ∨ fixed i)) :
    w &&& m = c.setWidth 32 ↔ opField w = c ∧ ∀ i < 32, 8 ≤ i → fixed i → w.getLsbD i = false := by
  rw [and_eq_iff_bits, opField, field_eq_iff_bits]
  constructor
  · intro h
    refine ⟨fun i hi => ?_, fun i hi h8 hf => ?_⟩
    · have := h i (by omega)
      rw [hm i (by omega), BitVec.getLsbD_setWidth] at this
      simpa only [hi, show i < 32 by omega, Nat.zero_add, true_or, decide_true, Bool.and_true, Bool.true_and] using this
    · have := h i hi
      rw [hm i hi, BitVec.getLsbD_setWidth, BitVec.getLsbD_of_ge c i (by omega)] at this
      simpa only [hf, or_true, decide_true, Bool.and_true, Bool.and_false] using this
  · rintro ⟨ho, hz⟩ i hi
    by_cases h8 : i < 8
    · have := ho i h8
      simp only [Nat.zero_add] at this
      rw [hm i hi, BitVec.getLsbD_setWidth, this]
      simp only [h8, hi, true_or, decide_true, Bool.and_true, Bool.true_and]
    · by_cases hf : fixed i
      · simp [hz i hi (by omega) hf, BitVec.getLsbD_of_ge c i (by omega)]
      · simp [hm i hi, h8, hf, BitVec.getLsbD_of_ge c i (by omega)]

theorem fields_zero_iff (w : Word) (start n : Nat) :
    w.extractLsb' start n = 0 ↔ ∀ i < 32, start ≤ i → i < start + n → w.getLsbD i = false := by
  rw [field_eq_iff_bits]
  constructor
  · intro h i _ h1 h2
    have := h (i - start) (by omega)
    simpa [show start + (i - start) = i by omega] using this
  · intro h i hi
    by_cases hlt : start + i < 32
    · simpa using h (start + i) hlt (by omega) (by omega)
    · simpa using BitVec.getLsbD_of_ge w (start + i) (by omega)

theorem restIsZero_n_iff (w : Word) : Format.n.restIsZero w = true ↔ ∀ i < 32, 8 ≤ i → w.getLsbD i = false := by
  simp only [Format.restIsZero, Bool.and_eq_true, beq_iff_eq, Bool.not_eq_true', aField, bField, zeroField, bitField,
    fields_zero_iff]
  constructor
  · rintro ⟨⟨⟨ha, hb⟩, hbit⟩, hz⟩ i hi h8
    rcases Nat.lt_or_ge i 17 with h | h
    · exact ha i hi h8 h
    rcases Nat.lt_or_ge i 26 with h' | h'
    · exact hb i hi h h'
    rcases Nat.eq_or_lt_of_le h' with h'' | h''
    · rw [← h'']; exact hbit
    · exact hz i hi h'' (by omega)
  · intro h
    exact ⟨⟨⟨fun i hi h1 _ => h i hi h1, fun i hi h1 _ => h i hi (by omega)⟩, h 26 (by omega) (by omega)⟩,
      fun i hi h1 _ => h i hi (by omega)⟩

theorem restIsZero_s_iff (w : Word) : Format.s.restIsZero w = true ↔ ∀ i < 32, 8 ≤ i → 17 ≤ i → w.getLsbD i = false := by
  simp only [Format.restIsZero, Bool.and_eq_true, beq_iff_eq, Bool.not_eq_true', bField, zeroField, bitField, fields_zero_iff]
  constructor
  · rintro ⟨⟨hb, hbit⟩, hz⟩ i hi _ h
    rcases Nat.lt_or_ge i 26 with h' | h'
    · exact hb i hi h h'
    rcases Nat.eq_or_lt_of_le h' with h'' | h''
    · rw [← h'']; exact hbit
    · exact hz i hi h'' (by omega)
  · intro h
    exact ⟨⟨fun i hi h1 _ => h i hi (by omega) h1, h 26 (by omega) (by omega) (by omega)⟩,
      fun i hi h1 _ => h i hi (by omega) (by omega)⟩

theorem restIsZero_sb_iff (w : Word) :
    Format.sb.restIsZero w = true ↔ ∀ i < 32, 8 ≤ i → 17 ≤ i ∧ i ≠ 26 → w.getLsbD i = false := by
  simp only [Format.restIsZero, Bool.and_eq_true, beq_iff_eq, bField, zeroField, fields_zero_iff]
  constructor
  · rintro ⟨hb, hz⟩ i hi _ ⟨h, hne⟩
    rcases Nat.lt_or_ge i 26 with h' | h'
    · exact hb i hi h h'
    · exact hz i hi (by omega) (by omega)
  · intro h
    exact ⟨fun i hi h1 h2 => h i hi (by omega) ⟨h1, by omega⟩, fun i hi h1 _ => h i hi (by omega) ⟨by omega, by omega⟩⟩

theorem restIsZero_ss_iff (w : Word) : Format.ss.restIsZero w = true ↔ ∀ i < 32, 8 ≤ i → 26 ≤ i → w.getLsbD i = false := by
  simp only [Format.restIsZero, Bool.and_eq_true, beq_iff_eq, Bool.not_eq_true', zeroField, bitField, fields_zero_iff]
  constructor
  · rintro ⟨hbit, hz⟩ i hi _ h
    rcases Nat.eq_or_lt_of_le h with h' | h'
    · rw [← h']; exact hbit
    · exact hz i hi h' (by omega)
  · intro h
    exact ⟨h 26 (by omega) (by omega) (by omega), fun i hi h1 _ => h i hi (by omega) (by omega)⟩

/-- The mask of each format (R82). -/
def Format.mask : Format → Word
  | .n => 0xFFFFFFFF
  | .s => 0xFFFE00FF
  | .sb => 0xFBFE00FF
  | .ss => 0xFC0000FF

/-- A word matches a row when `w & mask = match` (R82). -/
theorem matches_iff (fmt : Format) (w : Word) (c : BitVec 8) :
    w &&& fmt.mask = c.setWidth 32 ↔ opField w = c ∧ fmt.restIsZero w = true := by
  cases fmt with
  | n => rw [restIsZero_n_iff, Format.mask, mask_iff_bits w _ c (fun _ => True) (by decide)]; simp
  | s => rw [restIsZero_s_iff, Format.mask, mask_iff_bits w _ c (fun i => 17 ≤ i) (by decide)]
  | sb => rw [restIsZero_sb_iff, Format.mask, mask_iff_bits w _ c (fun i => 17 ≤ i ∧ i ≠ 26) (by decide)]
  | ss => rw [restIsZero_ss_iff, Format.mask, mask_iff_bits w _ c (fun i => 26 ≤ i) (by decide)]

/-- A decodable selector's code is the selector. -/
theorem dstOf_ok {n : BitVec 9} {d : Dst} (h : dstOf n = .ok d) : dstCode d = n := by
  unfold dstOf at h
  split at h
  · cases h; exact (Eq.symm ‹_›)
  · split at h
    · cases h; exact (Eq.symm ‹_›)
    · cases h

theorem selOf_ok {n : BitVec 9} {x : Sel} (h : selOf n = .ok x) : selCode x = n := by
  unfold selOf at h
  split at h
  · cases h
    apply BitVec.eq_of_toNat_eq
    simp [selCode]
    omega
  · split at h
    · cases h; exact (Eq.symm ‹_›)
    · split at h
      · cases h; exact (Eq.symm ‹_›)
      · cases h

theorem selCode_dst (d : Dst) : selCode d.sel = dstCode d := by cases d <;> rfl

theorem dstOf_dstCode (d : Dst) : dstOf (dstCode d) = .ok d := by cases d <;> decide

theorem selOf_selCode (x : Sel) : selOf (selCode x) = .ok x := by
  cases x with
  | pb => decide
  | path => decide
  | cw s => revert s; decide +kernel

/-- The bits of a packed word, field by field (R81). -/
theorem packWord_getLsbD (op : BitVec 8) (a b : BitVec 9) (bit : Bool) (i : Nat) :
    (packWord op a b bit).getLsbD i =
      if i < 8 then op.getLsbD i else if i < 17 then a.getLsbD (i - 8) else if i < 26 then b.getLsbD (i - 17)
      else if i = 26 then bit else false := by
  change BitVec.getLsbD (0#5 ++ BitVec.ofBool bit ++ b ++ a ++ op : BitVec (5 + 1 + 9 + 9 + 8)) i = _
  simp only [BitVec.getLsbD_append, BitVec.getLsbD_ofBool, BitVec.getLsbD_zero]
  rcases Nat.lt_or_ge i 8 with h | h
  · simp only [h, if_true]
  rcases Nat.lt_or_ge i 17 with h' | h'
  · simp only [show ¬ i < 8 by omega, show i - 8 < 9 by omega, h', if_true, if_false]
  rcases Nat.lt_or_ge i 26 with h'' | h''
  · simp only [show ¬ i < 8 by omega, show ¬ i - 8 < 9 by omega, show ¬ i < 17 by omega, h'',
      show i - 8 - 9 = i - 17 by omega, show i - 17 < 9 by omega, if_true, if_false]
  · simp only [show ¬ i < 8 by omega, show ¬ i - 8 < 9 by omega, show ¬ i < 17 by omega, show ¬ i - 8 - 9 < 9 by omega,
      show ¬ i < 26 by omega, if_false]
    by_cases e : i = 26
    · subst e; simp
    · simp [e, show ¬ i - 8 - 9 - 9 < 1 by omega]

/-- The fields of a packed word (R81). -/
theorem opField_packWord (op : BitVec 8) (a b : BitVec 9) (bit : Bool) : opField (packWord op a b bit) = op := by
  rw [opField, field_eq_iff_bits]; intro i hi
  rw [packWord_getLsbD, if_pos (by omega), Nat.zero_add]

theorem aField_packWord (op : BitVec 8) (a b : BitVec 9) (bit : Bool) : aField (packWord op a b bit) = a := by
  rw [aField, field_eq_iff_bits]; intro i hi
  rw [packWord_getLsbD, if_neg (by omega), if_pos (by omega), Nat.add_sub_cancel_left]

theorem bField_packWord (op : BitVec 8) (a b : BitVec 9) (bit : Bool) : bField (packWord op a b bit) = b := by
  rw [bField, field_eq_iff_bits]; intro i hi
  rw [packWord_getLsbD, if_neg (by omega), if_neg (by omega), if_pos (by omega), Nat.add_sub_cancel_left]

theorem bitField_packWord (op : BitVec 8) (a b : BitVec 9) (bit : Bool) : bitField (packWord op a b bit) = bit := by
  rw [bitField, packWord_getLsbD]; simp

theorem zeroField_packWord (op : BitVec 8) (a b : BitVec 9) (bit : Bool) : zeroField (packWord op a b bit) = 0 := by
  rw [zeroField, fields_zero_iff]; intro i _ h1 _
  rw [packWord_getLsbD, if_neg (by omega), if_neg (by omega), if_neg (by omega), if_neg (by omega)]

/-- A word whose bits 31:27 are 0 is its fields packed again. -/
theorem packWord_fields {w : Word} (hz : zeroField w = 0) :
    packWord (opField w) (aField w) (bField w) (bitField w) = w := by
  rw [zeroField, fields_zero_iff] at hz
  apply BitVec.eq_of_getLsbD_eq; intro i hi
  rw [packWord_getLsbD]
  rcases Nat.lt_or_ge i 8 with h | h
  · simp [h, opField]
  rcases Nat.lt_or_ge i 17 with h' | h'
  · simp [show ¬ i < 8 by omega, h', aField, show i - 8 < 9 by omega, show 8 + (i - 8) = i by omega]
  rcases Nat.lt_or_ge i 26 with h'' | h''
  · simp [show ¬ i < 8 by omega, show ¬ i < 17 by omega, h'', bField, show i - 17 < 9 by omega,
      show 17 + (i - 17) = i by omega]
  rw [if_neg (by omega), if_neg (by omega), if_neg (by omega)]
  split
  · subst i; rfl
  · exact (hz i hi (by omega) (by omega)).symm

end Sys2Proof
end

