-- ==== Sys2Proof/Laws/Memory.lean ====
section
/-! SUPPORT. IN and OUT keep their one canonical form, a byte list no longer than the buffer's capacity (20_memory.md R60, R61):
every write of OUT, every command, every HOST operation and so every step. Reset has it. -/

namespace Sys2Proof.Machine

/-- Both streams in canonical form. -/
abbrev StreamsWf (s : State) : Prop := s.inp.wf s.cfg.capIn ∧ s.out.wf s.cfg.capOut

theorem reset_streams (c : Config) : StreamsWf (State.resetWith c) := ⟨Nat.zero_le _, Nat.zero_le _⟩

/-- What a command's body does to the streams when it succeeds: OUT stays or is new and fits; IN, the parameters, the HOST's
queue and ARG stay. -/
def KeepsStreams (body : Body) : Prop :=
  ∀ s t : State, body s = .ok t → t.cfg = s.cfg ∧ t.inp = s.inp ∧ t.host = s.host ∧ t.arg = s.arg ∧
    (t.out = s.out ∨ t.out.wf s.cfg.capOut)

theorem setBuf_keeps (s : State) (dst : Dst) (b : BitBuf) : (s.setBuf dst b).cfg = s.cfg ∧ (s.setBuf dst b).inp = s.inp ∧
    (s.setBuf dst b).host = s.host ∧ (s.setBuf dst b).arg = s.arg ∧ (s.setBuf dst b).out = s.out := by
  cases dst <;> simp [State.setBuf]

/-- A body that writes one writable buffer, when it succeeds. -/
theorem keepsStreams_setBuf {dst : Dst} {f : State → Except Err BitBuf} :
    KeepsStreams fun s => (f s).map (s.setBuf dst) := by
  intro s t h
  cases hf : f s with
  | error e => simp [hf, Except.map] at h
  | ok b =>
    simp only [hf, Except.map, Except.ok.injEq] at h
    subst h
    obtain ⟨h1, h2, h3, h4, h5⟩ := setBuf_keeps s dst b
    exact ⟨h1, h2, h3, h4, .inl h5⟩

theorem bbInit_streams (dst : Dst) : KeepsStreams (bbInitBody dst) := keepsStreams_setBuf (f := fun _ => .ok BitBuf.created)

theorem bbAppendBit_streams (dst : Dst) (bit : Bool) : KeepsStreams (bbAppendBitBody dst bit) :=
  keepsStreams_setBuf (f := fun s => (s.buf dst.sel).push (s.dstCap dst) bit)

theorem bbAppendFrom_streams (dst : Dst) (src : Sel) : KeepsStreams (bbAppendFromBody dst src) := by
  intro s t h
  simp only [bbAppendFromBody] at h
  split at h
  · simp at h
  · split at h
    · simp at h
    · exact keepsStreams_setBuf (f := fun s => (s.buf dst.sel).pushAll (s.dstCap dst) (s.buf src).bits) s t h

theorem bbRemoveLast_streams (dst : Dst) : KeepsStreams (bbRemoveLastBody dst) :=
  keepsStreams_setBuf (f := fun s => (s.buf dst.sel).pop)

theorem bbClear_streams (dst : Dst) : KeepsStreams (bbClearBody dst) :=
  keepsStreams_setBuf (f := fun s => .ok ⟨[], (s.buf dst.sel).hwm⟩)

theorem bbReadBit_streams (sel : Sel) : KeepsStreams (bbReadBitBody sel) := by
  intro s t h
  unfold bbReadBitBody at h
  split at h
  · simp at h
  · simp only [Except.ok.injEq] at h
    subst h; exact ⟨rfl, rfl, rfl, rfl, .inl rfl⟩

theorem bbLen_streams (sel : Sel) : KeepsStreams (bbLenBody sel) := by
  intro s t h
  simp only [bbLenBody, Except.ok.injEq] at h
  subst h; exact ⟨rfl, rfl, rfl, rfl, .inl rfl⟩

theorem bbBytecount_streams (sel : Sel) : KeepsStreams (bbBytecountBody sel) := by
  intro s t h
  simp only [bbBytecountBody, Except.ok.injEq] at h
  subst h; exact ⟨rfl, rfl, rfl, rfl, .inl rfl⟩

/-- BB_TO_BYTES writes the packed bytes only when they fit (R120). -/
theorem bbToBytes_streams (sel : Sel) : KeepsStreams (bbToBytesBody sel) := by
  intro s t h
  simp only [bbToBytesBody] at h
  split at h
  · simp at h
  · simp only [Except.ok.injEq] at h
    subst h
    exact ⟨rfl, rfl, rfl, rfl, .inr (by rw [Memory.wf, BitBuf.pack_length]; omega)⟩

theorem nop_streams : KeepsStreams .ok := by
  intro s t h
  simp only [Except.ok.injEq] at h
  subst h; exact ⟨rfl, rfl, rfl, rfl, .inl rfl⟩

theorem ftCount_streams : KeepsStreams ftCountBody := by
  intro s t h
  simp only [ftCountBody, Except.ok.injEq] at h
  subst h; exact ⟨rfl, rfl, rfl, rfl, .inl rfl⟩

theorem htBuild_streams : KeepsStreams htBuildBody := by
  intro s t h
  unfold htBuildBody at h
  split at h
  · simp at h
  · simp only [Except.ok.injEq] at h
    subst h; exact ⟨rfl, rfl, rfl, rfl, .inl rfl⟩

/-- The walk of HT_INFER_MAP writes the map and PATH alone (R160). -/
theorem visit_frame : ∀ (x : Node) (s t : State), visit x s = .ok t →
    t = { s with cw := t.cw, cwValid := t.cwValid, path := t.path }
  | .leaf sym w, s, t, h => by
    simp only [visit, Except.ok.injEq] at h
    subst h; rfl
  | .internal w l r k, s, t, h => by
    have push : ∀ b u v, pushPath b u = .ok v → v = { u with path := v.path } := by
      intro b u v hv
      unfold pushPath at hv
      cases hp : u.path.push u.cfg.capPath b with
      | error e => simp [hp, Except.map] at hv
      | ok p => simp only [hp, Except.map, Except.ok.injEq] at hv; subst hv; rfl
    have pop : ∀ u v, popPath u = .ok v → v = { u with path := v.path } := by
      intro u v hv
      unfold popPath at hv
      cases hp : u.path.pop with
      | error e => simp [hp, Except.map] at hv
      | ok p => simp only [hp, Except.map, Except.ok.injEq] at hv; subst hv; rfl
    have bind : ∀ (x : Except Err State) (f : Body), x.bind f = .ok t → ∃ u, x = .ok u ∧ f u = .ok t := by
      intro x f hx
      cases x with
      | error e => simp [Except.bind] at hx
      | ok u => exact ⟨u, rfl, hx⟩
    simp only [visit] at h
    obtain ⟨s1, h1, h⟩ := bind _ _ h
    obtain ⟨s2, h2, h⟩ := bind _ _ h
    obtain ⟨s3, h3, h⟩ := bind _ _ h
    obtain ⟨s4, h4, h⟩ := bind _ _ h
    obtain ⟨s5, h5, h⟩ := bind _ _ h
    have e1 := push _ _ _ h1
    have e2 := visit_frame l _ _ h2
    have e3 := pop _ _ h3
    have e4 := push _ _ _ h4
    have e5 := visit_frame r _ _ h5
    have e6 := pop _ _ h
    rw [e6, e5, e4, e3, e2, e1]

theorem inferMap_frame {w : Word} {s t : State} (h : inferMapBody w s = .ok t) :
    t = { s with cw := t.cw, cwValid := t.cwValid, path := t.path } := by
  unfold inferMapBody at h
  split at h
  · simp at h
  · simp only [Except.ok.injEq] at h
    subst h; rfl
  · have := visit_frame _ _ _ h
    rw [this]; rfl

theorem inferMap_streams (w : Word) : KeepsStreams (inferMapBody w) := by
  intro s t h
  rw [inferMap_frame h]
  exact ⟨rfl, rfl, rfl, rfl, .inl rfl⟩

theorem decodeOne_streams (w : Word) : KeepsStreams (decodeOneBody w) := by
  intro s t h
  unfold decodeOneBody at h
  split at h
  · simp at h
  · simp only [Except.ok.injEq] at h
    subst h; exact ⟨rfl, rfl, rfl, rfl, .inl rfl⟩

theorem encode_streams : KeepsStreams encodeBody := by
  intro s t h
  unfold encodeBody at h
  cases he : encodeLoop s.cw s.cwValid s.cfg.capPb s.inp 0 [] with
  | error e => simp [he, Except.map] at h
  | ok β =>
    simp only [he, Except.map, Except.ok.injEq] at h
    subst h; exact ⟨rfl, rfl, rfl, rfl, .inl rfl⟩

/-- DEC_DECODE never writes more bytes than OUT holds (R184). -/
theorem decode_streams (w : Word) : KeepsStreams (decodeBody w) := by
  intro s t h
  unfold decodeBody at h
  split at h
  · simp at h
  · cases he : decodeLoop w s.tree s.pb.bits s.cfg.capOut s.pb.len 0 [] with
    | error e => simp [he, Except.map] at h
    | ok r =>
      simp only [he, Except.map, Except.ok.injEq] at h
      subst h
      exact ⟨rfl, rfl, rfl, rfl, .inr (decodeLoop_bounds he (Nat.zero_le _) (Nat.zero_le _)).1⟩

/-- CT_SERIALIZE writes a container only when it fits (R190). -/
theorem serialize_streams : KeepsStreams serializeBody := by
  intro s t h
  simp only [serializeBody] at h
  split at h
  · simp at h
  · split at h
    · simp at h
    · simp only [Except.ok.injEq] at h
      subst h
      refine ⟨rfl, rfl, rfl, rfl, .inr ?_⟩
      rw [Memory.wf, containerBytes_length _ _ _ (BitBuf.pack_length _ _)]
      exact Nat.le_of_not_lt ‹_›

theorem deserialize_streams : KeepsStreams deserializeBody := by
  intro s t h
  unfold deserializeBody at h
  cases he : parseContainer s.cfg.capPb s.inp with
  | error e => simp [he, Except.map] at h
  | ok r =>
    simp only [he, Except.map, Except.ok.injEq] at h
    subst h; exact ⟨rfl, rfl, rfl, rfl, .inl rfl⟩

/-! ## Commands and steps -/

theorem KeepsStreams.wf {body : Body} (hk : KeepsStreams body) {s t : State} (h : body s = .ok t) (hs : StreamsWf s) :
    StreamsWf t := by
  obtain ⟨hc, hi, -, -, ho⟩ := hk s t h
  refine ⟨by rw [hc, hi]; exact hs.1, ?_⟩
  rw [hc]
  rcases ho with ho | ho
  · rw [ho]; exact hs.2
  · exact ho

theorem emptyOut_streams {s : State} (hs : StreamsWf s) : StreamsWf s.emptyOut := ⟨hs.1, Nat.zero_le _⟩

theorem finish_streams {body : Body} (hk : KeepsStreams body) {s t : State} (h : finish body s = .next t)
    (hs : StreamsWf s) : StreamsWf t := by
  rcases finish_cases h with ⟨u, hu, rfl⟩ | ⟨e, -, rfl⟩
  · have := hk.wf hu hs; exact this
  · exact hs

theorem finishOut_streams {body : Body} (hk : KeepsStreams body) {s t : State} (h : finishOut body s = .next t)
    (hs : StreamsWf s) : StreamsWf t := by
  rcases finishOut_cases h with ⟨u, hu, rfl⟩ | ⟨e, -, rfl⟩
  · have := hk.wf hu hs; exact this
  · have := emptyOut_streams hs; exact this

theorem finishComposite_streams {stages : List Body} (hk : ∀ b ∈ stages, KeepsStreams b) {s t : State}
    (h : finishComposite stages s = .next t) (hs : StreamsWf s) : StreamsWf t := by
  have hr : StreamsWf (runStages stages s).1 :=
    runStages_keeps (P := StreamsWf) (fun b hb _ _ hu hv => (hk b hb).wf hv hu) hs
  rcases finishComposite_cases h with ⟨u, hu, rfl⟩ | ⟨u, e, hu, rfl⟩
  · rw [hu] at hr; exact hr
  · rw [hu] at hr; have := emptyOut_streams hr; exact this

/-- Every stage of COMPRESS keeps the streams' form. -/
theorem compressStages_streams : ∀ b ∈ compressStages, KeepsStreams b := by
  simp only [compressStages, List.forall_mem_cons]
  exact ⟨ftCount_streams, htBuild_streams, inferMap_streams _, encode_streams, serialize_streams, by simp⟩

/-- Every stage of DECOMPRESS keeps the streams' form. -/
theorem decompressStages_streams : ∀ b ∈ decompressStages, KeepsStreams b := by
  simp only [decompressStages, List.forall_mem_cons]
  exact ⟨deserialize_streams, htBuild_streams, decode_streams _, by simp⟩

/-- Every command keeps the streams' form. -/
theorem exec_streams {i : Instr} {s t : State} (h : exec i s = .next t) (hs : StreamsWf s) : StreamsWf t := by
  cases i with
  | nop => exact finish_streams nop_streams h hs
  | bbInit dst => exact finish_streams (bbInit_streams dst) h hs
  | bbAppendBit dst bit => exact finish_streams (bbAppendBit_streams dst bit) h hs
  | bbAppendFrom dst src => exact finish_streams (bbAppendFrom_streams dst src) h hs
  | bbReadBit sel => exact finish_streams (bbReadBit_streams sel) h hs
  | bbRemoveLast dst => exact finish_streams (bbRemoveLast_streams dst) h hs
  | bbClear dst => exact finish_streams (bbClear_streams dst) h hs
  | bbLen sel => exact finish_streams (bbLen_streams sel) h hs
  | bbBytecount sel => exact finish_streams (bbBytecount_streams sel) h hs
  | bbToBytes sel => exact finishOut_streams (bbToBytes_streams sel) h hs
  | ftCount => exact finish_streams ftCount_streams h hs
  | htBuild => exact finish_streams htBuild_streams h hs
  | htInferMap => exact finish_streams (inferMap_streams _) h hs
  | htDecodeOne => exact finish_streams (decodeOne_streams _) h hs
  | encEncode => exact finish_streams encode_streams h hs
  | decDecode => exact finishOut_streams (decode_streams _) h hs
  | ctSerialize => exact finishOut_streams serialize_streams h hs
  | ctDeserialize => exact finish_streams deserialize_streams h hs
  | compress => exact finishComposite_streams compressStages_streams h hs
  | decompress => exact finishComposite_streams decompressStages_streams h hs

/-- Every command answers a next state: an error is recorded and the block goes on (60_exceptions.md R226, R230). -/
theorem exec_next (i : Instr) (s : State) : ∃ t, exec i s = .next t := by
  cases i with
  | nop => exact finish_next .ok s
  | bbInit dst => exact finish_next (bbInitBody dst) s
  | bbAppendBit dst bit => exact finish_next (bbAppendBitBody dst bit) s
  | bbAppendFrom dst src => exact finish_next (bbAppendFromBody dst src) s
  | bbReadBit sel => exact finish_next (bbReadBitBody sel) s
  | bbRemoveLast dst => exact finish_next (bbRemoveLastBody dst) s
  | bbClear dst => exact finish_next (bbClearBody dst) s
  | bbLen sel => exact finish_next (bbLenBody sel) s
  | bbBytecount sel => exact finish_next (bbBytecountBody sel) s
  | bbToBytes sel => exact finishOut_next (bbToBytesBody sel) s
  | ftCount => exact finish_next ftCountBody s
  | htBuild => exact finish_next htBuildBody s
  | htInferMap => exact finish_next (inferMapBody (encode .htInferMap)) s
  | htDecodeOne => exact finish_next (decodeOneBody (encode .htDecodeOne)) s
  | encEncode => exact finish_next encodeBody s
  | decDecode => exact finishOut_next (decodeBody (encode .decDecode)) s
  | ctSerialize => exact finishOut_next serializeBody s
  | ctDeserialize => exact finish_next deserializeBody s
  | compress => exact finishComposite_next compressStages s
  | decompress => exact finishComposite_next decompressStages s

/-- Every HOST operation keeps the streams' form; a load is admitted only when it fits (20_memory.md R62). -/
theorem hostOp_streams {op : HostOp} {s t : State} (h : hostOp op s = .next t) (hs : StreamsWf s) : StreamsWf t := by
  cases op with
  | loadIn bytes =>
    simp only [hostOp] at h
    split at h
    · simp at h
    · simp only [Host.Outcome.next.injEq] at h
      subst h; exact ⟨Nat.le_of_not_lt ‹_›, hs.2⟩
  | readIn => simp only [hostOp, Host.Outcome.next.injEq] at h; subst h; exact hs
  | readOut => simp only [hostOp, Host.Outcome.next.injEq] at h; subst h; exact hs
  | readReg n => simp only [hostOp, Host.Outcome.next.injEq] at h; subst h; exact hs
  | writeReg n v =>
    simp only [hostOp] at h
    split at h
    · unfold issue at h
      split at h
      · simp only [Host.Outcome.next.injEq] at h; subst h; exact hs
      · exact exec_streams h hs
    · simp only [Host.Outcome.next.injEq] at h
      subst h
      unfold State.writeReg
      split
      · exact hs
      · split
        · exact hs
        · split <;> exact hs
  | reset => simp only [hostOp, Host.Outcome.next.injEq] at h; subst h; exact reset_streams s.cfg

/-- Every step keeps the streams' form. -/
theorem step_streams {s t : State} (h : step s = .next t) (hs : StreamsWf s) : StreamsWf t := by
  unfold step nextEvent at h
  split at h
  · simp only [Host.Outcome.next.injEq] at h; subst h; exact hs
  · exact hostOp_streams h hs

end Sys2Proof.Machine
end

