-- ==== Sys2Proof/Laws/PerInstr.lean ====
section
/-! SUPPORT. One fact about every command as syntax: the word `encode` gives it lies in the row spec/opcode_table.json gives
its mnemonic, every bit the row fixes as the row has it (30_encoding.md R82, R83). -/

namespace Sys2Proof.Laws.EncodeMatchesRow

/-- The bits a row of each format fixes (the table's masks). -/
def rowMask : Format → Word
  | .n => 0xFFFFFFFF
  | .s => 0xFFFE00FF
  | .sb => 0xFBFE00FF
  | .ss => 0xFC0000FF

/-- The row a command belongs to. -/
def opOf : Instr → Op
  | .nop => .nop
  | .bbInit _ => .bbInit
  | .bbAppendBit _ _ => .bbAppendBit
  | .bbAppendFrom _ _ => .bbAppendFrom
  | .bbReadBit _ => .bbReadBit
  | .bbRemoveLast _ => .bbRemoveLast
  | .bbClear _ => .bbClear
  | .bbLen _ => .bbLen
  | .bbBytecount _ => .bbBytecount
  | .bbToBytes _ => .bbToBytes
  | .ftCount => .ftCount
  | .htBuild => .htBuild
  | .htInferMap => .htInferMap
  | .htDecodeOne => .htDecodeOne
  | .encEncode => .encEncode
  | .decDecode => .decDecode
  | .ctSerialize => .ctSerialize
  | .ctDeserialize => .ctDeserialize
  | .compress => .compress
  | .decompress => .decompress

/-- The fixed bits of a command's word are those of its row. -/
def Statement (i : Instr) : Prop :=
  ∃ row ∈ opRows, row.op = opOf i ∧ encode i &&& rowMask row.format = row.code.setWidth 32

/-- What selector stands in field A changes no fixed bit of a row of format S. -/
theorem selector_bits_free (code : BitVec 8) (h : code ∈ [0x13, 0x16, 0x17, 0x18]) (sel : Sel) :
    packWord code (selCode sel) 0 false &&& rowMask .s = code.setWidth 32 := by
  have hb : ∀ b : Byte, packWord code (selCode (.cw b)) 0 false &&& rowMask .s = code.setWidth 32 := by
    simp only [List.mem_cons, List.not_mem_nil, or_false] at h
    rcases h with rfl | rfl | rfl | rfl <;> decide +kernel
  cases sel with
  | cw b => exact hb b
  | pb => simp only [List.mem_cons, List.not_mem_nil, or_false] at h; rcases h with rfl | rfl | rfl | rfl <;> decide
  | path => simp only [List.mem_cons, List.not_mem_nil, or_false] at h; rcases h with rfl | rfl | rfl | rfl <;> decide

/-- What source selector stands in field B changes no fixed bit of BB_APPEND_FROM's row. -/
theorem source_bits_free (dst : Dst) (src : Sel) : encode (.bbAppendFrom dst src) &&& rowMask .ss = 0x12 := by
  have hb : ∀ b : Byte, encode (.bbAppendFrom dst (.cw b)) &&& rowMask .ss = 0x12 := by cases dst <;> decide +kernel
  cases src with
  | cw b => exact hb b
  | pb => cases dst <;> decide
  | path => cases dst <;> decide

theorem nop : Statement .nop := ⟨⟨.nop, 0x00, .n⟩, by decide, rfl, by decide⟩
theorem bbInit (dst : Dst) : Statement (.bbInit dst) := ⟨⟨.bbInit, 0x10, .s⟩, by decide, rfl, by cases dst <;> decide⟩
theorem bbAppendBit (dst : Dst) (bit : Bool) : Statement (.bbAppendBit dst bit) :=
  ⟨⟨.bbAppendBit, 0x11, .sb⟩, by decide, rfl, by cases dst <;> cases bit <;> decide⟩
theorem bbAppendFrom (dst : Dst) (src : Sel) : Statement (.bbAppendFrom dst src) :=
  ⟨⟨.bbAppendFrom, 0x12, .ss⟩, by decide, rfl, source_bits_free dst src⟩
theorem bbReadBit (sel : Sel) : Statement (.bbReadBit sel) :=
  ⟨⟨.bbReadBit, 0x13, .s⟩, by decide, rfl, selector_bits_free 0x13 (by decide) sel⟩
theorem bbRemoveLast (dst : Dst) : Statement (.bbRemoveLast dst) :=
  ⟨⟨.bbRemoveLast, 0x14, .s⟩, by decide, rfl, by cases dst <;> decide⟩
theorem bbClear (dst : Dst) : Statement (.bbClear dst) := ⟨⟨.bbClear, 0x15, .s⟩, by decide, rfl, by cases dst <;> decide⟩
theorem bbLen (sel : Sel) : Statement (.bbLen sel) :=
  ⟨⟨.bbLen, 0x16, .s⟩, by decide, rfl, selector_bits_free 0x16 (by decide) sel⟩
theorem bbBytecount (sel : Sel) : Statement (.bbBytecount sel) :=
  ⟨⟨.bbBytecount, 0x17, .s⟩, by decide, rfl, selector_bits_free 0x17 (by decide) sel⟩
theorem bbToBytes (sel : Sel) : Statement (.bbToBytes sel) :=
  ⟨⟨.bbToBytes, 0x18, .s⟩, by decide, rfl, selector_bits_free 0x18 (by decide) sel⟩
theorem ftCount : Statement .ftCount := ⟨⟨.ftCount, 0x20, .n⟩, by decide, rfl, by decide⟩
theorem htBuild : Statement .htBuild := ⟨⟨.htBuild, 0x30, .n⟩, by decide, rfl, by decide⟩
theorem htInferMap : Statement .htInferMap := ⟨⟨.htInferMap, 0x31, .n⟩, by decide, rfl, by decide⟩
theorem htDecodeOne : Statement .htDecodeOne := ⟨⟨.htDecodeOne, 0x32, .n⟩, by decide, rfl, by decide⟩
theorem encEncode : Statement .encEncode := ⟨⟨.encEncode, 0x40, .n⟩, by decide, rfl, by decide⟩
theorem decDecode : Statement .decDecode := ⟨⟨.decDecode, 0x41, .n⟩, by decide, rfl, by decide⟩
theorem ctSerialize : Statement .ctSerialize := ⟨⟨.ctSerialize, 0x50, .n⟩, by decide, rfl, by decide⟩
theorem ctDeserialize : Statement .ctDeserialize := ⟨⟨.ctDeserialize, 0x51, .n⟩, by decide, rfl, by decide⟩
theorem compress : Statement .compress := ⟨⟨.compress, 0x60, .n⟩, by decide, rfl, by decide⟩
theorem decompress : Statement .decompress := ⟨⟨.decompress, 0x61, .n⟩, by decide, rfl, by decide⟩

end Sys2Proof.Laws.EncodeMatchesRow
end

