-- ==== Sys2Proof/Tests/Slice0.lean ====
section
/-! SUPPORT. Tests of the model and, for every statement with hypotheses, a named state and operands that meet them. Expected
values are those of spec/95_test_vectors.md (V and P numbers) and spec/30_encoding.md, never the model's own. -/

namespace Sys2Proof.Tests

set_option Elab.async false

open Sys2Proof.Machine Sys2Proof.Claims

/-! ## Helpers -/

/-- The state a command answers. -/
def after (i : Instr) (s : State) : State :=
  match exec i s with
  | .next t => t
  | .fault _ => s
  | .refused _ => s

theorem exec_after (i : Instr) (s : State) : exec i s = .next (after i s) := by
  obtain ⟨t, ht⟩ := exec_next i s
  simp [after, ht]

/-- A block with small buffers, after reset. -/
def small : State := State.resetWith ⟨16, 255, 64, 64⟩

/-- A table of counts. -/
def counts (es : List (Byte × Word)) : Table Word := es.foldl (fun f e => tset f e.1 e.2) (Vector.replicate 256 0)

theorem tget_counts_ne_zero {es : List (Byte × Word)} (h : ∀ e ∈ es, e.2 ≠ 0) : ∀ (f : Table Word) (s : Byte),
    (tget (es.foldl (fun f e => tset f e.1 e.2) f) s != 0) = ((tget f s != 0) || es.any fun e => e.1 == s) := by
  induction es with
  | nil => intro f s; simp
  | cons e es ih =>
    intro f s
    rw [List.foldl_cons, ih fun d hd => h d (by simp [hd])]
    by_cases he : e.1 = s
    · have hb : (e.2 != 0) = true := bne_iff_ne.mpr (h e (by simp))
      subst he
      simp only [List.any_cons, tget_tset_self, hb, beq_self_eq_true, Bool.true_or, Bool.or_true]
    · simp only [tget_tset_of_ne _ _ he, List.any_cons, beq_eq_false_iff_ne.mpr he, Bool.false_or]

/-- The entries of a table of counts, without its 256 registers being looked up one by one. -/
theorem entries_counts {es : List (Byte × Word)} (h : ∀ e ∈ es, e.2 ≠ 0) :
    tableEntries (counts es) = tableOrder.filter fun s => es.any fun e => e.1 == s := by
  refine List.filter_congr fun s _ => ?_
  have := tget_counts_ne_zero h (Vector.replicate 256 0) s
  rw [tget_replicate] at this
  exact this.trans (Bool.false_or _)

theorem buildTree_of_entries {freq : Table Word} {es : List Byte} (h : tableEntries freq = es) : buildTree freq =
    (mergeLoop es.length 0 (es.map fun s => .leaf s ((tget freq s).setWidth 40))).head?.map Node.toTree := by
  subst h
  simp only [buildTree, seedQueue, List.length_map]
  cases mergeLoop _ _ _ <;> rfl

theorem after_htBuild {s : State} {t : TreeState} (h : buildTree s.freq = some t) : after .htBuild s =
    { s.clearMap.endOk with tree := t, treeInfo := builtInfo (tableEntries s.freq).length } := by
  simp only [after, exec, execHtBuild, finish, htBuildBody, h]; rfl

theorem after_ctSerialize {s : State} {es : List Byte} (h : tableEntries s.freq = es) (hne : es.length ≠ 0)
    (hc : containerLength es.length s.pb.len ≤ s.cfg.capOut) : (after .ctSerialize s).status = 0 ∧ (after .ctSerialize s).out =
    magic ++ bytesLe32 es.length ++ bytesLe32 s.pb.len ++ es.flatMap (entryBytes s.freq) ++ s.pb.pack s.draws := by
  subst h
  simp only [after, exec, execCtSerialize, finishOut, serializeBody, if_neg hne, if_neg (Nat.not_lt.mpr hc)]
  exact ⟨rfl, rfl⟩

/-- A block with a tree of two leaves, its map, three bytes in IN and their codewords in PB. -/
def coded : State := { small with
  inp := [0x41, 0x42, 0x41], freq := counts [(0x41, 2), (0x42, 1)],
  tree := .multi 3 (.leaf 0x42 1) (.leaf 0x41 2) 0, treeInfo := 10,
  cw := tset (tset (Vector.replicate 256 ⟨[], 0⟩) 0x41 ⟨[true], 1⟩) 0x42 ⟨[false], 1⟩,
  cwValid := tset (tset (Vector.replicate 256 false) 0x41 true) 0x42 true,
  pb := ⟨[true, false, true], 3⟩, path := ⟨[], 1⟩ }

/-- A block with a Single tree. -/
def single : State := { small with
  inp := [0x41], freq := counts [(0x41, 1)], tree := .single 0x41 1, treeInfo := 5, pb := ⟨[true, false], 2⟩ }

/-- An entry's invariant in a map given by its table of codewords. -/
theorem map_inv {s : State} (h : ∀ b, tget s.cwValid b = decide (1 ≤ (tget s.cw b).len))
    (hw : ∀ b, (tget s.cw b).wf capCw) : ∀ b, mapEntryWf (tget s.cwValid b) (tget s.cw b) := by
  intro b
  rw [h b]
  refine ⟨hw b, fun e => ?_, fun e => by simpa using e⟩
  have : ¬ 1 ≤ (tget s.cw b).len := by simpa using e
  omega

theorem small_inv : BlockInv small where
  cfg := by decide
  inp := by decide
  out := by decide
  pb := by decide
  path := by decide
  map := map_inv (fun b => by simp [small, State.resetWith, BitBuf.len]) (fun b => by
    simp only [small, State.resetWith, tget_replicate]; decide)
  tree := trivial
  info := by decide
  status := by decide

theorem coded_inv : BlockInv coded where
  cfg := by decide
  inp := by decide
  out := by decide
  pb := by decide
  path := by decide
  map := map_inv
    (fun b => by simp only [coded, tget_tset, tget_replicate]; split <;> [rfl; (split <;> rfl)])
    (fun b => by simp only [coded, tget_tset, tget_replicate]; split <;> [decide; (split <;> decide)])
  tree := by simp [coded, TreeState.wf, Node.wf, Node.weight, Node.symbols]
  info := by decide
  status := by decide

theorem single_inv : BlockInv single where
  cfg := by decide
  inp := by decide
  out := by decide
  pb := by decide
  path := by decide
  map := small_inv.map
  tree := by simp [single, TreeState.wf, Node.wf]
  info := by decide
  status := by decide

/-- The scenario V10 with its table written by the HOST (P2) and its input loaded. -/
def v10 : State := { small with inp := [1, 2, 3, 1, 2, 1], freq := counts [(1, 3), (2, 2), (3, 1)] }

/-- V10 after HT_BUILD and HT_INFER_MAP, as V10's table gives them. -/
def v10coded : State := { v10 with
  tree := .multi 6 (.leaf 1 3) (.internal 3 (.leaf 3 1) (.leaf 2 2) 0) 1, treeInfo := 0x0E,
  cw := tset (tset (tset (Vector.replicate 256 ⟨[], 0⟩) 1 ⟨[false], 1⟩) 3 ⟨[true, false], 2⟩) 2 ⟨[true, true], 2⟩,
  cwValid := tset (tset (tset (Vector.replicate 256 false) 1 true) 3 true) 2 true, path := ⟨[], 2⟩ }

theorem coded_entries : tableEntries coded.freq = [0x41, 0x42] :=
  (entries_counts (es := [(0x41, 2), (0x42, 1)]) (by simp)).trans (by decide +kernel)

theorem v10_entries : tableEntries v10.freq = [1, 2, 3] :=
  (entries_counts (es := [(1, 3), (2, 2), (3, 1)]) (by simp)).trans (by decide +kernel)

/-- The trees the model builds of these tables; V10 gives the second. -/
theorem coded_build : buildTree coded.freq = some coded.tree := by
  rw [buildTree_of_entries coded_entries]; decide +kernel

theorem v10_build : buildTree v10.freq = some (.multi 6 (.leaf 1 3) (.internal 3 (.leaf 3 1) (.leaf 2 2) 0) 1) := by
  rw [buildTree_of_entries v10_entries]; decide +kernel

/-- V10's input, loaded after reset. -/
def v10in : State := { small with inp := [1, 2, 3, 1, 2, 1] }

/-- V10's payload `011100110`. -/
def v10bits : List Bool := [false, true, true, true, false, false, true, true, false]

/-- V10's container, 29 bytes. -/
def v10container : List Byte :=
  [0xC0, 0xDE, 0x0D, 0xDE, 3, 0, 0, 0, 9, 0, 0, 0, 1, 3, 0, 0, 0, 2, 2, 0, 0, 0, 3, 1, 0, 0, 0, 0xCE, 0x00]

/-! ## Well-formedness: the one check the operand types leave open -/

theorem test_wellformed_refuses_same_buffer :
    (Instr.bbAppendFrom .pb .pb).ok = false ∧ (Instr.bbAppendFrom .path .path).ok = false := by decide
theorem test_wellformed_admits_other_buffers :
    (Instr.bbAppendFrom .pb .path).ok = true ∧ (Instr.bbAppendFrom .path (.cw 0)).ok = true := by decide

/-! ## Decoding: words written out from 30_encoding.md R81 to R83, and V33 -/

theorem test_decode_nop : decode 0x00000000 = .ok .nop := by decide
theorem test_decode_bb_init : decode 0x00010010 = .ok (.bbInit .pb) ∧ decode 0x00010110 = .ok (.bbInit .path) := by decide
theorem test_decode_bb_append_bit :
    decode 0x04010011 = .ok (.bbAppendBit .pb true) ∧ decode 0x00010111 = .ok (.bbAppendBit .path false) := by decide
theorem test_decode_bb_append_from :
    decode 0x02030012 = .ok (.bbAppendFrom .pb .path) ∧ decode 0x00050012 = .ok (.bbAppendFrom .pb (.cw 0x02)) := by decide
theorem test_decode_bb_read_bit :
    decode 0x00000313 = .ok (.bbReadBit (.cw 0x03)) ∧ decode 0x0000FF13 = .ok (.bbReadBit (.cw 0xFF)) := by decide
theorem test_decode_bb_remove_last : decode 0x00010014 = .ok (.bbRemoveLast .pb) := by decide
theorem test_decode_bb_clear : decode 0x00010015 = .ok (.bbClear .pb) := by decide
theorem test_decode_bb_len : decode 0x00010116 = .ok (.bbLen .path) := by decide
theorem test_decode_bb_bytecount : decode 0x00010017 = .ok (.bbBytecount .pb) := by decide
theorem test_decode_bb_to_bytes : decode 0x00010018 = .ok (.bbToBytes .pb) := by decide
theorem test_decode_plain_commands :
    decode 0x20 = .ok .ftCount ∧ decode 0x30 = .ok .htBuild ∧ decode 0x31 = .ok .htInferMap ∧ decode 0x32 = .ok .htDecodeOne ∧
    decode 0x40 = .ok .encEncode ∧ decode 0x41 = .ok .decDecode ∧ decode 0x50 = .ok .ctSerialize ∧
    decode 0x51 = .ok .ctDeserialize ∧ decode 0x60 = .ok .compress ∧ decode 0x61 = .ok .decompress := by decide
theorem test_decode_refusals :
    decode 0x00000100 = .error .reservedBits ∧ decode 0x00000001 = .error .unknownOpcode ∧
    decode 0xFFFFFFFF = .error .unknownOpcode ∧ decode 0x08010011 = .error .reservedBits ∧
    decode 0x04010010 = .error .reservedBits ∧ decode 0x00020030 = .error .reservedBits ∧
    decode 0x03FE0012 = .error .badSelector ∧ decode 0x03FF0112 = .error .badSelector ∧
    decode 0x0001FF13 = .error .badSelector ∧ decode 0x02010012 = .error .sameBuffer := by decide

/-! ## Single steps -/

/-- P3: NOP erases the error record. -/
theorem test_nop_erases_error : (after .nop { small with status := 0x53, errExp := 27, errAct := 26 }).status = 0 := by
  decide +kernel

/-- V20 k. -/
theorem test_bb_init : (after (.bbInit .pb) { small with pb := ⟨[true, true, true, true], 4⟩ }).pb = ⟨[], 0⟩ := by
  decide +kernel

/-- V20 b, aa. -/
theorem test_bb_append_bit :
    (after (.bbAppendBit .pb false) { small with pb := ⟨[true], 1⟩ }).pb = ⟨[true, false], 2⟩ := by decide +kernel
theorem test_bb_append_bit_full :
    (after (.bbAppendBit .pb true) { small with cfg := ⟨2, 255, 64, 64⟩, pb := ⟨[true, false], 2⟩ }).errAct = 3 := by
  decide +kernel

/-- V20 v, ab. -/
theorem test_bb_append_from :
    (after (.bbAppendFrom .pb .path) { small with pb := ⟨[false], 1⟩, path := ⟨[true, true], 2⟩ }).pb =
      ⟨[false, true, true], 3⟩ := by decide +kernel
theorem test_bb_append_from_capacity :
    (after (.bbAppendFrom .pb .path)
      { small with cfg := ⟨4, 255, 64, 64⟩, pb := ⟨[true, false, true], 3⟩, path := ⟨[true, true], 2⟩ }).errAct = 5 := by
  decide +kernel

/-- V20 c, e. -/
theorem test_bb_read_bit :
    (after (.bbReadBit .pb) { small with pb := ⟨[false, true, true, true], 4⟩, arg := 3 }).res = 1 := by decide +kernel
theorem test_bb_read_bit_beyond :
    (after (.bbReadBit .pb) { small with pb := ⟨[false, true, true, true], 4⟩, arg := 4, res := 7 }).res = 7 := by
  decide +kernel

/-- V20 h, g. -/
theorem test_bb_remove_last :
    (after (.bbRemoveLast .pb) { small with pb := ⟨[true, false, true], 3⟩ }).pb = ⟨[true, false], 3⟩ := by decide +kernel
theorem test_bb_remove_last_empty : (after (.bbRemoveLast .pb) small).status = 0x22 := by decide +kernel

/-- V20 j. -/
theorem test_bb_clear : (after (.bbClear .pb) { small with pb := ⟨[true, true, true, true], 4⟩ }).pb = ⟨[], 4⟩ := by
  decide +kernel

/-- V20 l, ac. -/
theorem test_bb_len : (after (.bbLen .pb) { small with pb := ⟨v10bits, 9⟩ }).res = 9 := by decide +kernel
theorem test_bb_len_codeword : (after (.bbLen (.cw 2)) v10coded).res = 2 := by decide +kernel

/-- V20 m, o. -/
theorem test_bb_bytecount : (after (.bbBytecount .pb) { small with pb := ⟨v10bits, 9⟩ }).res = 2 := by decide +kernel
theorem test_bb_bytecount_whole :
    (after (.bbBytecount .pb) { small with pb := ⟨List.replicate 8 false, 8⟩ }).res = 1 := by decide +kernel

/-- V20 r, q: bit 0 is the least significant. -/
theorem test_bb_to_bytes :
    (after (.bbToBytes .pb)
      { small with pb := ⟨[true, true, false, true, false, false, false, false, true, true], 10⟩ }).out = [0x0B, 0x03] := by
  decide +kernel
theorem test_bb_to_bytes_order :
    (after (.bbToBytes .pb)
      { small with pb := ⟨[false, true, false, true, false, true, false, true], 8⟩ }).out = [0xAA] := by decide +kernel

/-- V20 u: no stale bit is fixed, the bits at and above hwm are 0. -/
theorem test_bb_to_bytes_stale (m : Nat) : ∃ x y z : Bool,
    (after (.bbToBytes .pb) { small with pb := ⟨[false], 4⟩, draws := m }).out =
      [byteOfBits fun i => (i == 1 && x) || (i == 2 && y) || (i == 3 && z)] :=
  ⟨Config.freeBit m, Config.freeBit (m + 1), Config.freeBit (m + 2), by
    simp [after, exec, execBbToBytes, finishOut, bbToBytesBody, State.buf, small, State.resetWith, ceil8, BitBuf.len,
      BitBuf.pack, BitBuf.packedBit, byteOfBits, State.endOk]⟩

/-- V10, V23: counts by unsigned byte value. -/
theorem test_ft_count : (let t := after .ftCount { small with inp := [0xFF, 1, 0xFF, 1, 0x80, 0x7F] }
    (tget t.freq 0xFF, tget t.freq 1, tget t.freq 0x80, tget t.freq 0)) = (2, 2, 1, 0) := by decide +kernel

/-- V10 (a leaf before an internal node of equal weight), V24 (the signed tie). -/
theorem test_ht_build :
    (after .htBuild v10).tree = .multi 6 (.leaf 1 3) (.internal 3 (.leaf 3 1) (.leaf 2 2) 0) 1 := by
  rw [after_htBuild v10_build]
theorem test_ht_build_signed_tie :
    mergeLoop 2 0 [.leaf 0x00 1, .leaf 0xFF 1] = [.internal 2 (.leaf 0xFF 1) (.leaf 0x00 1) 0] := by decide +kernel

/-- V10, V21. -/
theorem test_ht_infer_map : (let t := after .htInferMap { v10 with tree := v10coded.tree }
    ((tget t.cw 1).bits, (tget t.cw 3).bits, (tget t.cw 2).bits, t.path)) =
      ([false], [true, false], [true, true], ⟨[], 2⟩) := by decide +kernel
theorem test_ht_infer_map_single : (tget (after .htInferMap single).cw 0x41).bits = [false] := by decide +kernel

/-- V28. -/
theorem test_ht_decode_one : (let t := after .htDecodeOne { v10coded with pb := ⟨v10bits, 9⟩, cur := 1 }
    (t.res, t.cur)) = (2, 3) := by decide +kernel
theorem test_ht_decode_one_overrun : (let t := after .htDecodeOne { v10coded with pb := ⟨v10bits, 9⟩, cur := 0xFFFFFFFF }
    (t.status, t.errExp, t.errAct)) = (4, 9, 0xFFFFFFFF) := by decide +kernel

/-- V10, V29. -/
theorem test_enc_encode : (after .encEncode v10coded).pb = ⟨v10bits, 9⟩ := by decide +kernel
theorem test_enc_encode_missing : (let t := after .encEncode { v10coded with inp := [1, 2, 4, 1] }
    (t.status, t.errExp, t.errAct)) = (5, 4, 2) := by decide +kernel

/-- V10, V31 b. -/
theorem test_dec_decode : (after .decDecode { v10coded with pb := ⟨v10bits, 9⟩ }).out = [1, 2, 3, 1, 2, 1] := by decide +kernel
theorem test_dec_decode_overrun :
    (let t := after .decDecode { v10coded with pb := ⟨v10bits.dropLast ++ [true], 9⟩, out := [7] }
     (t.status, t.errAct, t.out)) = (4, 8, []) := by decide +kernel

/-- V32. -/
theorem test_ct_serialize : (after .ctSerialize { v10 with pb := ⟨v10bits, 9⟩ }).out = v10container :=
  (after_ctSerialize (s := { v10 with pb := ⟨v10bits, 9⟩ }) (es := [1, 2, 3]) v10_entries (by decide) (by decide)).2.trans
    (by decide +kernel)

/-- V30 l, r. -/
theorem test_ct_deserialize : (let t := after .ctDeserialize { small with inp := v10container }
    (t.pb, tget t.freq 1, tget t.freq 2, tget t.freq 3)) = (⟨v10bits, 9⟩, 3, 2, 1) := by decide +kernel
theorem test_ct_deserialize_no_wrap :
    (let t := after .ctDeserialize
      { small with inp := [0xC0, 0xDE, 0x0D, 0xDE, 0xFF, 0xFF, 0xFF, 0xFF, 0, 0, 0, 0] ++ List.replicate 100 0 }
     (t.status, t.errExp, t.errAct)) = (0x53, 0x500000007, 112) := by decide +kernel

/-- V10. -/
theorem test_compress : (after .compress v10in).status = 0 ∧ (after .compress v10in).out = v10container := by decide +kernel

/-- V10. -/
theorem test_decompress : (after .decompress { small with inp := v10container }).out = [1, 2, 3, 1, 2, 1] := by decide +kernel

/-- V33: a refused word leaves only the error record. -/
theorem test_refused_word : step { small with host := [.writeReg 0 0x100] } =
    .next { small with status := 0x27, errAct := 0x100 } := rfl

/-- The command word placed for the next step is the one it runs. -/
theorem test_withFetchWord : step (small.withFetchWord 32 0x20) = exec .ftCount small := rfl

/-! ## Witnesses: for every statement with hypotheses, a state and operands that meet them, one for each clause -/

/-- V10's entries in table order. -/
def v10entries : List (Byte × Nat) := [(1, 3), (2, 2), (3, 1)]

theorem coded_inv_with (c : Config) (m : Memory) (o : Memory) (p : BitBuf) (hc : c.wf) (hm : m.wf c.capIn) (ho : o.wf c.capOut)
    (hp : p.wf c.capPb) : BlockInv { coded with cfg := c, inp := m, out := o, pb := p } where
  cfg := hc
  inp := hm
  out := ho
  pb := hp
  path := ⟨coded_inv.path.1, Nat.le_trans (show 1 ≤ 255 by decide) hc.2.1.1⟩
  map := coded_inv.map
  tree := coded_inv.tree
  info := coded_inv.info
  status := coded_inv.status

theorem holds_v10 : Holds [0xCE, 0x00] v10bits := by unfold Holds; decide

theorem entries_v10 : TableEntries v10entries := by unfold TableEntries; decide

theorem container_v10 : IsContainer v10container v10entries v10bits :=
  ⟨entries_v10, by decide, [0xCE, 0x00], by decide, holds_v10⟩

theorem witness_StepRunsTheDecodedCommand :
    ({ small with host := [.writeReg 0x000 0x20] } : State).host = .writeReg 0x000 0x20 :: [] ∧ decode 0x20 = .ok .ftCount := by
  decide

/-- Each clause at its boundary: the opcode after the last row's, A = 0xFF and 0x102 of a "PB or PATH" field, 0x102 of an "any"
field, B = 0x102, B = A, and legal words with A = 0x100 and 0x101. -/
theorem witness_IllegalWordsFailAtTheFirstCheck :
    (∀ r ∈ tableRows, (0x62 : Word).extractLsb' 0 8 ≠ r.1) ∧
    ((0x00, 0xFFFFFFFF) ∈ tableRows ∧ (0x100 : Word).extractLsb' 0 8 = 0x00 ∧ (0x100 : Word) &&& 0xFFFFFFFF ≠ 0) ∧
    ((0x10, 0xFFFE00FF) ∈ tableRows ∧ (0x0000FF10 : Word) &&& 0xFFFE00FF = 0x10 ∧ (0x00010210 : Word) &&& 0xFFFE00FF = 0x10 ∧
      (0x10 : BitVec 8) ∈ dstOpcodes ∧ (0x0000FF10 : Word).extractLsb' 8 9 = 0xFF#9 ∧
      (0x00010210 : Word).extractLsb' 8 9 = 0x102#9) ∧
    ((0x13, 0xFFFE00FF) ∈ tableRows ∧ (0x00010213 : Word) &&& 0xFFFE00FF = 0x13 ∧ (0x13 : BitVec 8) ∈ anyOpcodes ∧
      0x101 < ((0x00010213 : Word).extractLsb' 8 9).toNat) ∧
    ((0x02050012 : Word) &&& 0xFC0000FF = 0x12 ∧ (0x02050012 : Word).extractLsb' 8 9 = 0x100#9 ∧
      0x101 < ((0x02050012 : Word).extractLsb' 17 9).toNat) ∧
    ((0x02010012 : Word) &&& 0xFC0000FF = 0x12 ∧ (0x02010012 : Word).extractLsb' 8 9 = 0x100#9 ∧
      (0x02010012 : Word).extractLsb' 17 9 = (0x02010012 : Word).extractLsb' 8 9) ∧
    ((0x12, 0xFC0000FF) ∈ tableRows ∧ (0x02010112 : Word) &&& 0xFC0000FF = 0x12 ∧
      (0x02010112 : Word).extractLsb' 8 9 = 0x101#9 ∧ ((0x02010112 : Word).extractLsb' 17 9).toNat ≤ 0x101 ∧
      (0x02010112 : Word).extractLsb' 17 9 ≠ (0x02010112 : Word).extractLsb' 8 9) ∧
    (({ small with host := [.writeReg 0x000 0x100] } : State).host = .writeReg 0x000 0x100 :: [] ∧
      decode 0x100 = .error .reservedBits) := by
  refine ⟨by simp [tableRows], ?_, ?_, ?_, ?_, ?_, ?_, rfl, ?_⟩ <;> decide

theorem witness_NopErasesTheErrorRecord : (0x100 : Word).extractLsb' 0 8 = 0 ∧ (0x100 : Word) ≠ 0 := by decide

/-- The first and the last reserved selector. -/
theorem witness_SelectorsNameTheirBuffers : 0x101 < (0x102#9).toNat ∧ 0x101 < (0x1FF#9).toNat := by decide

theorem witness_DecodeOfEncodeIsTheCommand : (Instr.bbAppendFrom .path (.cw 0xFF)).WellFormed := by decide

theorem witness_EncodeOfDecodeIsTheWord : decode 0x0000FF13 = .ok (.bbReadBit (.cw 0xFF)) := by decide

/-- A load of exactly CAP_IN bytes. -/
theorem witness_HostLoadReplacesIn : ({ small with cfg := ⟨16, 255, 2, 64⟩, host := [.loadIn [1, 2]] } : State).host =
      .loadIn [1, 2] :: [] ∧ ([1, 2] : List Byte).length ≤ 2 ∧ 2 < 2 ^ 32 := by decide

/-- A load of CAP_IN + 1 bytes. -/
theorem witness_OverlongHostLoadStops : ({ small with cfg := ⟨16, 255, 2, 64⟩, host := [.loadIn [1, 2, 3]] } : State).host =
      .loadIn [1, 2, 3] :: [] ∧ 2 < ([1, 2, 3] : List Byte).length := by decide

/-- The unlisted numbers at both ends, FREQ's first and last, ARG, CUR, and CMD with a legal and an illegal word. -/
theorem witness_RegisterPortReadsAndWrites :
    (0x009 < (0x00A#9).toNat ∧ (0x0FF#9).toNat < 0x100) ∧ BitVec.ofNat 9 (0x100 + (0x00#8).toNat) = 0x100#9 ∧
    BitVec.ofNat 9 (0x100 + (0xFF#8).toNat) = 0x1FF#9 ∧
    (∀ op : HostOp, ({ small with host := [op] } : State).host = op :: []) ∧
    (0x001#9 ≠ 0x000 ∧ 0x001#9 ≠ 0x005 ∧ 0x001#9 ≠ 0x006 ∧ (0x001#9).toNat < 0x100) ∧
    decode 0x20 = .ok .ftCount ∧ decode 0x100 = .error .reservedBits := by
  refine ⟨by decide, by decide, by decide, fun _ => rfl, by decide, by decide, by decide⟩

theorem witness_HostReadsReturnTheStreams : ({ coded with host := [.readOut] } : State).host = .readOut :: [] ∧
    ({ coded with host := [.readIn] } : State).host = .readIn :: [] := ⟨rfl, rfl⟩

theorem witness_ResetSignalRestoresEveryReset : ({ coded with host := [.reset, .readIn] } : State).host = .reset :: [.readIn] := rfl

theorem witness_BbAppendBitPushesOneBit : (coded.buf Dst.pb.sel).len ≠ coded.dstCap .pb ∧
    (let s : State := { coded with cfg := ⟨3, 255, 64, 64⟩ }; (s.buf Dst.pb.sel).len = s.dstCap .pb) := by decide

/-- The sum exactly at the capacity, one above it, and the destination itself. -/
theorem witness_BbAppendFromAppendsTheSource :
    (let s : State := { coded with cfg := ⟨4, 255, 64, 64⟩, inp := [], out := [], pb := ⟨[true, false, true], 3⟩ }
     BlockInv s ∧ Dst.pb.sel ≠ .cw 0x41 ∧ (s.buf .pb).len + (s.buf (.cw 0x41)).len = s.dstCap .pb) ∧
    (let s : State := { coded with cfg := ⟨3, 255, 64, 64⟩, inp := [], out := [], pb := ⟨[true, false, true], 3⟩ }
     BlockInv s ∧ s.dstCap .pb < (s.buf .pb).len + (s.buf (.cw 0x41)).len) ∧ Dst.pb.sel = .pb :=
  ⟨⟨coded_inv_with _ _ _ _ (by decide) (by decide) (by decide) (by decide), by decide, by decide +kernel⟩,
    ⟨coded_inv_with _ _ _ _ (by decide) (by decide) (by decide) (by decide), by decide +kernel⟩, rfl⟩

/-- The last index and the length itself. -/
theorem witness_BbReadBitReadsTheBitAtArg :
    (let s : State := { coded with arg := 2 }; s.arg.toNat < (s.buf .pb).bits.length) ∧
    (let s : State := { coded with arg := 3 }; (s.buf .pb).len ≤ s.arg.toNat) := by decide

theorem witness_BbRemoveLastDropsOneBit :
    (coded.buf Dst.pb.sel).bits = [true, false] ++ [true] ∧ (coded.buf Dst.path.sel).bits = [] := by decide

theorem witness_BbLenReturnsTheLength : BlockInv coded ∧ Sel.cw 0x43 = .cw 0x43 ∧ tget coded.cwValid 0x43 = false :=
  ⟨coded_inv, rfl, by decide +kernel⟩

theorem witness_BbBytecountReturnsTheByteCount : BlockInv coded := coded_inv

/-- A pack that fits exactly with a stale bit below hwm, and one byte too many. -/
theorem witness_BbToBytesPacksTheBits :
    (let s : State := { coded with cfg := ⟨16, 255, 64, 1⟩, inp := [], out := [], pb := ⟨[true, false, true], 4⟩ }
     BlockInv s ∧ ((s.buf .pb).len + 7) / 8 = s.cfg.capOut ∧ (s.buf .pb).hwm ≤ 4 ∧ 4 < 8 * 1) ∧
    (let s : State := { coded with cfg := ⟨16, 255, 64, 1⟩, inp := [], out := [], pb := ⟨List.replicate 9 true, 9⟩ }
     BlockInv s ∧ s.cfg.capOut < ((s.buf .pb).len + 7) / 8) :=
  ⟨⟨coded_inv_with _ _ _ _ (by decide) (by decide) (by decide) (by decide), by decide⟩,
    ⟨coded_inv_with _ _ _ _ (by decide) (by decide) (by decide) (by decide), by decide⟩⟩

theorem witness_AppendedBitsReadBack : v10bits.length ≤ small.dstCap .pb ∧ v10bits.length < 2 ^ 32 ∧ 8 < v10bits.length := by
  decide

theorem witness_RemoveThenAppendReplacesTheLastBit :
    (coded.buf Dst.pb.sel).bits = [true, false] ++ [true] ∧ BlockInv coded := ⟨rfl, coded_inv⟩

theorem witness_AppendFromIsRepeatedAppendBit : Dst.path.sel ≠ .pb ∧
    (coded.buf Dst.path.sel).len + (coded.buf .pb).len ≤ coded.dstCap .path := by decide

theorem witness_UnpackOfPackIsTheBits : (⟨v10bits, 9⟩ : BitBuf).hwm = (⟨v10bits, 9⟩ : BitBuf).len := rfl

theorem witness_FtCountCountsEveryByte : BlockInv coded ∧ coded.inp ≠ [] := ⟨coded_inv, by decide⟩

theorem witness_FtCountSumsToTheInputLength : BlockInv coded ∧ coded.inp ≠ [] := ⟨coded_inv, by decide⟩

theorem coded_freq : tget coded.freq 0x41 ≠ 0 := by decide +kernel

/-- An empty table and a table of two entries. -/
theorem witness_HtBuildRunsTheQueue : (∀ b, tget small.freq b = 0) ∧ ∃ b, tget coded.freq b ≠ 0 :=
  ⟨fun b => by simp [small, State.resetWith], 0x41, coded_freq⟩

theorem witness_HtBuildTreeSizeAndWeight : ∃ b, tget coded.freq b ≠ 0 := ⟨0x41, coded_freq⟩

theorem witness_HtBuildEqualsTheTwoQueueMethod : ([.leaf 0x42 1, .leaf 0x41 2] : List Node) ≠ [] ∧
    ([.leaf 0x42 1, .leaf 0x41 2] : List Node).Perm (seeds coded.freq) ∧
    ([.leaf 0x42 1, .leaf 0x41 2] : List Node).Pairwise Before := by
  have : seeds coded.freq = [.leaf 0x41 2, .leaf 0x42 1] := by decide +kernel
  refine ⟨by simp, by rw [this]; exact .swap _ _ _, ?_⟩
  simp [Before]

/-- No tree, a tree of two leaves, a Single tree. -/
theorem witness_InferMapAssignsTheTreePaths : small.tree = .empty ∧ (BlockInv coded ∧ coded.tree ≠ .empty ∧
      (0x42, [false]) ∈ treeCodes coded.tree ∧ 0x43 ∉ (treeCodes coded.tree).map Prod.fst) ∧
    (BlockInv single ∧ single.tree = .single 0x41 1) :=
  ⟨rfl, ⟨coded_inv, by decide, by decide, by decide⟩, single_inv, rfl⟩

theorem witness_InferredMapIsPrefixFree : BlockInv coded ∧ coded.tree ≠ .empty ∧
    tget (after .htInferMap coded).cwValid 0x41 = true ∧ tget (after .htInferMap coded).cwValid 0x42 = true :=
  ⟨coded_inv, by decide, by decide +kernel, by decide +kernel⟩

theorem witness_InferredMapIsComplete : BlockInv coded ∧ coded.tree = .multi 3 (.leaf 0x42 1) (.leaf 0x41 2) 0 := ⟨coded_inv, rfl⟩

/-- No tree; a Single tree at the last bit and at the end; a codeword at the cursor, and none at the end. -/
theorem witness_HtDecodeOneWalksTheTree : small.tree = .empty ∧
    (BlockInv single ∧ single.tree = .single 0x41 1 ∧ (1#32).toNat < single.pb.len ∧ single.pb.len ≤ (2#32).toNat) ∧
    ((0x41, [true]) ∈ treeCodes coded.tree ∧ [true] <+: coded.pb.bits.drop (2#32).toNat) ∧
    (∀ c ∈ treeCodes coded.tree, ¬ c.2 <+: coded.pb.bits.drop (3#32).toNat) :=
  ⟨rfl, ⟨single_inv, rfl, by decide, by decide⟩, by decide, by decide⟩

theorem witness_DecodingAgreesWithTheInferredMap :
    (BlockInv coded ∧ coded.tree ≠ .empty ∧ coded.pb.bits.length < 2 ^ 32 ∧
      tget (after .htInferMap coded).cwValid 0x41 = true ∧
      (tget (after .htInferMap coded).cw 0x41).bits <+: coded.pb.bits.drop (2#32).toNat) ∧
    (BlockInv single ∧ single.tree ≠ .empty ∧ tget (after .htInferMap single).cwValid 0x41 = true ∧
      (∃ w, single.tree = .single 0x41 w) ∧ (1#32).toNat < single.pb.bits.length) :=
  ⟨⟨coded_inv, by decide, by decide, by decide +kernel, by decide +kernel⟩,
    ⟨single_inv, by decide, by decide +kernel, ⟨1, rfl⟩, by decide⟩⟩

/-- All codewords present and exactly CAP_PB bits; a byte without an entry; one bit too many. -/
theorem witness_EncEncodeConcatenatesCodewords :
    (let s : State := { coded with cfg := ⟨3, 255, 64, 64⟩, inp := coded.inp, out := [], pb := coded.pb }
     BlockInv s ∧ (∀ b ∈ s.inp, tget s.cwValid b = true) ∧ (s.inp.flatMap fun b => (tget s.cw b).bits).length = s.cfg.capPb) ∧
    (let s : State := { coded with cfg := small.cfg, inp := [0x41, 0x43], out := [], pb := coded.pb }
     BlockInv s ∧ s.inp = [0x41] ++ 0x43 :: [] ∧ (∀ x ∈ [0x41#8], tget s.cwValid x = true) ∧ tget s.cwValid 0x43 = false) ∧
    (let s : State := { coded with cfg := ⟨3, 255, 64, 64⟩, inp := [0x41, 0x42, 0x41, 0x42], out := [], pb := coded.pb }
     BlockInv s ∧ s.inp = [0x41, 0x42, 0x41] ++ 0x42 :: [] ∧ (∀ x ∈ [0x41#8, 0x42, 0x41], tget s.cwValid x = true) ∧
      tget s.cwValid 0x42 = true ∧
      s.cfg.capPb < ([0x41#8, 0x42, 0x41].flatMap fun x => (tget s.cw x).bits).length + (tget s.cw 0x42).bits.length) :=
  ⟨⟨coded_inv_with _ _ _ _ (by decide) (by decide) (by decide) (by decide), by decide +kernel, by decide +kernel⟩,
    ⟨coded_inv_with _ _ _ _ (by decide) (by decide) (by decide) (by decide), rfl, by decide +kernel, by decide +kernel⟩,
    ⟨coded_inv_with _ _ _ _ (by decide) (by decide) (by decide) (by decide), rfl, by decide +kernel, by decide +kernel,
      by decide +kernel⟩⟩

theorem decodesTo_coded : DecodesTo coded.tree coded.pb.bits [0x41, 0x42, 0x41] := by
  change (∀ b ∈ _, _) ∧ _
  decide

/-- No tree; PB decoded whole (a Multi and a Single tree) with OUT just large enough; a last codeword cut short; a byte too
many. -/
theorem witness_DecDecodeDecodesTheWholeBuffer : small.tree = .empty ∧
    (DecodesTo coded.tree coded.pb.bits [0x41, 0x42, 0x41] ∧ [0x41#8, 0x42, 0x41].length ≤ 3) ∧
    (DecodesTo single.tree single.pb.bits [0x41, 0x41]) ∧
    ((∀ b ∈ [1#8], b ∈ v10coded.tree.symbols) ∧ [false, true] = [1#8].flatMap (codeword v10coded.tree) ++ [true] ∧
      (∀ c ∈ treeCodes v10coded.tree, ¬ c.2 <+: [true])) ∧
    (coded.pb.bits = coded.pb.bits ++ [] ∧ [0x41#8, 0x42, 0x41].length = 2 + 1) :=
  ⟨rfl, ⟨decodesTo_coded, by decide⟩, rfl, by decide, by decide⟩

theorem witness_EncodeThenDecodeReturnsIn : BlockInv coded ∧ (∃ b, tget coded.freq b ≠ 0) ∧
    (∀ b ∈ coded.inp, tget coded.freq b ≠ 0) ∧ coded.inp.length ≤ coded.cfg.capOut ∧
    ∃ t, runCmds [.htBuild, .htInferMap, .encEncode] coded = some t ∧ t.status = 0 :=
  ⟨coded_inv, ⟨0x41, coded_freq⟩, by decide +kernel, by decide, after .encEncode (after .htInferMap (after .htBuild coded)),
    by simp [runCmds, exec_after], by
      rw [after_htBuild coded_build]; decide +kernel⟩

/-- An empty table; a container of exactly CAP_OUT bytes; one byte too many. -/
theorem witness_CtSerializeWritesTheContainer : (BlockInv small ∧ freqEntries small.freq = []) ∧
    (BlockInv { coded with cfg := ⟨16, 255, 64, 23⟩, inp := [], out := [], pb := coded.pb } ∧
      BlockInv { coded with cfg := ⟨16, 255, 64, 22⟩, inp := [], out := [], pb := coded.pb }) ∧
    freqEntries coded.freq ≠ [] ∧ 12 + 5 * (freqEntries coded.freq).length + (coded.pb.len + 7) / 8 = 23 := by
  have h : freqEntries coded.freq = [(0x41, 2), (0x42, 1)] := by decide +kernel
  refine ⟨⟨small_inv, by simp [freqEntries, small, State.resetWith]⟩,
    ⟨coded_inv_with _ _ _ _ (by decide) (by decide) (by decide) (by decide),
      coded_inv_with _ _ _ _ (by decide) (by decide) (by decide) (by decide)⟩, by simp [h], ?_⟩
  rw [h]; rfl

/-- Every clause at both ends of its range, on V10's container cut short, a wrong magic, and a container without entries. -/
theorem witness_HeaderChecksFailInOrder :
    (v10container.take 3).length < 4 ∧ ([0xC1, 0xDE, 0x0D, 0xDE] : List Byte).take 4 ≠ [0xC0, 0xDE, 0x0D, 0xDE] ∧
    (∀ n ∈ [4, 7], ((v10container.take n).take 4 = [0xC0, 0xDE, 0x0D, 0xDE] ∧ (v10container.take n).length < 8)) ∧
    (∀ n ∈ [8, 11], 8 ≤ (v10container.take n).length ∧ (v10container.take n).length < 12) ∧
    (∀ n ∈ [12, 26], le32 (((v10container.take n).drop 4).take 4) = 3 ∧ (v10container.take n).length < 12 + 5 * 3) ∧
    (∀ n ∈ [27, 28], le32 (((v10container.take n).drop 8).take 4) = 9 ∧ 12 + 5 * 3 ≤ (v10container.take n).length ∧
      (v10container.take n).length < 12 + 5 * 3 + (9 + 7) / 8) ∧
    (le32 ((([0xC0, 0xDE, 0x0D, 0xDE, 0, 0, 0, 0, 0, 0, 0, 0] : List Byte).drop 4).take 4) = 0) := by decide

/-- A zero count (also with a symbol met before), and a symbol met before. -/
theorem witness_BadTableEntriesAreRefused : ([(1, 1)] : List (Byte × Nat)).map Prod.fst = [1] ∧ [1#8].Nodup ∧
    headBytes ([(1, 1)] ++ (2, 0) :: []) 1 ++ [0] =
      [0xC0, 0xDE, 0x0D, 0xDE, 2, 0, 0, 0, 1, 0, 0, 0, 1, 1, 0, 0, 0, 2, 0, 0, 0, 0, 0] ∧
    headBytes ([(1, 1)] ++ (1, 2) :: []) 1 ++ [0] =
      [0xC0, 0xDE, 0x0D, 0xDE, 2, 0, 0, 0, 1, 0, 0, 0, 1, 1, 0, 0, 0, 1, 2, 0, 0, 0, 0] ∧
    (1 + 7) / 8 ≤ ([0] : List Byte).length := by decide

/-- Bits exactly at CAP_PB, and one too many. -/
theorem witness_CtDeserializeReadsTheContainer : IsContainer v10container v10entries v10bits ∧ v10bits.length ≤ 9 ∧
    8 < v10bits.length := ⟨container_v10, by decide⟩

theorem witness_DeserializeInvertsSerialize : BlockInv coded ∧ exec .ctSerialize coded = .next (after .ctSerialize coded) ∧
    (after .ctSerialize coded).status = 0 ∧ ({ small with inp := (after .ctSerialize coded).out } : State).cfg = coded.cfg :=
  ⟨coded_inv, exec_after _ _, (after_ctSerialize coded_entries (by decide) (by decide)).1, rfl⟩

/-- V10's container cut at both ends of every clause. -/
theorem witness_TruncatedContainersAreRejected : TableEntries v10entries ∧ v10bits.length < 2 ^ 32 ∧
    ([0xCE, 0x00] : List Byte).length = (v10bits.length + 7) / 8 ∧ Holds [0xCE, 0x00] v10bits ∧
    headBytes v10entries v10bits.length ++ [0xCE, 0x00] = v10container ∧
    ∀ n ∈ [0, 3, 4, 7, 8, 11, 12, 26, 27, 28], n < v10container.length :=
  ⟨entries_v10, by decide, by decide, holds_v10, by decide, by decide⟩

theorem witness_CompressOfNothingIsEmptyAlphabet : small.inp = [] := rfl

/-- A one-symbol input: COMPRESS ends `Ok`, its payload is one bit. -/
def one : State := { small with inp := [0x41] }

theorem one_inv : BlockInv one := ⟨small_inv.cfg, by decide, small_inv.out, small_inv.pb, small_inv.path, small_inv.map,
  small_inv.tree, small_inv.info, small_inv.status⟩

theorem one_counts : countBytes [0x41] = counts [(0x41, 1)] := by
  apply table_ext
  intro b
  simp only [countBytes, tget_tabulate, counts, List.foldl, tget_tset, tget_replicate]
  by_cases h : b = 0x41
  · subst h; rfl
  · rw [if_neg (Ne.symm h), List.count_eq_zero.mpr (by simpa using h)]; rfl

theorem one_entries : tableEntries (counts [(0x41, 1)]) = [0x41] := (entries_counts (by simp)).trans (by decide +kernel)

theorem one_build : buildTree (counts [(0x41, 1)]) = some (.single 0x41 1) := by
  rw [buildTree_of_entries one_entries]; decide +kernel

theorem witness_CompressWritesTheContainer : BlockInv one ∧ one.inp ≠ [] ∧ (payload one.inp).length ≤ one.cfg.capPb ∧
    12 + 5 * (countEntries one.inp).length + ((payload one.inp).length + 7) / 8 ≤ one.cfg.capOut := by
  have hp : payload one.inp = [false] := by
    simp only [payload, one, one_counts, one_build]; decide
  have he : (countEntries one.inp).length = 1 := by decide +kernel
  refine ⟨one_inv, by decide, ?_, ?_⟩
  · rw [hp]; decide
  · rw [hp, he]; decide

theorem witness_CompressDependsOnlyOnIn : one.cfg = ({ one with arg := 1, draws := 7 } : State).cfg ∧
    one.inp = ({ one with arg := 1, draws := 7 } : State).inp := ⟨rfl, rfl⟩

theorem witness_DecompressWritesTheDecodedBytes : IsContainer v10container v10entries v10bits ∧
    HoldsTable (counts [(1, 3), (2, 2), (3, 1)]) v10entries ∧
    buildTree (counts [(1, 3), (2, 2), (3, 1)]) = some v10coded.tree ∧
    DecodesTo v10coded.tree v10bits [1, 2, 3, 1, 2, 1] ∧ v10bits.length ≤ 16 ∧ [1, 2, 3, 1, 2, 1#8].length ≤ 64 := by
  refine ⟨container_v10, ?_, v10_build, ?_, by decide, by decide⟩
  · unfold HoldsTable; decide +kernel
  · change (∀ b ∈ _, _) ∧ _
    decide

theorem witness_DecompressInvertsCompress : BlockInv v10in ∧ v10in.inp ≠ [] ∧
    exec .compress v10in = .next (after .compress v10in) ∧ (after .compress v10in).status = 0 ∧
    v10in.inp.length ≤ v10in.cfg.capOut :=
  ⟨⟨small_inv.cfg, by decide, small_inv.out, small_inv.pb, small_inv.path, small_inv.map, small_inv.tree, small_inv.info,
    small_inv.status⟩, by decide, exec_after _ _, test_compress.1, by decide⟩

theorem witness_CommandsRaiseOnlyTheirKinds : Instr.decompress.WellFormed ∧ BlockInv coded := ⟨by decide, coded_inv⟩

/-- A failed command that leaves OUT, and one that empties it. -/
theorem witness_FailedPrimitivesCommitNothing :
    (Primitive (.bbRemoveLast .path) ∧ exec (.bbRemoveLast .path) coded = .next (after (.bbRemoveLast .path) coded) ∧
      (after (.bbRemoveLast .path) coded).status ≠ 0) ∧
    (Primitive .decDecode ∧ exec .decDecode small = .next (after .decDecode small) ∧ (after .decDecode small).status ≠ 0) :=
  ⟨⟨by simp [Primitive], exec_after _ _, by decide +kernel⟩, by simp [Primitive], exec_after _ _, by decide +kernel⟩

theorem witness_CommandsWriteOnlyTheirState : exec .htBuild coded = .next (after .htBuild coded) := exec_after _ _

/-- A HOST with nothing waiting, and one whose load is exactly CAP_IN long. -/
theorem witness_StepsGoOnWhileTheHostKeepsItsDuty : HostDuty small ∧
    HostDuty { small with cfg := ⟨16, 255, 1, 64⟩, host := [.loadIn [7]] } := by
  constructor
  · intro bytes h; simp [small, State.resetWith] at h
  · intro bytes h
    simp only [List.mem_singleton, HostOp.loadIn.injEq] at h
    subst h; decide

theorem witness_StepKeepsTheInvariants : BlockInv coded ∧ step coded = .next coded := ⟨coded_inv, rfl⟩

theorem witness_ResetMeetsTheInvariants : (⟨1, 255, 1, 1⟩ : Config).wf := by decide

theorem witness_FirstCommandAfterReset : Dst.pb.sel ≠ .path := by decide

end Sys2Proof.Tests
end

section
/-! SUPPORT. How every command ends, as one equation over the stages it runs; a property that every stage and every ending keeps,
every command keeps. -/

namespace Sys2Proof.Machine

open Sys2Proof.Claims

/-- The bodies a command runs in order: one for a primitive command, the stages of a composite (R211, R226). -/
def commandStages : Instr → List Body
  | .nop => [.ok]
  | .bbInit dst => [bbInitBody dst]
  | .bbAppendBit dst bit => [bbAppendBitBody dst bit]
  | .bbAppendFrom dst src => [bbAppendFromBody dst src]
  | .bbReadBit sel => [bbReadBitBody sel]
  | .bbRemoveLast dst => [bbRemoveLastBody dst]
  | .bbClear dst => [bbClearBody dst]
  | .bbLen sel => [bbLenBody sel]
  | .bbBytecount sel => [bbBytecountBody sel]
  | .bbToBytes sel => [bbToBytesBody sel]
  | .ftCount => [ftCountBody]
  | .htBuild => [htBuildBody]
  | .htInferMap => [inferMapBody (encode .htInferMap)]
  | .htDecodeOne => [decodeOneBody (encode .htDecodeOne)]
  | .encEncode => [encodeBody]
  | .decDecode => [decodeBody (encode .decDecode)]
  | .ctSerialize => [serializeBody]
  | .ctDeserialize => [deserializeBody]
  | .compress => compressStages
  | .decompress => decompressStages

/-- The state a command leaves, from what its stages answered: the error registers written, and OUT emptied by the error of a
command that writes OUT (R226, R227). -/
def endState (emptiesOut : Bool) : State × Option Err → State
  | (t, none) => t.endOk
  | (t, some e) => (if emptiesOut then t.emptyOut else t).takeError e

theorem finish_eq (body : Body) (s : State) : finish body s = .next (endState false (runStages [body] s)) := by
  cases h : body s with
  | ok t => simp [finish, runStages, endState, h]
  | error e => simp [finish, runStages, endState, h]

theorem finishOut_eq (body : Body) (s : State) : finishOut body s = .next (endState true (runStages [body] s)) := by
  cases h : body s with
  | ok t => simp [finishOut, runStages, endState, h]
  | error e => simp [finishOut, runStages, endState, h]

theorem finishComposite_eq (stages : List Body) (s : State) :
    finishComposite stages s = .next (endState true (runStages stages s)) := by
  rcases h : runStages stages s with ⟨t, _ | e⟩
  · simp [finishComposite, endState, h]
  · simp [finishComposite, endState, h]

/-- Every command runs its stages and ends. -/
theorem exec_eq_endState (i : Instr) (s : State) :
    exec i s = .next (endState (writesOut i) (runStages (commandStages i) s)) := by
  cases i with
  | nop => exact finish_eq .ok s
  | bbInit dst => exact finish_eq (bbInitBody dst) s
  | bbAppendBit dst bit => exact finish_eq (bbAppendBitBody dst bit) s
  | bbAppendFrom dst src => exact finish_eq (bbAppendFromBody dst src) s
  | bbReadBit sel => exact finish_eq (bbReadBitBody sel) s
  | bbRemoveLast dst => exact finish_eq (bbRemoveLastBody dst) s
  | bbClear dst => exact finish_eq (bbClearBody dst) s
  | bbLen sel => exact finish_eq (bbLenBody sel) s
  | bbBytecount sel => exact finish_eq (bbBytecountBody sel) s
  | bbToBytes sel => exact finishOut_eq (bbToBytesBody sel) s
  | ftCount => exact finish_eq ftCountBody s
  | htBuild => exact finish_eq htBuildBody s
  | htInferMap => exact finish_eq (inferMapBody (encode .htInferMap)) s
  | htDecodeOne => exact finish_eq (decodeOneBody (encode .htDecodeOne)) s
  | encEncode => exact finish_eq encodeBody s
  | decDecode => exact finishOut_eq (decodeBody (encode .decDecode)) s
  | ctSerialize => exact finishOut_eq serializeBody s
  | ctDeserialize => exact finish_eq deserializeBody s
  | compress => exact finishComposite_eq compressStages s
  | decompress => exact finishComposite_eq decompressStages s

/-- What the ending keeps of any state, whatever the stages answered. -/
theorem endState_keeps {P : State → Prop} (hok : ∀ u, P u → P u.endOk) (herr : ∀ u e, P u → P (u.takeError e))
    (hout : ∀ u, P u → P u.emptyOut) (b : Bool) {r : State × Option Err} (hr : P r.1) : P (endState b r) := by
  rcases r with ⟨u, _ | e⟩
  · exact hok u hr
  · cases b with
    | false => exact herr u e hr
    | true => exact herr _ e (hout u hr)

/-- What every stage and every ending keep, the command keeps. -/
theorem exec_keeps {P : State → Prop} {i : Instr} {s t : State}
    (hstage : ∀ body ∈ commandStages i, ∀ u v, P u → body u = .ok v → P v) (hok : ∀ u, P u → P u.endOk)
    (herr : ∀ u e, P u → P (u.takeError e)) (hout : ∀ u, P u → P u.emptyOut) (h : exec i s = .next t) (hs : P s) : P t := by
  rw [exec_eq_endState, Host.Outcome.next.injEq] at h
  rw [← h]
  exact endState_keeps hok herr hout _ (runStages_keeps hstage hs)

/-- Every stage of every command keeps IN, ARG, the parameters and the HOST's queue, and OUT's form. -/
theorem commandStages_streams (i : Instr) : ∀ body ∈ commandStages i, KeepsStreams body := by
  cases i with
  | compress => exact compressStages_streams
  | decompress => exact decompressStages_streams
  | nop => exact List.forall_mem_singleton.mpr nop_streams
  | bbInit dst => exact List.forall_mem_singleton.mpr (bbInit_streams dst)
  | bbAppendBit dst bit => exact List.forall_mem_singleton.mpr (bbAppendBit_streams dst bit)
  | bbAppendFrom dst src => exact List.forall_mem_singleton.mpr (bbAppendFrom_streams dst src)
  | bbReadBit sel => exact List.forall_mem_singleton.mpr (bbReadBit_streams sel)
  | bbRemoveLast dst => exact List.forall_mem_singleton.mpr (bbRemoveLast_streams dst)
  | bbClear dst => exact List.forall_mem_singleton.mpr (bbClear_streams dst)
  | bbLen sel => exact List.forall_mem_singleton.mpr (bbLen_streams sel)
  | bbBytecount sel => exact List.forall_mem_singleton.mpr (bbBytecount_streams sel)
  | bbToBytes sel => exact List.forall_mem_singleton.mpr (bbToBytes_streams sel)
  | ftCount => exact List.forall_mem_singleton.mpr ftCount_streams
  | htBuild => exact List.forall_mem_singleton.mpr htBuild_streams
  | htInferMap => exact List.forall_mem_singleton.mpr (inferMap_streams _)
  | htDecodeOne => exact List.forall_mem_singleton.mpr (decodeOne_streams _)
  | encEncode => exact List.forall_mem_singleton.mpr encode_streams
  | decDecode => exact List.forall_mem_singleton.mpr (decode_streams _)
  | ctSerialize => exact List.forall_mem_singleton.mpr serialize_streams
  | ctDeserialize => exact List.forall_mem_singleton.mpr deserialize_streams

/-- No command changes the parameters or the HOST's queue. -/
theorem exec_keeps_cfg_host {i : Instr} {s t : State} (h : exec i s = .next t) : t.cfg = s.cfg ∧ t.host = s.host := by
  refine exec_keeps (P := fun u => u.cfg = s.cfg ∧ u.host = s.host) ?_ (fun _ hu => hu) (fun _ _ hu => hu) (fun _ hu => hu) h
    ⟨rfl, rfl⟩
  intro body hb u v ⟨hc, hh⟩ hv
  obtain ⟨hc', -, hh', -, -⟩ := commandStages_streams i body hb u v hv
  exact ⟨hc'.trans hc, hh'.trans hh⟩

end Sys2Proof.Machine
end

section
/-! SUPPORT. The invariants of BlockInv: what each update of the state needs to keep them, that every stage of every command
makes only such updates, and so that every command, HOST operation and step keeps them. -/

namespace Sys2Proof.Machine

open Sys2Proof.Claims

/-! ## STATUS of an error (R28, R220 to R225) -/

theorem Err.kind_bounds (e : Err) : 1 ≤ e.kind ∧ e.kind ≤ 7 := by cases e <;> simp [Err.kind]

theorem FormatSub.code_lt (sub : FormatSub) : sub.code < 16 := by cases sub <;> decide

theorem IllegalSub.code_lt : ∀ sub : IllegalSub, sub.code < 16
  | .decode e => by cases e <;> decide
  | .noTree => by decide

theorem Err.sub_lt (e : Err) : e.sub < 16 := by
  cases e with
  | format sub exp act => exact sub.code_lt
  | illegal sub w => exact sub.code_lt
  | _ => simp [Err.sub]

theorem statusErr_statusWord {kind : Nat} (sub : Nat) (hk : kind < 16) : (statusErr (statusWord kind sub)).toNat = kind := by
  simp only [statusErr, statusWord, BitVec.extractLsb'_toNat, BitVec.toNat_ofNat, Nat.shiftRight_zero]
  omega

theorem statusSub_statusWord {kind sub : Nat} (hk : kind < 16) (hs : sub < 16) :
    (statusSub (statusWord kind sub)).toNat = sub := by
  simp only [statusSub, statusWord, BitVec.extractLsb'_toNat, BitVec.toNat_ofNat, Nat.shiftRight_eq_div_pow]
  omega

/-- An error's STATUS has a legal kind and sub-code, and is not `Ok`. -/
theorem statusWf_takeError (s : State) (e : Err) : statusWf (s.takeError e) := by
  obtain ⟨hpos, hle⟩ := e.kind_bounds
  have hkind : (statusErr e.status).toNat = e.kind := statusErr_statusWord e.sub (by omega)
  have hsub : (statusSub e.status).toNat = e.sub := statusSub_statusWord (by omega) e.sub_lt
  refine ⟨by rw [State.takeError_status, hkind, hsub]; rfl, by rw [State.takeError_status, hkind]; exact hle, fun h0 => ?_⟩
  rw [State.takeError_status] at h0
  rw [h0] at hkind
  change 0 = e.kind at hkind
  omega

theorem statusWf_of_ok {s : State} (hs : s.status = 0) (he : s.errExp = 0) (ha : s.errAct = 0) : statusWf s :=
  ⟨by rw [hs]; decide, by rw [hs]; decide, fun _ => ⟨hs, he, ha⟩⟩

/-! ## Bit buffers (R30, R31) -/

theorem BitBuf.created_wf (cap : Nat) : BitBuf.created.wf cap := ⟨Nat.le_refl 0, Nat.zero_le cap⟩

theorem BitBuf.fresh_wf {cap : Nat} {bits : List Bool} (h : bits.length ≤ cap) : (BitBuf.fresh bits).wf cap :=
  ⟨Nat.le_refl _, h⟩

theorem BitBuf.push_wf {cap : Nat} {b c : BitBuf} {bit : Bool} (hb : b.wf cap) (h : b.push cap bit = .ok c) : c.wf cap := by
  obtain ⟨hl, hc⟩ := hb
  by_cases hf : b.len = cap
  · simp [BitBuf.push_full bit hf] at h
  · rw [BitBuf.push_ok bit hf, Except.ok.injEq] at h
    subst h
    simp only [BitBuf.wf, BitBuf.len, List.length_append, List.length_singleton] at *
    omega

theorem BitBuf.pushAll_wf {cap : Nat} {b c : BitBuf} {bits : List Bool} (hb : b.wf cap) (hfit : b.len + bits.length ≤ cap)
    (h : b.pushAll cap bits = .ok c) : c.wf cap := by
  rw [BitBuf.pushAll_ok bits hb.1 hfit, Except.ok.injEq] at h
  subst h
  have := hb.2
  simp only [BitBuf.wf, BitBuf.len, List.length_append] at *
  omega

theorem BitBuf.pop_wf {cap : Nat} {b c : BitBuf} (hb : b.wf cap) (h : b.pop = .ok c) : c.wf cap := by
  obtain ⟨hl, hc⟩ := hb
  unfold BitBuf.pop at h
  split at h
  · simp at h
  · rw [Except.ok.injEq] at h
    subst h
    simp only [BitBuf.wf, BitBuf.len, List.length_dropLast] at *
    omega

/-! ## The codeword map (R33) -/

theorem mapEntryWf_created : mapEntryWf false BitBuf.created := ⟨BitBuf.created_wf _, fun _ => rfl, by simp⟩

theorem mapEntryWf_fresh {bits : List Bool} (hpos : 1 ≤ bits.length) (hle : bits.length ≤ capCw) :
    mapEntryWf true (BitBuf.fresh bits) := ⟨BitBuf.fresh_wf hle, by simp, fun _ => hpos⟩

/-! ## One rule per update of the state -/

theorem BlockInv.endOk {s : State} (h : BlockInv s) : BlockInv s.endOk :=
  { h with status := statusWf_of_ok rfl rfl rfl }

theorem BlockInv.takeError {s : State} (h : BlockInv s) (e : Err) : BlockInv (s.takeError e) :=
  { h with status := statusWf_takeError s e }

theorem BlockInv.emptyOut {s : State} (h : BlockInv s) : BlockInv s.emptyOut := { h with out := Nat.zero_le _ }

theorem BlockInv.setRes {s : State} (h : BlockInv s) (n : Nat) : BlockInv (s.setRes n) := { h with }

theorem BlockInv.dst_wf {s : State} (h : BlockInv s) (dst : Dst) : (s.buf dst.sel).wf (s.dstCap dst) := by
  rw [← s.selCap_dst]; exact h.buf_wf dst.sel

theorem BlockInv.setBuf {s : State} (h : BlockInv s) {dst : Dst} {b : BitBuf} (hb : b.wf (s.dstCap dst)) :
    BlockInv (s.setBuf dst b) := by
  cases dst with
  | pb => exact { h with pb := hb }
  | path => exact { h with path := hb }

/-- The map and PATH replaced. -/
theorem BlockInv.withMap {s : State} (h : BlockInv s) {cw : Table BitBuf} {valid : Table Bool} {path : BitBuf}
    (hm : ∀ b, mapEntryWf (tget valid b) (tget cw b)) (hp : path.wf s.cfg.capPath) :
    BlockInv { s with cw := cw, cwValid := valid, path := path } := { h with map := hm, path := hp }

theorem BlockInv.clearMap {s : State} (h : BlockInv s) : BlockInv s.clearMap :=
  h.withMap (fun b => by rw [tget_tabulate, tget_tabulate]; exact mapEntryWf_created) h.path

theorem BlockInv.resetWith {c : Config} (hc : c.wf) : BlockInv (State.resetWith c) where
  cfg := hc
  inp := Nat.zero_le _
  out := Nat.zero_le _
  pb := BitBuf.created_wf _
  path := BitBuf.created_wf _
  map b := by simp only [State.resetWith, tget_replicate]; exact mapEntryWf_created
  tree := trivial
  info := rfl
  status := statusWf_of_ok rfl rfl rfl

theorem BlockInv.afterReset {s : State} (h : BlockInv s) : BlockInv s.afterReset := { BlockInv.resetWith h.cfg with }

theorem BlockInv.writeReg {s : State} (h : BlockInv s) (n : BitVec 9) (v : Word) : BlockInv (s.writeReg n v) := by
  unfold State.writeReg
  split_ifs <;> exact { h with }

/-! ## Every stage keeps the invariants -/

/-- A body that succeeds keeps the invariants. -/
def KeepsInv (body : Body) : Prop := ∀ s t : State, BlockInv s → body s = .ok t → BlockInv t

theorem exists_of_map_eq_ok {α β : Type} {f : α → β} {x : Except Err α} {b : β} (h : x.map f = .ok b) :
    ∃ a, x = .ok a ∧ f a = b := by
  cases x with
  | error e => simp [Except.map] at h
  | ok a => exact ⟨a, rfl, by simpa [Except.map] using h⟩

/-- OUT of a body that keeps the streams' form fits after it. -/
theorem KeepsStreams.out_wf {body : Body} (hk : KeepsStreams body) {s t : State} (h : BlockInv s) (ht : body s = .ok t) :
    t.out.wf t.cfg.capOut := (hk.wf ht ⟨h.inp, h.out⟩).2

theorem nop_inv : KeepsInv .ok := by
  intro s t h ht
  rw [Except.ok.injEq] at ht
  exact ht ▸ h

/-- A body that writes one writable buffer keeps the invariants when what it writes fits. -/
theorem keepsInv_setBuf {dst : Dst} {f : State → Except Err BitBuf}
    (hf : ∀ s b, BlockInv s → f s = .ok b → b.wf (s.dstCap dst)) : KeepsInv fun s => (f s).map (s.setBuf dst) := by
  intro s t h ht
  obtain ⟨b, hb, rfl⟩ := exists_of_map_eq_ok ht
  exact h.setBuf (hf s b h hb)

theorem bbInit_inv (dst : Dst) : KeepsInv (bbInitBody dst) := by
  refine keepsInv_setBuf (f := fun _ => .ok BitBuf.created) fun s b _ hb => ?_
  rw [Except.ok.injEq] at hb
  exact hb ▸ BitBuf.created_wf _

theorem bbAppendBit_inv (dst : Dst) (bit : Bool) : KeepsInv (bbAppendBitBody dst bit) :=
  keepsInv_setBuf (f := fun s => (s.buf dst.sel).push (s.dstCap dst) bit) fun _ _ h hb => BitBuf.push_wf (h.dst_wf dst) hb

theorem bbAppendFrom_inv (dst : Dst) (src : Sel) : KeepsInv (bbAppendFromBody dst src) := by
  intro s t h ht
  simp only [bbAppendFromBody] at ht
  split at ht
  · simp at ht
  split at ht
  · simp at ht
  · rename_i hfit
    obtain ⟨b, hb, rfl⟩ := exists_of_map_eq_ok ht
    exact h.setBuf (BitBuf.pushAll_wf (h.dst_wf dst) (Nat.le_of_not_lt hfit) hb)

theorem bbReadBit_inv (sel : Sel) : KeepsInv (bbReadBitBody sel) := by
  intro s t h ht
  unfold bbReadBitBody at ht
  split at ht
  · simp at ht
  · rw [Except.ok.injEq] at ht
    exact ht ▸ h.setRes _

theorem bbRemoveLast_inv (dst : Dst) : KeepsInv (bbRemoveLastBody dst) :=
  keepsInv_setBuf (f := fun s => (s.buf dst.sel).pop) fun _ _ h hb => BitBuf.pop_wf (h.dst_wf dst) hb

theorem bbClear_inv (dst : Dst) : KeepsInv (bbClearBody dst) := by
  refine keepsInv_setBuf (f := fun s => .ok ⟨[], (s.buf dst.sel).hwm⟩) fun s b h hb => ?_
  rw [Except.ok.injEq] at hb
  exact hb ▸ ⟨Nat.zero_le _, (h.dst_wf dst).2⟩

theorem bbLen_inv (sel : Sel) : KeepsInv (bbLenBody sel) := by
  intro s t h ht
  rw [bbLenBody, Except.ok.injEq] at ht
  exact ht ▸ h.setRes _

theorem bbBytecount_inv (sel : Sel) : KeepsInv (bbBytecountBody sel) := by
  intro s t h ht
  rw [bbBytecountBody, Except.ok.injEq] at ht
  exact ht ▸ h.setRes _

theorem bbToBytes_inv (sel : Sel) : KeepsInv (bbToBytesBody sel) := by
  intro s t h ht
  have hout := (bbToBytes_streams sel).out_wf h ht
  simp only [bbToBytesBody] at ht
  split at ht
  · simp at ht
  · rw [Except.ok.injEq] at ht
    subst ht
    exact { h with out := hout }

theorem ftCount_inv : KeepsInv ftCountBody := by
  intro s t h ht
  rw [ftCountBody, Except.ok.injEq] at ht
  subst ht
  exact { h with }

theorem htBuild_inv : KeepsInv htBuildBody := by
  intro s t h ht
  unfold htBuildBody at ht
  split at ht
  · simp at ht
  · rename_i tree hb
    rw [Except.ok.injEq] at ht
    subst ht
    exact { h.clearMap with tree := buildTree_wf hb, info := builtInfo_eq_info hb }

/-- The map HT_INFER_MAP makes of a tree of two or more leaves: entries of 1 to 255 bits for its symbols, no other
(R160, R162). -/
theorem visit_inv {s t : State} {w : Weight} {l r : Node} {k : Nat} (h : BlockInv s)
    (hn : (Node.internal w l r k).symbols.Nodup) (ht : visit (.internal w l r k) s.beginInfer = .ok t) : BlockInv t := by
  have hdepth := longest_codes_le hn
  have hcap := h.cfg.2.1.1
  have hzero : s.beginInfer.path.len = 0 := rfl
  obtain ⟨u, hu, hframe, hcodes, hrest⟩ := visit_ok (.internal w l r k) s.beginInfer
    (by rw [hzero, State.beginInfer_cfg]; omega) (Nat.le_refl 0) hn
  rw [ht, Except.ok.injEq] at hu
  subst hu
  rw [hframe]
  refine h.withMap (fun b => ?_) ⟨Nat.zero_le _, ?_⟩
  · by_cases hb : b ∈ (Node.internal w l r k).symbols
    · rw [← codes_symbols, List.mem_map] at hb
      obtain ⟨c, hc, rfl⟩ := hb
      obtain ⟨hcw, hvalid⟩ := hcodes c hc
      rw [hcw, hvalid]
      exact mapEntryWf_fresh (treeCodes_multi_pos (wt := w) (k := k) hc) ((le_longest hc).trans hdepth)
    · obtain ⟨hcw, hvalid⟩ := hrest b hb
      rw [hcw, hvalid, State.beginInfer_cw, State.beginInfer_cwValid, tget_tabulate, tget_tabulate]
      exact mapEntryWf_created
  · change max 0 (s.beginInfer.path.len + _) ≤ _
    rw [hzero]; omega

theorem inferMap_inv (w : Word) : KeepsInv (inferMapBody w) := by
  intro s t h ht
  have htree := h.tree
  unfold inferMapBody at ht
  split at ht
  · simp at ht
  · rw [Except.ok.injEq] at ht
    subst ht
    refine h.withMap (fun b => ?_) (BitBuf.created_wf _)
    rw [State.beginInfer_cw, State.beginInfer_cwValid, tget_tset, tget_tset]
    split
    · exact mapEntryWf_fresh (by decide) (by decide)
    · rw [tget_tabulate, tget_tabulate]; exact mapEntryWf_created
  · rename_i he
    rw [he] at htree
    exact visit_inv h htree.2 ht

theorem decodeOne_inv (w : Word) : KeepsInv (decodeOneBody w) := by
  intro s t h ht
  unfold decodeOneBody at ht
  split at ht
  · simp at ht
  · rw [Except.ok.injEq] at ht
    subst ht
    exact { h with }

theorem encode_inv : KeepsInv encodeBody := by
  intro s t h ht
  obtain ⟨bits, hbits, rfl⟩ := exists_of_map_eq_ok ht
  exact { h with pb := BitBuf.fresh_wf (encodeLoop_length hbits (Nat.zero_le _)) }

theorem decode_inv (w : Word) : KeepsInv (decodeBody w) := by
  intro s t h ht
  have hout := (decode_streams w).out_wf h ht
  unfold decodeBody at ht
  split at ht
  · simp at ht
  · obtain ⟨r, -, rfl⟩ := exists_of_map_eq_ok ht
    exact { h with out := hout }

theorem serialize_inv : KeepsInv serializeBody := by
  intro s t h ht
  have hout := serialize_streams.out_wf h ht
  simp only [serializeBody] at ht
  split at ht
  · simp at ht
  split at ht
  · simp at ht
  · rw [Except.ok.injEq] at ht
    subst ht
    exact { h with out := hout }

theorem deserialize_inv : KeepsInv deserializeBody := by
  intro s t h ht
  obtain ⟨r, hr, rfl⟩ := exists_of_map_eq_ok ht
  exact { h with pb := BitBuf.fresh_wf (parseContainer_ok hr).2 }

/-! ## Commands and steps -/

/-- Every stage of every command keeps the invariants. -/
theorem commandStages_inv (i : Instr) : ∀ body ∈ commandStages i, KeepsInv body := by
  cases i with
  | compress =>
    simp only [commandStages, compressStages, List.forall_mem_cons]
    exact ⟨ftCount_inv, htBuild_inv, inferMap_inv _, encode_inv, serialize_inv, by simp⟩
  | decompress =>
    simp only [commandStages, decompressStages, List.forall_mem_cons]
    exact ⟨deserialize_inv, htBuild_inv, decode_inv _, by simp⟩
  | nop => exact List.forall_mem_singleton.mpr nop_inv
  | bbInit dst => exact List.forall_mem_singleton.mpr (bbInit_inv dst)
  | bbAppendBit dst bit => exact List.forall_mem_singleton.mpr (bbAppendBit_inv dst bit)
  | bbAppendFrom dst src => exact List.forall_mem_singleton.mpr (bbAppendFrom_inv dst src)
  | bbReadBit sel => exact List.forall_mem_singleton.mpr (bbReadBit_inv sel)
  | bbRemoveLast dst => exact List.forall_mem_singleton.mpr (bbRemoveLast_inv dst)
  | bbClear dst => exact List.forall_mem_singleton.mpr (bbClear_inv dst)
  | bbLen sel => exact List.forall_mem_singleton.mpr (bbLen_inv sel)
  | bbBytecount sel => exact List.forall_mem_singleton.mpr (bbBytecount_inv sel)
  | bbToBytes sel => exact List.forall_mem_singleton.mpr (bbToBytes_inv sel)
  | ftCount => exact List.forall_mem_singleton.mpr ftCount_inv
  | htBuild => exact List.forall_mem_singleton.mpr htBuild_inv
  | htInferMap => exact List.forall_mem_singleton.mpr (inferMap_inv _)
  | htDecodeOne => exact List.forall_mem_singleton.mpr (decodeOne_inv _)
  | encEncode => exact List.forall_mem_singleton.mpr encode_inv
  | decDecode => exact List.forall_mem_singleton.mpr (decode_inv _)
  | ctSerialize => exact List.forall_mem_singleton.mpr serialize_inv
  | ctDeserialize => exact List.forall_mem_singleton.mpr deserialize_inv

theorem exec_inv {i : Instr} {s t : State} (h : exec i s = .next t) (hs : BlockInv s) : BlockInv t :=
  exec_keeps (commandStages_inv i) (fun _ hu => hu.endOk) (fun _ e hu => hu.takeError e) (fun _ hu => hu.emptyOut) h hs

/-- Everything a command word written to CMD can do: be refused, or run. -/
theorem issue_cases {w : Word} {s t : State} (h : issue w s = .next t) :
    (∃ e, t = s.takeError e) ∨ ∃ i, decode w = .ok i ∧ exec i s = .next t := by
  unfold issue at h
  split at h
  · rw [Host.Outcome.next.injEq] at h
    exact .inl ⟨_, h.symm⟩
  · exact .inr ⟨_, ‹_›, h⟩

theorem issue_inv {w : Word} {s t : State} (h : issue w s = .next t) (hs : BlockInv s) : BlockInv t := by
  rcases issue_cases h with ⟨e, rfl⟩ | ⟨i, -, hi⟩
  · exact hs.takeError e
  · exact exec_inv hi hs

theorem hostOp_inv {op : HostOp} {s t : State} (h : hostOp op s = .next t) (hs : BlockInv s) : BlockInv t := by
  cases op with
  | loadIn bytes =>
    simp only [hostOp] at h
    split at h
    · simp at h
    · rename_i hfit
      rw [Host.Outcome.next.injEq] at h
      subst h
      exact { hs with inp := Nat.le_of_not_lt hfit }
  | readIn => rw [hostOp, Host.Outcome.next.injEq] at h; exact h ▸ hs
  | readOut => rw [hostOp, Host.Outcome.next.injEq] at h; exact h ▸ hs
  | readReg n => rw [hostOp, Host.Outcome.next.injEq] at h; exact h ▸ hs
  | writeReg n v =>
    simp only [hostOp] at h
    split at h
    · exact issue_inv h hs
    · rw [Host.Outcome.next.injEq] at h
      exact h ▸ hs.writeReg n v
  | reset => rw [hostOp, Host.Outcome.next.injEq] at h; exact h ▸ hs.afterReset

theorem step_inv {s t : State} (h : step s = .next t) (hs : BlockInv s) : BlockInv t := by
  unfold step nextEvent at h
  split at h
  · rw [Host.Outcome.next.injEq] at h; exact h ▸ hs
  · exact hostOp_inv h { hs with }

end Sys2Proof.Machine
end

section
/-! SUPPORT. A step under the HOST's duty: only an overlong load stops the machine (R12, R62, R270). -/

namespace Sys2Proof.Machine

theorem issue_next (w : Word) (s : State) : ∃ t, issue w s = .next t ∧ t.cfg = s.cfg ∧ t.host = s.host := by
  unfold issue
  split
  · exact ⟨_, rfl, rfl, rfl⟩
  · next i _ =>
    obtain ⟨t, ht⟩ := exec_next i s
    exact ⟨t, ht, exec_keeps_cfg_host ht⟩

theorem State.writeReg_keeps_cfg_host (s : State) (n : BitVec 9) (v : Word) :
    (s.writeReg n v).cfg = s.cfg ∧ (s.writeReg n v).host = s.host := by
  unfold State.writeReg
  split_ifs <;> exact ⟨rfl, rfl⟩

/-- A HOST operation that keeps the HOST's duty goes on, and leaves the parameters and the queue alone. -/
theorem hostOp_next {op : HostOp} {s : State} (h : ∀ bytes, op = .loadIn bytes → bytes.length ≤ s.cfg.capIn) :
    ∃ t, hostOp op s = .next t ∧ t.cfg = s.cfg ∧ t.host = s.host := by
  cases op with
  | loadIn bytes =>
    refine ⟨{ s with inp := bytes }, ?_, rfl, rfl⟩
    rw [hostOp, if_neg (Nat.not_lt.mpr (h bytes rfl))]
  | readIn => exact ⟨s, rfl, rfl, rfl⟩
  | readOut => exact ⟨s, rfl, rfl, rfl⟩
  | readReg n => exact ⟨s, rfl, rfl, rfl⟩
  | writeReg n v =>
    simp only [hostOp]
    split
    · exact issue_next v s
    · exact ⟨_, rfl, s.writeReg_keeps_cfg_host n v⟩
  | reset => exact ⟨_, rfl, rfl, rfl⟩

theorem step_next {s : State} (h : HostDuty s) : ∃ t, step s = .next t ∧ t.cfg = s.cfg ∧ t.host = s.host.tail := by
  unfold step nextEvent
  split
  · rename_i he
    exact ⟨s, rfl, rfl, by rw [he]; rfl⟩
  · rename_i op rest he
    rw [he]
    exact hostOp_next fun bytes hop => h bytes (by rw [he, hop]; exact List.mem_cons_self)

theorem HostDuty.of_tail {s t : State} (h : HostDuty s) (hcfg : t.cfg = s.cfg) (hhost : t.host = s.host.tail) :
    HostDuty t := by
  intro bytes hm
  rw [hhost] at hm
  rw [hcfg]
  exact h bytes (List.mem_of_mem_tail hm)

end Sys2Proof.Machine
end

section
/-! SUPPORT. The statements of the scope: the invariants at reset and over a step, and the step under the HOST's duty. -/

namespace Sys2Proof.Machine

/-- Settles O57: every part of the reset state is zero or empty. -/
theorem resetMeetsTheInvariants : Obligations.ResetMeetsTheInvariants := by
  unfold Obligations.ResetMeetsTheInvariants
  exact ⟨BlockInv.resetWith (by decide), fun _ hc => BlockInv.resetWith hc⟩

/-- Settles O55: only an overlong load stops a step, and the duty excludes it. -/
theorem stepsGoOnWhileTheHostKeepsItsDuty : Obligations.StepsGoOnWhileTheHostKeepsItsDuty := by
  unfold Obligations.StepsGoOnWhileTheHostKeepsItsDuty
  intro s h
  obtain ⟨t, ht, hcfg, hhost⟩ := step_next h
  exact ⟨t, ht, h.of_tail hcfg hhost, hhost, hcfg⟩

/-- Settles O56: every stage of every command, every ending and every HOST operation keeps the invariants. -/
theorem stepKeepsTheInvariants : Obligations.StepKeepsTheInvariants := by
  unfold Obligations.StepKeepsTheInvariants
  exact fun _ _ hs h => step_inv h hs

end Sys2Proof.Machine
end

section
/-! SUPPORT. Which parts of the state each command may write (R26): the write set of every command, every stage of a command
inside it, and so every command inside it. -/

namespace Sys2Proof.Machine

open Sys2Proof.Claims

/-- The parts of the state that some commands write on `Ok` and others do not, beside the error registers (R26). -/
inductive Part where
  | res | cur | out | tree | treeInfo | freq | cw | cwValid | pb | path

/-- What a part holds. -/
abbrev Part.Value : Part → Type
  | .res | .cur | .treeInfo => Word
  | .out => Memory
  | .tree => TreeState
  | .freq => Table Word
  | .cw => Table BitBuf
  | .cwValid => Table Bool
  | .pb | .path => BitBuf

def Part.read : (p : Part) → State → p.Value
  | .res, s => s.res
  | .cur, s => s.cur
  | .out, s => s.out
  | .tree, s => s.tree
  | .treeInfo, s => s.treeInfo
  | .freq, s => s.freq
  | .cw, s => s.cw
  | .cwValid, s => s.cwValid
  | .pb, s => s.pb
  | .path, s => s.path

/-- A writable buffer as a part of the state. -/
def Part.ofDst : Dst → Part
  | .pb => .pb
  | .path => .path

/-- The column "W on Ok" of R26. -/
def writeSet : Instr → List Part
  | .nop => []
  | .bbInit dst | .bbAppendBit dst _ | .bbAppendFrom dst _ | .bbRemoveLast dst | .bbClear dst => [.ofDst dst]
  | .bbReadBit _ | .bbLen _ | .bbBytecount _ => [.res]
  | .bbToBytes _ | .ctSerialize => [.out]
  | .ftCount => [.freq]
  | .htBuild => [.cw, .cwValid, .tree, .treeInfo]
  | .htInferMap => [.cw, .cwValid, .path]
  | .htDecodeOne => [.res, .cur]
  | .encEncode => [.pb]
  | .decDecode => [.out, .cur]
  | .ctDeserialize => [.freq, .pb]
  | .compress => [.freq, .tree, .treeInfo, .cw, .cwValid, .path, .pb, .out]
  | .decompress => [.freq, .pb, .tree, .treeInfo, .cw, .cwValid, .out, .cur]

/-- A writable buffer is PB or PATH, so the part of one is no other part. -/
theorem Part.eq_ofDst (p : Part) (dst : Dst) : p = .ofDst dst ↔ p = .pb ∧ dst = .pb ∨ p = .path ∧ dst = .path := by
  cases dst <;> simp [Part.ofDst]

/-! ## The writers of each part: the column of R26 read the other way -/

theorem res_mem_writeSet (i : Instr) : .res ∈ writeSet i ↔
    (∃ sel, i = .bbReadBit sel ∨ i = .bbLen sel ∨ i = .bbBytecount sel) ∨ i = .htDecodeOne := by
  cases i <;> simp [writeSet, Part.eq_ofDst]

theorem cur_mem_writeSet (i : Instr) : .cur ∈ writeSet i ↔ i = .htDecodeOne ∨ i = .decDecode ∨ i = .decompress := by
  cases i <;> simp [writeSet, Part.eq_ofDst]

/-- The commands that empty OUT on an error are those that write it on `Ok` (R226). -/
theorem out_mem_writeSet (i : Instr) : .out ∈ writeSet i ↔ writesOut i = true := by
  cases i <;> simp [writeSet, writesOut, Part.eq_ofDst]

theorem tree_mem_writeSet (i : Instr) : .tree ∈ writeSet i ↔ i = .htBuild ∨ i = .compress ∨ i = .decompress := by
  cases i <;> simp [writeSet, Part.eq_ofDst]

theorem treeInfo_mem_writeSet (i : Instr) : .treeInfo ∈ writeSet i ↔ .tree ∈ writeSet i := by
  cases i <;> simp [writeSet, Part.eq_ofDst]

theorem freq_mem_writeSet (i : Instr) :
    .freq ∈ writeSet i ↔ i = .ftCount ∨ i = .ctDeserialize ∨ i = .compress ∨ i = .decompress := by
  cases i <;> simp [writeSet, Part.eq_ofDst]

theorem cw_mem_writeSet (i : Instr) :
    .cw ∈ writeSet i ↔ i = .htBuild ∨ i = .htInferMap ∨ i = .compress ∨ i = .decompress := by
  cases i <;> simp [writeSet, Part.eq_ofDst]

theorem cwValid_mem_writeSet (i : Instr) : .cwValid ∈ writeSet i ↔ .cw ∈ writeSet i := by
  cases i <;> simp [writeSet, Part.eq_ofDst]

theorem pb_mem_writeSet (i : Instr) : .pb ∈ writeSet i ↔
    (∃ bit src, i = .bbInit .pb ∨ i = .bbAppendBit .pb bit ∨ i = .bbAppendFrom .pb src ∨ i = .bbRemoveLast .pb ∨
      i = .bbClear .pb) ∨ i = .encEncode ∨ i = .ctDeserialize ∨ i = .compress ∨ i = .decompress := by
  have : Nonempty Sel := ⟨.pb⟩
  cases i <;> simp [writeSet, Part.eq_ofDst]

theorem path_mem_writeSet (i : Instr) : .path ∈ writeSet i ↔
    (∃ bit src, i = .bbInit .path ∨ i = .bbAppendBit .path bit ∨ i = .bbAppendFrom .path src ∨ i = .bbRemoveLast .path ∨
      i = .bbClear .path) ∨ i = .htInferMap ∨ i = .compress := by
  have : Nonempty Sel := ⟨.pb⟩
  cases i <;> simp [writeSet, Part.eq_ofDst]

/-! ## Writing inside a set of parts -/

/-- `t` is `s` in every part outside `w`. -/
def SameOutside (w : List Part) (s t : State) : Prop := ∀ p, p ∉ w → p.read t = p.read s

/-- A body that succeeds writes no part outside `w`. -/
def WritesOnly (w : List Part) (body : Body) : Prop := ∀ s t : State, body s = .ok t → SameOutside w s t

theorem WritesOnly.mono {w w' : List Part} {body : Body} (h : WritesOnly w body) (hw : w ⊆ w') : WritesOnly w' body :=
  fun s t ht p hp => h s t ht p fun hm => hp (hw hm)

/-! ## What every stage writes -/

theorem sameOutside_setRes (s : State) (n : Nat) : SameOutside [.res] s (s.setRes n) := by
  intro p hp
  cases p <;> simp at hp <;> rfl

theorem sameOutside_setBuf (s : State) (dst : Dst) (b : BitBuf) : SameOutside [.ofDst dst] s (s.setBuf dst b) := by
  intro p hp
  cases dst <;> cases p <;> simp [Part.ofDst] at hp <;> rfl

/-- A write of OUT, with the draws it made. -/
theorem sameOutside_out (s : State) (m : Memory) (n : Nat) : SameOutside [.out] s { s with out := m, draws := n } := by
  intro p hp
  cases p <;> simp at hp <;> rfl

theorem nop_writesOnly : WritesOnly [] .ok := by
  intro s t h
  rw [Except.ok.injEq] at h
  exact fun _ _ => by rw [h]

/-- A body that writes one writable buffer, when it succeeds. -/
theorem writesOnly_setBuf {dst : Dst} {f : State → Except Err BitBuf} :
    WritesOnly [.ofDst dst] fun s => (f s).map (s.setBuf dst) := by
  intro s t h
  obtain ⟨b, -, rfl⟩ := exists_of_map_eq_ok h
  exact sameOutside_setBuf s dst b

theorem bbInit_writesOnly (dst : Dst) : WritesOnly [.ofDst dst] (bbInitBody dst) :=
  writesOnly_setBuf (f := fun _ => .ok BitBuf.created)

theorem bbAppendBit_writesOnly (dst : Dst) (bit : Bool) : WritesOnly [.ofDst dst] (bbAppendBitBody dst bit) :=
  writesOnly_setBuf (f := fun s => (s.buf dst.sel).push (s.dstCap dst) bit)

theorem bbAppendFrom_writesOnly (dst : Dst) (src : Sel) : WritesOnly [.ofDst dst] (bbAppendFromBody dst src) := by
  intro s t h
  simp only [bbAppendFromBody] at h
  split at h
  · simp at h
  split at h
  · simp at h
  · exact writesOnly_setBuf (f := fun s => (s.buf dst.sel).pushAll (s.dstCap dst) (s.buf src).bits) s t h

theorem bbRemoveLast_writesOnly (dst : Dst) : WritesOnly [.ofDst dst] (bbRemoveLastBody dst) :=
  writesOnly_setBuf (f := fun s => (s.buf dst.sel).pop)

theorem bbClear_writesOnly (dst : Dst) : WritesOnly [.ofDst dst] (bbClearBody dst) :=
  writesOnly_setBuf (f := fun s => .ok ⟨[], (s.buf dst.sel).hwm⟩)

theorem bbReadBit_writesOnly (sel : Sel) : WritesOnly [.res] (bbReadBitBody sel) := by
  intro s t h
  unfold bbReadBitBody at h
  split at h
  · simp at h
  · rw [Except.ok.injEq] at h
    exact h ▸ sameOutside_setRes s _

theorem bbLen_writesOnly (sel : Sel) : WritesOnly [.res] (bbLenBody sel) := by
  intro s t h
  rw [bbLenBody, Except.ok.injEq] at h
  exact h ▸ sameOutside_setRes s _

theorem bbBytecount_writesOnly (sel : Sel) : WritesOnly [.res] (bbBytecountBody sel) := by
  intro s t h
  rw [bbBytecountBody, Except.ok.injEq] at h
  exact h ▸ sameOutside_setRes s _

theorem bbToBytes_writesOnly (sel : Sel) : WritesOnly [.out] (bbToBytesBody sel) := by
  intro s t h
  simp only [bbToBytesBody] at h
  split at h
  · simp at h
  · rw [Except.ok.injEq] at h
    exact h ▸ sameOutside_out s _ _

theorem ftCount_writesOnly : WritesOnly [.freq] ftCountBody := by
  intro s t h p hp
  rw [ftCountBody, Except.ok.injEq] at h
  subst h
  cases p <;> simp at hp <;> rfl

theorem htBuild_writesOnly : WritesOnly [.cw, .cwValid, .tree, .treeInfo] htBuildBody := by
  intro s t h p hp
  unfold htBuildBody at h
  split at h
  · simp at h
  · rw [Except.ok.injEq] at h
    subst h
    cases p <;> simp at hp <;> rfl

theorem inferMap_writesOnly (w : Word) : WritesOnly [.cw, .cwValid, .path] (inferMapBody w) := by
  intro s t h p hp
  rw [inferMap_frame h]
  cases p <;> simp at hp <;> rfl

theorem decodeOne_writesOnly (w : Word) : WritesOnly [.res, .cur] (decodeOneBody w) := by
  intro s t h p hp
  unfold decodeOneBody at h
  split at h
  · simp at h
  · rw [Except.ok.injEq] at h
    subst h
    cases p <;> simp at hp <;> rfl

theorem encode_writesOnly : WritesOnly [.pb] encodeBody := by
  intro s t h
  obtain ⟨bits, -, rfl⟩ := exists_of_map_eq_ok h
  exact sameOutside_setBuf s .pb (BitBuf.fresh bits)

theorem decode_writesOnly (w : Word) : WritesOnly [.out, .cur] (decodeBody w) := by
  intro s t h p hp
  unfold decodeBody at h
  split at h
  · simp at h
  · obtain ⟨r, -, rfl⟩ := exists_of_map_eq_ok h
    cases p <;> simp at hp <;> rfl

theorem serialize_writesOnly : WritesOnly [.out] serializeBody := by
  intro s t h
  simp only [serializeBody] at h
  split at h
  · simp at h
  split at h
  · simp at h
  · rw [Except.ok.injEq] at h
    exact h ▸ sameOutside_out s _ _

theorem deserialize_writesOnly : WritesOnly [.freq, .pb] deserializeBody := by
  intro s t h p hp
  obtain ⟨r, -, rfl⟩ := exists_of_map_eq_ok h
  cases p <;> simp at hp <;> rfl

/-! ## Commands -/

/-- Every stage of a command writes inside the command's write set. -/
theorem commandStages_writesOnly (i : Instr) : ∀ body ∈ commandStages i, WritesOnly (writeSet i) body := by
  cases i with
  | compress =>
    simp only [commandStages, compressStages, List.forall_mem_cons]
    exact ⟨ftCount_writesOnly.mono (by simp [writeSet]), htBuild_writesOnly.mono (by simp [writeSet]),
      (inferMap_writesOnly _).mono (by simp [writeSet]), encode_writesOnly.mono (by simp [writeSet]),
      serialize_writesOnly.mono (by simp [writeSet]), by simp⟩
  | decompress =>
    simp only [commandStages, decompressStages, List.forall_mem_cons]
    exact ⟨deserialize_writesOnly.mono (by simp [writeSet]), htBuild_writesOnly.mono (by simp [writeSet]),
      (decode_writesOnly _).mono (by simp [writeSet]), by simp⟩
  | nop => exact List.forall_mem_singleton.mpr nop_writesOnly
  | bbInit dst => exact List.forall_mem_singleton.mpr (bbInit_writesOnly dst)
  | bbAppendBit dst bit => exact List.forall_mem_singleton.mpr (bbAppendBit_writesOnly dst bit)
  | bbAppendFrom dst src => exact List.forall_mem_singleton.mpr (bbAppendFrom_writesOnly dst src)
  | bbReadBit sel => exact List.forall_mem_singleton.mpr (bbReadBit_writesOnly sel)
  | bbRemoveLast dst => exact List.forall_mem_singleton.mpr (bbRemoveLast_writesOnly dst)
  | bbClear dst => exact List.forall_mem_singleton.mpr (bbClear_writesOnly dst)
  | bbLen sel => exact List.forall_mem_singleton.mpr (bbLen_writesOnly sel)
  | bbBytecount sel => exact List.forall_mem_singleton.mpr (bbBytecount_writesOnly sel)
  | bbToBytes sel => exact List.forall_mem_singleton.mpr (bbToBytes_writesOnly sel)
  | ftCount => exact List.forall_mem_singleton.mpr ftCount_writesOnly
  | htBuild => exact List.forall_mem_singleton.mpr htBuild_writesOnly
  | htInferMap => exact List.forall_mem_singleton.mpr (inferMap_writesOnly _)
  | htDecodeOne => exact List.forall_mem_singleton.mpr (decodeOne_writesOnly _)
  | encEncode => exact List.forall_mem_singleton.mpr encode_writesOnly
  | decDecode => exact List.forall_mem_singleton.mpr (decode_writesOnly _)
  | ctSerialize => exact List.forall_mem_singleton.mpr serialize_writesOnly
  | ctDeserialize => exact List.forall_mem_singleton.mpr deserialize_writesOnly

/-- The ending of a command writes no part, but OUT when it empties it. -/
theorem endState_read {p : Part} {emptiesOut : Bool} (h : p = .out → emptiesOut = false) (r : State × Option Err) :
    p.read (endState emptiesOut r) = p.read r.1 := by
  rcases r with ⟨u, _ | e⟩
  · cases p <;> rfl
  · cases emptiesOut with
    | false => cases p <;> rfl
    | true => cases p <;> simp at h <;> rfl

/-- A command writes its write set and the error registers, whatever its outcome (R26, R226). -/
theorem exec_sameOutside {i : Instr} {s t : State} (h : exec i s = .next t) : SameOutside (writeSet i) s t := by
  intro p hp
  have hout : p = .out → writesOut i = false := by
    rintro rfl
    rwa [out_mem_writeSet, Bool.not_eq_true] at hp
  rw [exec_eq_endState, Host.Outcome.next.injEq] at h
  rw [← h, endState_read hout]
  exact runStages_keeps (P := fun u => p.read u = p.read s)
    (fun body hb u v hu hv => (commandStages_writesOnly i body hb u v hv p hp).trans hu) rfl

/-- No command writes ARG or IN (R21, R60). -/
theorem exec_keeps_arg_inp {i : Instr} {s t : State} (h : exec i s = .next t) : t.arg = s.arg ∧ t.inp = s.inp := by
  refine exec_keeps (P := fun u => u.arg = s.arg ∧ u.inp = s.inp) ?_ (fun _ hu => hu) (fun _ _ hu => hu) (fun _ hu => hu) h
    ⟨rfl, rfl⟩
  intro body hb u v ⟨ha, hi⟩ hv
  obtain ⟨-, hi', -, ha', -⟩ := commandStages_streams i body hb u v hv
  exact ⟨ha'.trans ha, hi'.trans hi⟩

end Sys2Proof.Machine
end

section
/-! SUPPORT. The HOST's operations one by one: what a step does with the oldest one, and the register port by register number
(R40, R80). -/

namespace Sys2Proof.Machine

open Sys2Proof.Claims

/-- A step performs the HOST's oldest operation on the state without it. -/
theorem step_of_host {s : State} {op : HostOp} {rest : List HostOp} (h : s.host = op :: rest) :
    step s = hostOp op { s with host := rest } := by
  simp only [step, nextEvent, h]

/-- A write to a register other than CMD. -/
theorem step_writeReg {s : State} {n : BitVec 9} {v : Word} {rest : List HostOp} (h : s.host = .writeReg n v :: rest)
    (hn : n ≠ 0x000) : step s = .next (State.writeReg { s with host := rest } n v) := by
  rw [step_of_host h, hostOp, if_neg hn]

/-- A write to CMD issues the word. -/
theorem step_issue {s : State} {w : Word} {rest : List HostOp} (h : s.host = .writeReg 0x000 w :: rest) :
    step s = issue w { s with host := rest } := by
  rw [step_of_host h, hostOp, if_pos rfl]

theorem issue_ok {w : Word} {i : Instr} (h : decode w = .ok i) (s : State) : issue w s = exec i s := by
  simp only [issue, h]

/-- A refused word records IllegalCommand with the code of the check it failed (R225). -/
theorem takeError_illegal (s : State) (e : DecodeError) (w : Word) :
    s.takeError (.illegal (.decode e) w) = err s (7 + 16 * decodeCode e) 0 w.toNat := by
  cases e <;> rfl

theorem issue_error {w : Word} {e : DecodeError} (h : decode w = .error e) (s : State) :
    issue w s = .next (err s (7 + 16 * decodeCode e) 0 w.toNat) := by
  simp only [issue, h, takeError_illegal]

/-! ## Register numbers -/

/-- The number of FREQ[b] at the register port (R40). -/
theorem freqNumber_toNat (b : Byte) : (BitVec.ofNat 9 (0x100 + b.toNat)).toNat = 0x100 + b.toNat := by
  rw [BitVec.toNat_ofNat]
  omega

theorem freqNumber_ne_cmd (b : Byte) : BitVec.ofNat 9 (0x100 + b.toNat) ≠ 0x000 := by
  bv_omega

theorem freqNumber_setWidth (b : Byte) : (BitVec.ofNat 9 (0x100 + b.toNat)).setWidth 8 = b := by
  apply BitVec.eq_of_toNat_eq
  rw [BitVec.toNat_setWidth, freqNumber_toNat]
  omega

theorem State.readReg_freq (s : State) (b : Byte) :
    s.readReg (BitVec.ofNat 9 (0x100 + b.toNat)) = (tget s.freq b).setWidth 64 := by
  rw [State.readReg, if_pos (by rw [freqNumber_toNat]; omega), freqNumber_setWidth]

theorem State.writeReg_freq (s : State) (b : Byte) (v : Word) :
    s.writeReg (BitVec.ofNat 9 (0x100 + b.toNat)) v = { s with freq := tset s.freq b v } := by
  rw [State.writeReg, if_pos (by rw [freqNumber_toNat]; omega), freqNumber_setWidth]

/-- An unlisted number reads 0. -/
theorem State.readReg_unlisted (s : State) {n : BitVec 9} (hlo : 0x009 < n.toNat) (hhi : n.toNat < 0x100) :
    s.readReg n = 0 := by
  have hne : ∀ m : BitVec 9, m.toNat ≤ 0x009 → n ≠ m := by
    rintro m hm rfl
    omega
  unfold State.readReg
  rw [if_neg (by omega)]
  simp [hne]

/-- A write to a read-only register, or to an unlisted number, changes nothing. -/
theorem State.writeReg_of_ne (s : State) {n : BitVec 9} (v : Word) (h₅ : n ≠ 0x005) (h₆ : n ≠ 0x006)
    (hhi : n.toNat < 0x100) : s.writeReg n v = s := by
  rw [State.writeReg, if_neg (by omega), if_neg h₅, if_neg h₆]

end Sys2Proof.Machine
end

section
/-! SUPPORT. The selectors the decoder refuses (R32, R84). -/

namespace Sys2Proof

theorem dstOf_error {n : BitVec 9} (hpb : n ≠ 0x100) (hpath : n ≠ 0x101) : dstOf n = .error .badSelector := by
  rw [dstOf, if_neg hpb, if_neg hpath]

/-- No codeword buffer may be written. -/
theorem dstOf_cw (b : Byte) : dstOf (b.setWidth 9) = .error .badSelector := by
  apply dstOf_error <;> bv_omega

theorem dstOf_reserved {n : BitVec 9} (h : 0x101 < n.toNat) : dstOf n = .error .badSelector := by
  apply dstOf_error <;> bv_omega

theorem selOf_reserved {n : BitVec 9} (h : 0x101 < n.toNat) : selOf n = .error .badSelector := by
  rw [selOf, if_neg (by omega), if_neg (by bv_omega), if_neg (by bv_omega)]

end Sys2Proof
end

section
/-! SUPPORT. The statements of the block's state: what each command may write, reset, the register port, the selectors. -/

namespace Sys2Proof.Machine

/-- Settles O54: a part changes only by a command that has it in its write set, and ARG, IN, the parameters and the queue are
kept by every stage. -/
theorem commandsWriteOnlyTheirState : Obligations.CommandsWriteOnlyTheirState := by
  unfold Obligations.CommandsWriteOnlyTheirState
  intro i s t h
  obtain ⟨harg, hinp⟩ := exec_keeps_arg_inp h
  obtain ⟨hcfg, hhost⟩ := exec_keeps_cfg_host h
  have hw := exec_sameOutside h
  refine ⟨harg, hinp, hcfg, hhost, fun hbb h₁ => hw .res ?_, fun h₁ h₂ h₃ => hw .cur ?_, fun h₁ => hw .out ?_,
    fun h₁ h₂ h₃ => ⟨hw .tree ?_, hw .treeInfo ?_⟩, fun h₁ h₂ h₃ h₄ => hw .freq ?_,
    fun h₁ h₂ h₃ h₄ => ⟨hw .cw ?_, hw .cwValid ?_⟩, fun hbb h₁ h₂ h₃ h₄ => hw .pb ?_, fun hbb h₁ h₂ => hw .path ?_⟩
  · simp [res_mem_writeSet, hbb, h₁]
  · simp [cur_mem_writeSet, h₁, h₂, h₃]
  · simp [out_mem_writeSet, h₁]
  · simp [tree_mem_writeSet, h₁, h₂, h₃]
  · simp [treeInfo_mem_writeSet, tree_mem_writeSet, h₁, h₂, h₃]
  · simp [freq_mem_writeSet, h₁, h₂, h₃, h₄]
  · simp [cw_mem_writeSet, h₁, h₂, h₃, h₄]
  · simp [cwValid_mem_writeSet, cw_mem_writeSet, h₁, h₂, h₃, h₄]
  · simp only [pb_mem_writeSet, not_or, not_exists]
    exact ⟨hbb, h₁, h₂, h₃, h₄⟩
  · simp only [path_mem_writeSet, not_or, not_exists]
    exact ⟨hbb, h₁, h₂⟩

/-- Settles O1: each field of the reset state is the reset value; the register files are constant. -/
theorem resetHoldsZeroAndEmpty : Obligations.ResetHoldsZeroAndEmpty := by
  unfold Obligations.ResetHoldsZeroAndEmpty
  exact ⟨fun c => ⟨rfl, rfl, rfl, rfl, rfl, rfl, rfl, rfl, rfl, rfl, tget_replicate 0, rfl, rfl, tget_replicate false,
    tget_replicate BitBuf.created, rfl, rfl⟩, rfl⟩

/-- Settles O9: each clause is the port's rule for that number. -/
theorem registerPortReadsAndWrites : Obligations.RegisterPortReadsAndWrites := by
  unfold Obligations.RegisterPortReadsAndWrites
  refine ⟨fun s => ⟨rfl, rfl, rfl, rfl, rfl, rfl, rfl, rfl, rfl, rfl, fun _ => s.readReg_unlisted, s.readReg_freq⟩,
    fun s n rest h => step_of_host h, fun s v rest h => step_writeReg h (by decide),
    fun s v rest h => step_writeReg h (by decide), fun s b v rest h => ?_, fun s n v rest h h₀ h₅ h₆ hhi => ?_,
    fun s w rest h => ⟨fun i hi => ?_, fun e he => ?_⟩⟩
  · refine ⟨_, step_writeReg h (freqNumber_ne_cmd b), ?_⟩
    rw [State.writeReg_freq]
    exact ⟨rfl, tget_tset_self s.freq b v, fun c hc => tget_tset_of_ne s.freq v hc.symm⟩
  · rw [step_writeReg h h₀, State.writeReg_of_ne _ v h₅ h₆ hhi]
  · rw [step_issue h, issue_ok hi]
  · rw [step_issue h, issue_error he]

/-- Settles O13: a legal selector decodes to the buffer it encodes, and one from 0x102 on to none. -/
theorem selectorsNameTheirBuffers : Obligations.SelectorsNameTheirBuffers := by
  unfold Obligations.SelectorsNameTheirBuffers
  exact fun s => ⟨fun _ => rfl, rfl, rfl, fun _ => rfl, fun _ => rfl, rfl, rfl, rfl, fun b => selOf_selCode (.cw b),
    selOf_selCode .pb, selOf_selCode .path, dstOf_cw, dstOf_dstCode .pb, dstOf_dstCode .path,
    fun _ hn => ⟨selOf_reserved hn, dstOf_reserved hn⟩⟩

end Sys2Proof.Machine
end

section
/-! SUPPORT. The HOST's loads and reads of the streams (R62, R63): a load that fits, a load that does not, and the reads. -/

namespace Sys2Proof.Machine

/-- IN_LEN is the number of bytes of IN, as long as a 32-bit register can hold it (R23). -/
theorem State.inLen_toNat {s : State} (h : s.inp.length < 2 ^ 32) : s.inLen.toNat = s.inp.length := by
  rw [State.inLen, BitVec.toNat_ofNat, Nat.mod_eq_of_lt h]

theorem hostOp_loadIn_fits {bytes : List Byte} {s : State} (h : bytes.length ≤ s.cfg.capIn) :
    hostOp (.loadIn bytes) s = .next { s with inp := bytes } := by
  rw [hostOp, if_neg (Nat.not_lt.mpr h)]

theorem hostOp_loadIn_overlong {bytes : List Byte} {s : State} (h : s.cfg.capIn < bytes.length) :
    hostOp (.loadIn bytes) s = .fault .hostLoadTooLong := by
  rw [hostOp, if_pos h]

/-- Settles O7: a load that fits replaces IN, and CAP_IN bounds what IN_LEN must hold. -/
theorem hostLoadReplacesIn : Obligations.HostLoadReplacesIn := by
  unfold Obligations.HostLoadReplacesIn
  intro s bytes rest h hfit hcap
  exact ⟨{ s with host := rest, inp := bytes }, (step_of_host h).trans (hostOp_loadIn_fits hfit), rfl,
    State.inLen_toNat (hfit.trans_lt hcap)⟩

/-- Settles O8: a load that does not fit is the HOST operation that faults. -/
theorem overlongHostLoadStops : Obligations.OverlongHostLoadStops := by
  unfold Obligations.OverlongHostLoadStops
  exact fun s bytes rest h hlong => (step_of_host h).trans (hostOp_loadIn_overlong hlong)

/-- Settles O10: the reads return the stored streams, and a step that performs one only takes it from the queue. -/
theorem hostReadsReturnTheStreams : Obligations.HostReadsReturnTheStreams := by
  unfold Obligations.HostReadsReturnTheStreams
  exact fun s => ⟨rfl, rfl, fun _ h => step_of_host h, fun _ h => step_of_host h⟩

end Sys2Proof.Machine
end

section
/-! SUPPORT. The decoder and the encoder against the opcode map (30_encoding.md R81 to R87): what each of the decoder's four
checks answers, what a legal selector decodes to, and the word a row packs its operands into. -/

namespace Sys2Proof

/-! ## Checks 1 and 2: the opcode and the reserved bits -/

/-- Each OP value of the map names its own row. -/
theorem rowOfCode_of_mem : ∀ row ∈ opRows, rowOfCode row.code = some row := by decide

theorem decode_of_row {row : OpRow} (hrow : row ∈ opRows) {w : Word} (hop : opField w = row.code)
    (hz : row.format.restIsZero w = true) : decode w = decodeOperands row.op w := by
  simp only [decode, hop, rowOfCode_of_mem row hrow, hz, if_true]

theorem decode_reserved {row : OpRow} (hrow : row ∈ opRows) {w : Word} (hop : opField w = row.code)
    (hz : row.format.restIsZero w = false) : decode w = .error .reservedBits := by
  simp [decode, hop, rowOfCode_of_mem row hrow, hz]

theorem decode_unknown {w : Word} (h : ∀ row ∈ opRows, opField w ≠ row.code) : decode w = .error .unknownOpcode := by
  have hnone : rowOfCode (opField w) = none := by
    rw [rowOfCode, List.find?_eq_none]
    exact fun row hrow hc => h row hrow (eq_of_beq hc).symm
  simp only [decode, hnone]

/-- A word is a command exactly when it passes the first two checks of some row and that row's operand checks. -/
theorem decode_ok_iff {w : Word} {i : Instr} : decode w = .ok i ↔
    ∃ row ∈ opRows, opField w = row.code ∧ row.format.restIsZero w = true ∧ decodeOperands row.op w = .ok i := by
  constructor
  · intro h
    by_cases hrow : ∃ row ∈ opRows, opField w = row.code
    · obtain ⟨row, hrow, hop⟩ := hrow
      cases hz : row.format.restIsZero w with
      | true => exact ⟨row, hrow, hop, hz, decode_of_row hrow hop hz ▸ h⟩
      | false => simp [decode_reserved hrow hop hz] at h
    · simp only [not_exists, not_and] at hrow
      simp [decode_unknown hrow] at h
  · rintro ⟨row, hrow, hop, hz, h⟩
    rw [decode_of_row hrow hop hz, h]

/-! ## Check 3: selectors -/

theorem dstOf_legal {n : BitVec 9} (h : n = 0x100 ∨ n = 0x101) : ∃ dst, dstOf n = .ok dst := by
  rcases h with rfl | rfl
  · exact ⟨.pb, rfl⟩
  · exact ⟨.path, rfl⟩

theorem selOf_legal {n : BitVec 9} (h : n.toNat ≤ 0x101) : ∃ sel, selOf n = .ok sel := by
  unfold selOf
  split_ifs with hcw hpb hpath
  · exact ⟨_, rfl⟩
  · exact ⟨_, rfl⟩
  · exact ⟨_, rfl⟩
  · bv_omega

/-- How the rows that read one operand end: in a command exactly when the operand decodes. -/
theorem map_eq_ok_iff {ε α β : Type} {f : α → β} {x : Except ε α} {b : β} :
    x.map f = .ok b ↔ ∃ a, x = .ok a ∧ f a = b := by
  cases x <;> simp [Except.map]

/-! ## Check 4: BB_APPEND_FROM's two buffers -/

theorem decodeAppendFrom_dst_error {w : Word} {e : DecodeError} (h : dstOf (aField w) = .error e) :
    decodeAppendFrom w = .error e := by
  simp only [decodeAppendFrom, h]

theorem decodeAppendFrom_src_error {w : Word} {dst : Dst} {e : DecodeError} (hd : dstOf (aField w) = .ok dst)
    (hs : selOf (bField w) = .error e) : decodeAppendFrom w = .error e := by
  simp only [decodeAppendFrom, hd, hs]

/-- Both selectors legal: only the same-buffer check is left. -/
theorem decodeAppendFrom_of_ok {w : Word} {dst : Dst} {src : Sel} (hd : dstOf (aField w) = .ok dst)
    (hs : selOf (bField w) = .ok src) :
    decodeAppendFrom w = if dst.sel = src then .error .sameBuffer else .ok (.bbAppendFrom dst src) := by
  simp only [decodeAppendFrom, hd, hs]

theorem decodeAppendFrom_ok {w : Word} {i : Instr} (h : decodeAppendFrom w = .ok i) :
    ∃ dst src, dstOf (aField w) = .ok dst ∧ selOf (bField w) = .ok src ∧ dst.sel ≠ src ∧ .bbAppendFrom dst src = i := by
  cases hd : dstOf (aField w) with
  | error e => simp [decodeAppendFrom_dst_error hd] at h
  | ok dst =>
    cases hs : selOf (bField w) with
    | error e => simp [decodeAppendFrom_src_error hd hs] at h
    | ok src =>
      rw [decodeAppendFrom_of_ok hd hs] at h
      split_ifs at h with hne
      exact ⟨dst, src, rfl, rfl, hne, Except.ok.inj h⟩

/-- Two legal selectors name one buffer exactly when they are one number. -/
theorem dst_sel_eq_iff {a b : BitVec 9} {dst : Dst} {src : Sel} (hd : dstOf a = .ok dst) (hs : selOf b = .ok src) :
    dst.sel = src ↔ b = a := by
  rw [← dstOf_ok hd, ← selOf_ok hs, ← selCode_dst]
  refine ⟨fun h => h ▸ rfl, fun h => ?_⟩
  simpa [selOf_selCode] using congrArg selOf h.symm

/-! ## The word of a row -/

/-- The word of an opcode under a format: a field the format does not use is 0, whatever is asked for it (R82). -/
def Format.pack : Format → BitVec 8 → BitVec 9 → BitVec 9 → Bool → Word
  | .n, op, _, _, _ => packWord op 0 0 false
  | .s, op, a, _, _ => packWord op a 0 false
  | .sb, op, a, _, bit => packWord op a 0 bit
  | .ss, op, a, b, _ => packWord op a b false

/-- Every format keeps bits 31:27 at 0. -/
theorem zeroField_of_restIsZero {fmt : Format} {w : Word} (h : fmt.restIsZero w = true) : zeroField w = 0 := by
  cases fmt <;> simp_all [Format.restIsZero]

/-- A word without reserved bits is its own fields, packed again. -/
theorem Format.pack_fields {fmt : Format} {w : Word} (h : fmt.restIsZero w = true) :
    fmt.pack (opField w) (aField w) (bField w) (bitField w) = w := by
  have hw := packWord_fields (zeroField_of_restIsZero h)
  cases fmt with
  | n =>
    obtain ⟨ha, hb, hbit, -⟩ : aField w = 0 ∧ bField w = 0 ∧ bitField w = false ∧ zeroField w = 0 := by
      simpa [Format.restIsZero, and_assoc] using h
    rwa [ha, hb, hbit] at hw
  | s =>
    obtain ⟨hb, hbit, -⟩ : bField w = 0 ∧ bitField w = false ∧ zeroField w = 0 := by
      simpa [Format.restIsZero, and_assoc] using h
    rwa [hb, hbit] at hw
  | sb =>
    obtain ⟨hb, -⟩ : bField w = 0 ∧ zeroField w = 0 := by simpa [Format.restIsZero] using h
    rwa [hb] at hw
  | ss =>
    obtain ⟨hbit, -⟩ : bitField w = false ∧ zeroField w = 0 := by simpa [Format.restIsZero] using h
    rwa [hbit] at hw

end Sys2Proof
end

section
/-! SUPPORT. Decoding inverts encoding, and encoding inverts decoding (30_encoding.md R80 to R87). -/

namespace Sys2Proof

open Sys2Proof.Laws.EncodeMatchesRow

/-! ## Decode of encode -/

/-- Every command's word lies in its own row. -/
theorem encode_matches_row : ∀ i : Instr, Statement i
  | .nop => nop
  | .bbInit dst => bbInit dst
  | .bbAppendBit dst bit => bbAppendBit dst bit
  | .bbAppendFrom dst src => bbAppendFrom dst src
  | .bbReadBit sel => bbReadBit sel
  | .bbRemoveLast dst => bbRemoveLast dst
  | .bbClear dst => bbClear dst
  | .bbLen sel => bbLen sel
  | .bbBytecount sel => bbBytecount sel
  | .bbToBytes sel => bbToBytes sel
  | .ftCount => ftCount
  | .htBuild => htBuild
  | .htInferMap => htInferMap
  | .htDecodeOne => htDecodeOne
  | .encEncode => encEncode
  | .decDecode => decDecode
  | .ctSerialize => ctSerialize
  | .ctDeserialize => ctDeserialize
  | .compress => compress
  | .decompress => decompress

theorem rowMask_eq_mask (fmt : Format) : rowMask fmt = fmt.mask := by cases fmt <;> rfl

/-- A command's word passes the opcode check and the reserved-bits check of its own row. -/
theorem decode_encode_eq_operands (i : Instr) : decode (encode i) = decodeOperands (opOf i) (encode i) := by
  obtain ⟨row, hrow, hop, hbits⟩ := encode_matches_row i
  rw [rowMask_eq_mask, matches_iff] at hbits
  rw [← hop]
  exact decode_of_row hrow hbits.1 hbits.2

/-- A command's word carries its operands, in the fields its row reads. -/
theorem decodeOperands_encode {i : Instr} (hi : i.WellFormed) : decodeOperands (opOf i) (encode i) = .ok i := by
  cases i with
  | bbInit dst | bbRemoveLast dst | bbClear dst =>
    simp [opOf, decodeOperands, encode, aField_packWord, dstOf_dstCode, Except.map]
  | bbAppendBit dst bit =>
    simp [opOf, decodeOperands, encode, aField_packWord, bitField_packWord, dstOf_dstCode, Except.map]
  | bbAppendFrom dst src =>
    have hne : dst.sel ≠ src := by simpa [Instr.WellFormed, Instr.ok] using hi
    have hd : dstOf (aField (encode (.bbAppendFrom dst src))) = .ok dst := by
      rw [encode, aField_packWord, dstOf_dstCode]
    have hs : selOf (bField (encode (.bbAppendFrom dst src))) = .ok src := by
      rw [encode, bField_packWord, selOf_selCode]
    exact (decodeAppendFrom_of_ok hd hs).trans (if_neg hne)
  | bbReadBit sel | bbLen sel | bbBytecount sel | bbToBytes sel =>
    simp [opOf, decodeOperands, encode, aField_packWord, selOf_selCode, Except.map]
  | nop | ftCount | htBuild | htInferMap | htDecodeOne | encEncode | decDecode | ctSerialize | ctDeserialize | compress
  | decompress => rfl

/-! ## Encode of decode -/

/-- What a row's operand checks accept is a well-formed command, and its word packs the fields they read. -/
theorem encode_of_decodeOperands {row : OpRow} (hrow : row ∈ opRows) {w : Word} {i : Instr}
    (h : decodeOperands row.op w = .ok i) :
    encode i = row.format.pack row.code (aField w) (bField w) (bitField w) ∧ i.WellFormed := by
  obtain ⟨op, code, format⟩ := row
  cases op with
  | bbInit | bbAppendBit | bbRemoveLast | bbClear =>
    obtain ⟨rfl, rfl⟩ : code = _ ∧ format = _ := by simpa [opRows] using hrow
    obtain ⟨dst, hd, rfl⟩ := map_eq_ok_iff.mp h
    exact ⟨by rw [← dstOf_ok hd]; rfl, rfl⟩
  | bbAppendFrom =>
    obtain ⟨rfl, rfl⟩ : code = _ ∧ format = _ := by simpa [opRows] using hrow
    obtain ⟨dst, src, hd, hs, hne, rfl⟩ := decodeAppendFrom_ok h
    exact ⟨by rw [← dstOf_ok hd, ← selOf_ok hs]; rfl, bne_iff_ne.mpr hne⟩
  | bbReadBit | bbLen | bbBytecount | bbToBytes =>
    obtain ⟨rfl, rfl⟩ : code = _ ∧ format = _ := by simpa [opRows] using hrow
    obtain ⟨sel, hs, rfl⟩ := map_eq_ok_iff.mp h
    exact ⟨by rw [← selOf_ok hs]; rfl, rfl⟩
  | nop | ftCount | htBuild | htInferMap | htDecodeOne | encEncode | decDecode | ctSerialize | ctDeserialize | compress
  | decompress =>
    obtain ⟨rfl, rfl⟩ : code = _ ∧ format = _ := by simpa [opRows] using hrow
    obtain rfl := Except.ok.inj h
    exact ⟨rfl, rfl⟩

end Sys2Proof
end

section
/-! SUPPORT. The opcode table's rows, as the statements write them, against the decoder: which operand checks each row makes
(30_encoding.md R82 to R84). -/

namespace Sys2Proof

open Sys2Proof.Claims

/-- The rows of spec/opcode_table.json are the opcode map with each format's mask. -/
theorem tableRows_eq : tableRows = opRows.map fun row => (row.code, row.format.mask) := rfl

theorem forall_tableRows {p : BitVec 8 × Word → Prop} :
    (∀ r ∈ tableRows, p r) ↔ ∀ row ∈ opRows, p (row.code, row.format.mask) := by
  rw [tableRows_eq, List.forall_mem_map]

/-- A word that matches a row is left to the row's operand checks. -/
theorem decode_of_matches {row : OpRow} (hrow : row ∈ opRows) {w : Word} (h : w &&& row.format.mask = row.code.setWidth 32) :
    decode w = decodeOperands row.op w := by
  obtain ⟨hop, hz⟩ := (matches_iff row.format w row.code).mp h
  exact decode_of_row hrow hop hz

/-- The fixed bits of BB_APPEND_FROM's row. -/
theorem decode_of_matches_appendFrom {w : Word} (h : w &&& 0xFC0000FF = 0x12) : decode w = decodeAppendFrom w :=
  decode_of_matches (row := ⟨.bbAppendFrom, 0x12, .ss⟩) (by decide) h

section
variable {row : OpRow} (hrow : row ∈ opRows) (w : Word)
include hrow

theorem decodeOperands_appendFrom (hcode : row.code = 0x12) : decodeOperands row.op w = decodeAppendFrom w := by
  have hop : row.op = .bbAppendFrom := by
    revert row
    decide
  rw [hop, decodeOperands]

/-- The other rows whose field A must be PB or PATH read nothing else that can be illegal. -/
theorem decodeOperands_dst (hdst : row.code ∈ dstOpcodes) (hcode : row.code ≠ 0x12) :
    ∃ f : Dst → Instr, decodeOperands row.op w = (dstOf (aField w)).map f := by
  have hop : row.op ∈ [.bbInit, .bbAppendBit, .bbRemoveLast, .bbClear] := by
    revert row
    decide
  generalize row.op = op at hop
  fin_cases hop <;> exact ⟨_, rfl⟩

/-- The rows whose field A may name any buffer read nothing else that can be illegal. -/
theorem decodeOperands_any (hany : row.code ∈ anyOpcodes) :
    ∃ f : Sel → Instr, decodeOperands row.op w = (selOf (aField w)).map f := by
  have hop : row.op ∈ [.bbReadBit, .bbLen, .bbBytecount, .bbToBytes] := by
    revert row
    decide
  generalize row.op = op at hop
  fin_cases hop <;> exact ⟨_, rfl⟩

/-- The other rows have no operand. -/
theorem decodeOperands_none (hdst : row.code ∉ dstOpcodes) (hany : row.code ∉ anyOpcodes) :
    ∃ i, decodeOperands row.op w = .ok i := by
  have hop : row.op ∈ [.nop, .ftCount, .htBuild, .htInferMap, .htDecodeOne, .encEncode, .decDecode, .ctSerialize,
      .ctDeserialize, .compress, .decompress] := by
    revert row
    decide
  generalize row.op = op at hop
  fin_cases hop <;> exact ⟨_, rfl⟩

theorem decodeOperands_dst_error (hdst : row.code ∈ dstOpcodes) {e : DecodeError} (h : dstOf (aField w) = .error e) :
    decodeOperands row.op w = .error e := by
  by_cases hcode : row.code = 0x12
  · rw [decodeOperands_appendFrom hrow w hcode, decodeAppendFrom_dst_error h]
  · obtain ⟨f, hf⟩ := decodeOperands_dst hrow w hdst hcode
    rw [hf, h]
    rfl

theorem decodeOperands_any_error (hany : row.code ∈ anyOpcodes) {e : DecodeError} (h : selOf (aField w) = .error e) :
    decodeOperands row.op w = .error e := by
  obtain ⟨f, hf⟩ := decodeOperands_any hrow w hany
  rw [hf, h]
  rfl

/-- Operands the row allows (R84), and for BB_APPEND_FROM two different ones, are a command's. -/
theorem decodeOperands_legal (hdst : row.code ∈ dstOpcodes → aField w = 0x100 ∨ aField w = 0x101)
    (hany : row.code ∈ anyOpcodes → (aField w).toNat ≤ 0x101)
    (hsrc : row.code = 0x12 → (bField w).toNat ≤ 0x101 ∧ bField w ≠ aField w) :
    ∃ i, decodeOperands row.op w = .ok i := by
  by_cases hd : row.code ∈ dstOpcodes
  · obtain ⟨dst, hA⟩ := dstOf_legal (hdst hd)
    by_cases hcode : row.code = 0x12
    · obtain ⟨hB, hne⟩ := hsrc hcode
      obtain ⟨src, hB⟩ := selOf_legal hB
      exact ⟨.bbAppendFrom dst src, by
        rw [decodeOperands_appendFrom hrow w hcode, decodeAppendFrom_of_ok hA hB, if_neg (mt (dst_sel_eq_iff hA hB).mp hne)]⟩
    · obtain ⟨f, hf⟩ := decodeOperands_dst hrow w hd hcode
      exact ⟨f dst, by rw [hf, hA]; rfl⟩
  · by_cases ha : row.code ∈ anyOpcodes
    · obtain ⟨f, hf⟩ := decodeOperands_any hrow w ha
      obtain ⟨sel, hA⟩ := selOf_legal (hany ha)
      exact ⟨f sel, by rw [hf, hA]; rfl⟩
    · exact decodeOperands_none hrow w hd ha

end

end Sys2Proof
end

section
/-! SUPPORT. The statements of the command word: the two round trips, the refused words, the step that issues a command, and
words written out. -/

namespace Sys2Proof.Machine

open Sys2Proof.Claims

/-- Settles O4: a command's word passes every check of its own row, whose fields then read the operands back. -/
theorem decodeOfEncodeIsTheCommand : Obligations.DecodeOfEncodeIsTheCommand := by
  unfold Obligations.DecodeOfEncodeIsTheCommand
  intro i hi
  rw [decode_encode_eq_operands, decodeOperands_encode hi]

/-- Settles O3: the clauses are the four checks in the decoder's order, each with the lemma that says what it answers. -/
theorem illegalWordsFailAtTheFirstCheck : Obligations.IllegalWordsFailAtTheFirstCheck := by
  unfold Obligations.IllegalWordsFailAtTheFirstCheck
  simp only [forall_tableRows]
  refine ⟨fun w => decode_unknown, fun w row hrow hop hbits => ?_, fun w row hrow hbits hmem hpb hpath => ?_,
    fun w row hrow hbits hmem hA => ?_, fun w hbits hA hB => ?_, fun w hbits hA hB => ?_,
    fun w row hrow hbits hdst hany hsrc => ?_, fun s w e rest h he => ?_⟩
  · refine decode_reserved hrow hop (Bool.eq_false_iff.mpr fun hz => hbits ?_)
    exact (matches_iff row.format w row.code).mpr ⟨hop, hz⟩
  · rw [decode_of_matches hrow hbits, decodeOperands_dst_error hrow w hmem (dstOf_error hpb hpath)]
  · rw [decode_of_matches hrow hbits, decodeOperands_any_error hrow w hmem (selOf_reserved hA)]
  · obtain ⟨dst, hd⟩ := dstOf_legal hA
    rw [decode_of_matches_appendFrom hbits, decodeAppendFrom_src_error hd (selOf_reserved hB)]
  · obtain ⟨dst, hd⟩ := dstOf_legal hA
    have hs : selOf (bField w) = .ok dst.sel := by
      rw [bField, hB, ← dstOf_ok hd, ← selCode_dst, selOf_selCode]
    rw [decode_of_matches_appendFrom hbits, decodeAppendFrom_of_ok hd hs, if_pos rfl]
  · rw [decode_of_matches hrow hbits]
    exact decodeOperands_legal hrow w hdst hany hsrc
  · rw [step_issue h, issue_error he]

/-- Settles O5: a word that passes the reserved-bits check is its fields packed again, and so is its command's word. -/
theorem encodeOfDecodeIsTheWord : Obligations.EncodeOfDecodeIsTheWord := by
  unfold Obligations.EncodeOfDecodeIsTheWord
  intro w i h
  obtain ⟨row, hrow, hop, hz, hi⟩ := decode_ok_iff.mp h
  obtain ⟨hword, hwf⟩ := encode_of_decodeOperands hrow hi
  exact ⟨by rw [hword, ← hop, Format.pack_fields hz], hwf⟩

/-- Settles O2: the oldest operation issues the word, and issuing a word that decodes is running its command. -/
theorem stepRunsTheDecodedCommand : Obligations.StepRunsTheDecodedCommand := by
  unfold Obligations.StepRunsTheDecodedCommand
  intro s w i rest h hi
  rw [step_issue h, issue_ok hi]

/-- A word given as the encoding of a well-formed command decodes to it. -/
theorem decode_eq_of_encode_eq {w : Word} {i : Instr} (hw : encode i = w) (hi : i.WellFormed) : decode w = .ok i :=
  hw ▸ decodeOfEncodeIsTheCommand i hi

/-- Settles O6: each word is its command's encoding. -/
theorem writtenOutWordsDecode : Obligations.WrittenOutWordsDecode := by
  unfold Obligations.WrittenOutWordsDecode
  refine ⟨?_, ?_, ?_, ?_, ?_, ?_, ?_, ?_, ?_, ?_⟩ <;> exact decode_eq_of_encode_eq (by decide) (by decide)

end Sys2Proof.Machine
end

section
/-! SUPPORT. The words of the BB commands as `OP + (A << 8) + (B << 17) + (BIT << 26)` with the selectors' numbers (R81, R84). -/

namespace Sys2Proof.Machine

open Sys2Proof.Claims

theorem toNat_append_eq_add {m n : Nat} (x : BitVec m) (y : BitVec n) : (x ++ y).toNat = x.toNat * 2 ^ n + y.toNat := by
  rw [BitVec.toNat_append, ← Nat.shiftLeft_add_eq_or_of_lt y.isLt, Nat.shiftLeft_eq]

/-- The fields laid side by side are their shifted sum: they do not overlap (R81). -/
theorem packWord_eq_word (op : BitVec 8) (a b : BitVec 9) (bit : Bool) : packWord op a b bit = word op a b bit := by
  have hbit : bit.toNat ≤ 1 := Bool.toNat_le bit
  apply BitVec.eq_of_toNat_eq
  simp only [packWord, word, toNat_append_eq_add, BitVec.toNat_add, BitVec.toNat_shiftLeft, BitVec.toNat_setWidth,
    BitVec.toNat_ofBool, BitVec.toNat_ofNat, Nat.shiftLeft_eq]
  omega

theorem number_eq_selCode (sel : Sel) : number sel = selCode sel := by cases sel <;> rfl

/-- The word of a command whose one selector is PB or PATH decodes to it. -/
theorem decode_word_dst {op : BitVec 8} {dst : Dst} {bit : Bool} {i : Instr} (hi : i.WellFormed)
    (h : encode i = packWord op (dstCode dst) 0 bit) : decode (word op (number dst.sel) 0 bit) = .ok i := by
  refine decode_eq_of_encode_eq ?_ hi
  rw [h, packWord_eq_word, number_eq_selCode, selCode_dst]

/-- The word of a command whose one selector is any buffer decodes to it. -/
theorem decode_word_sel {op : BitVec 8} {sel : Sel} {i : Instr} (hi : i.WellFormed)
    (h : encode i = packWord op (selCode sel) 0 false) : decode (word op (number sel) 0 false) = .ok i := by
  refine decode_eq_of_encode_eq ?_ hi
  rw [h, packWord_eq_word, number_eq_selCode]

theorem encode_bbAppendFrom (dst : Dst) (src : Sel) :
    encode (.bbAppendFrom dst src) = word 0x12 (number dst.sel) (number src) false := by
  rw [encode, packWord_eq_word, number_eq_selCode, number_eq_selCode, selCode_dst]

/-- Naming one buffer twice passes the first three checks and fails the fourth (R87). -/
theorem decode_bbAppendFrom_self (dst : Dst) :
    decode (encode (.bbAppendFrom dst dst.sel)) = .error .sameBuffer := by
  cases dst <;> decide

end Sys2Proof.Machine
end

section
/-! SUPPORT. What each BB command answers, one lemma for each way it can end (40_bitbuffer.md), and a sequence of
BB_APPEND_BIT commands. -/

namespace Sys2Proof.Machine

open Sys2Proof.Claims

/-! ## The commands one by one -/

theorem exec_bbAppendBit_ok {s : State} {dst : Dst} {bit : Bool} {b : BitBuf}
    (h : (s.buf dst.sel).push (s.dstCap dst) bit = .ok b) :
    exec (.bbAppendBit dst bit) s = .next (ok (s.setBuf dst b)) :=
  finish_ok (by rw [bbAppendBitBody, h, Except.map])

theorem exec_bbAppendBit_error {s : State} {dst : Dst} {bit : Bool} {e : Err}
    (h : (s.buf dst.sel).push (s.dstCap dst) bit = .error e) : exec (.bbAppendBit dst bit) s = .next (s.takeError e) :=
  finish_error (by rw [bbAppendBitBody, h, Except.map])

theorem exec_bbAppendFrom_same (s : State) (dst : Dst) : exec (.bbAppendFrom dst dst.sel) s =
    .next (s.takeError (.illegal (.decode .sameBuffer) (encode (.bbAppendFrom dst dst.sel)))) :=
  finish_error (by rw [bbAppendFromBody, if_pos rfl])

theorem exec_bbAppendFrom_ok {s : State} {dst : Dst} {src : Sel} {b : BitBuf} (hne : dst.sel ≠ src)
    (hfit : (s.buf dst.sel).len + (s.buf src).len ≤ s.dstCap dst)
    (h : (s.buf dst.sel).pushAll (s.dstCap dst) (s.buf src).bits = .ok b) :
    exec (.bbAppendFrom dst src) s = .next (ok (s.setBuf dst b)) :=
  finish_ok (by simp only [bbAppendFromBody, if_neg hne, if_neg (Nat.not_lt.mpr hfit), h, Except.map])

theorem exec_bbAppendFrom_full {s : State} {dst : Dst} {src : Sel} (hne : dst.sel ≠ src)
    (hfull : s.dstCap dst < (s.buf dst.sel).len + (s.buf src).len) : exec (.bbAppendFrom dst src) s =
      .next (s.takeError (.capacityBitBuffer (s.dstCap dst) ((s.buf dst.sel).len + (s.buf src).len))) :=
  finish_error (by simp only [bbAppendFromBody, if_neg hne, if_pos hfull])

theorem exec_bbReadBit_ok {s : State} {sel : Sel} {bit : Bool} (h : (s.buf sel).bits[s.arg.toNat]? = some bit) :
    exec (.bbReadBit sel) s = .next (ok { s with res := if bit then 1 else 0 }) := by
  have hbody : bbReadBitBody sel s = .ok (s.setRes bit.toNat) := by simp only [bbReadBitBody, h]
  refine (finish_ok hbody).trans ?_
  cases bit <;> rfl

theorem exec_bbReadBit_beyond {s : State} {sel : Sel} (h : (s.buf sel).len ≤ s.arg.toNat) :
    exec (.bbReadBit sel) s = .next (s.takeError (.indexRead (s.buf sel).len s.arg.toNat)) :=
  finish_error (by simp only [bbReadBitBody, List.getElem?_eq_none h])

theorem exec_bbRemoveLast_ok {s : State} {dst : Dst} {b : BitBuf} (h : (s.buf dst.sel).pop = .ok b) :
    exec (.bbRemoveLast dst) s = .next (ok (s.setBuf dst b)) :=
  finish_ok (by rw [bbRemoveLastBody, h, Except.map])

theorem exec_bbRemoveLast_error {s : State} {dst : Dst} {e : Err} (h : (s.buf dst.sel).pop = .error e) :
    exec (.bbRemoveLast dst) s = .next (s.takeError e) :=
  finish_error (by rw [bbRemoveLastBody, h, Except.map])

theorem exec_bbToBytes_ok {s : State} {sel : Sel} (h : ceil8 (s.buf sel).len ≤ s.cfg.capOut) : exec (.bbToBytes sel) s =
    .next (ok { s with out := (s.buf sel).pack s.draws, draws := s.draws + (s.buf sel).packDraws }) :=
  finishOut_ok (by simp only [bbToBytesBody, if_neg (Nat.not_lt.mpr h)])

theorem exec_bbToBytes_full {s : State} {sel : Sel} (h : s.cfg.capOut < ceil8 (s.buf sel).len) :
    exec (.bbToBytes sel) s = .next (s.emptyOut.takeError (.capacityOut s.cfg.capOut (ceil8 (s.buf sel).len))) :=
  finishOut_error (by simp only [bbToBytesBody, if_pos h])

/-- Every bit of a buffer stands in one of its packed bytes (R120). -/
theorem BitBuf.lt_packed_of_lt_length {b : BitBuf} {i : Nat} (h : i < b.bits.length) : i < 8 * ceil8 b.len := by
  rw [ceil8, BitBuf.len]
  omega

/-! ## Sequences of commands -/

theorem runCmds_cons {i : Instr} {is : List Instr} {s t : State} (h : exec i s = .next t) :
    runCmds (i :: is) s = runCmds is t := by
  simp only [runCmds, h]

/-- A stale bit's place is taken without raising the high-water mark (R31, R112). -/
theorem BitBuf.push_below_hwm {cap : Nat} {b : BitBuf} {bit : Bool} (hlen : b.len < b.hwm) (hcap : b.hwm ≤ cap) :
    b.push cap bit = .ok ⟨b.bits ++ [bit], b.hwm⟩ := by
  rw [BitBuf.push_ok bit (hlen.trans_le hcap).ne, Nat.max_eq_left hlen]

/-- Bits that fit can all be pushed, whatever the high-water mark (R114). -/
theorem BitBuf.pushAll_fits {cap : Nat} : ∀ {bits : List Bool} {b : BitBuf}, b.len + bits.length ≤ cap →
    ∃ c, b.pushAll cap bits = .ok c
  | [], b, _ => ⟨b, rfl⟩
  | bit :: bits, b, h => by
    rw [List.length_cons] at h
    simp only [BitBuf.pushAll, BitBuf.push_ok bit (show b.len ≠ cap by omega)]
    apply BitBuf.pushAll_fits
    simp only [BitBuf.len, List.length_append, List.length_singleton] at *
    omega

/-- Bits pushed on a buffer created empty are the buffer created whole with them (R31). -/
theorem BitBuf.created_pushAll {cap : Nat} {bits : List Bool} (h : bits.length ≤ cap) :
    BitBuf.created.pushAll cap bits = .ok (.fresh bits) := by
  have hfit : BitBuf.created.len + bits.length ≤ cap := (Nat.zero_add _).trans_le h
  rw [BitBuf.pushAll_ok (b := .created) bits (Nat.le_refl 0) hfit]
  simp [BitBuf.created, BitBuf.fresh, BitBuf.len]

/-- A successful `push` of a list of bits begins with its first. -/
theorem BitBuf.pushAll_cons_ok {cap : Nat} {bit : Bool} {bits : List Bool} {b c : BitBuf}
    (h : b.pushAll cap (bit :: bits) = .ok c) : ∃ d, b.push cap bit = .ok d ∧ d.pushAll cap bits = .ok c := by
  cases hd : b.push cap bit with
  | error e => simp [BitBuf.pushAll, hd] at h
  | ok d => exact ⟨d, rfl, by simpa [BitBuf.pushAll, hd] using h⟩

theorem buf_ok_setBuf (s : State) (dst : Dst) (b : BitBuf) : (ok (s.setBuf dst b)).buf dst.sel = b :=
  (State.buf_endOk _ _).trans (s.buf_setBuf dst b)

theorem dstCap_ok_setBuf (s : State) (dst : Dst) (b : BitBuf) : (ok (s.setBuf dst b)).dstCap dst = s.dstCap dst :=
  (State.dstCap_endOk _ _).trans (s.dstCap_setBuf dst dst b)

/-- Of two commands that write one buffer and end `Ok`, only the second write is left. -/
theorem ok_setBuf_ok_setBuf (s : State) (dst : Dst) (b c : BitBuf) :
    ok ((ok (s.setBuf dst b)).setBuf dst c) = ok (s.setBuf dst c) := by
  change ((s.setBuf dst b).endOk.setBuf dst c).endOk = (s.setBuf dst c).endOk
  rw [State.setBuf_endOk, State.setBuf_setBuf, State.endOk_endOk]

theorem State.setBuf_buf (s : State) (dst : Dst) : s.setBuf dst (s.buf dst.sel) = s := by cases dst <;> rfl

/-- One BB_APPEND_BIT for each bit leaves the buffer that pushing them all leaves. The error registers, which no command writes
when there is no bit, are compared as a command that ends `Ok` leaves them. -/
theorem runCmds_bbAppendBit {dst : Dst} {b : BitBuf} : ∀ {bits : List Bool} {s : State},
    (s.buf dst.sel).pushAll (s.dstCap dst) bits = .ok b →
    ∃ t, runCmds (bits.map (.bbAppendBit dst)) s = some t ∧ ok t = ok (s.setBuf dst b) ∧ (ok s = s → ok t = t)
  | [], s, h => by
    obtain rfl : s.buf dst.sel = b := Except.ok.inj h
    exact ⟨s, rfl, by rw [State.setBuf_buf], id⟩
  | bit :: bits, s, h => by
    obtain ⟨d, hpush, hrest⟩ := BitBuf.pushAll_cons_ok h
    obtain ⟨t, hrun, hst, hok⟩ := runCmds_bbAppendBit (s := ok (s.setBuf dst d)) (by
      rw [buf_ok_setBuf, dstCap_ok_setBuf]; exact hrest)
    exact ⟨t, (runCmds_cons (exec_bbAppendBit_ok hpush)).trans hrun, hst.trans (ok_setBuf_ok_setBuf s dst d b),
      fun _ => hok rfl⟩

end Sys2Proof.Machine
end

section
/-! SUPPORT. The statements of the bit buffers (40_bitbuffer.md). -/

namespace Sys2Proof.Machine

open Sys2Proof.Claims

/-! ## The commands -/

/-- Settles O14: creating the buffer empty is one write and has no error. -/
theorem bbInitCreatesTheBufferEmpty : Obligations.BbInitCreatesTheBufferEmpty := by
  unfold Obligations.BbInitCreatesTheBufferEmpty
  exact fun s dst => ⟨decode_word_dst rfl rfl, finish_ok (body := bbInitBody dst) rfl⟩

/-- Settles O15: the two ends of `push`. -/
theorem bbAppendBitPushesOneBit : Obligations.BbAppendBitPushesOneBit := by
  unfold Obligations.BbAppendBitPushesOneBit
  exact fun s dst bit => ⟨decode_word_dst rfl rfl, fun h => exec_bbAppendBit_ok (BitBuf.push_ok bit h),
    fun h => exec_bbAppendBit_error (BitBuf.push_full bit h)⟩

/-- Settles O16: with `len ≤ hwm` the pushes raise hwm to the new length even when the source is empty. -/
theorem bbAppendFromAppendsTheSource : Obligations.BbAppendFromAppendsTheSource := by
  unfold Obligations.BbAppendFromAppendsTheSource
  intro s dst src hinv
  refine ⟨fun hne => ?_, fun hne hfit => ?_, fun hne hfull => exec_bbAppendFrom_full hne hfull, ?_⟩
  · exact decode_eq_of_encode_eq (encode_bbAppendFrom dst src) (bne_iff_ne.mpr hne)
  · exact exec_bbAppendFrom_ok hne hfit (BitBuf.pushAll_ok _ (hinv.len_le_hwm dst.sel) hfit)
  · rintro rfl
    rw [← encode_bbAppendFrom]
    exact ⟨decode_bbAppendFrom_self dst, exec_bbAppendFrom_same s dst⟩

/-- Settles O17: an index below the length has a bit, any other has none. -/
theorem bbReadBitReadsTheBitAtArg : Obligations.BbReadBitReadsTheBitAtArg := by
  unfold Obligations.BbReadBitReadsTheBitAtArg
  exact fun s sel => ⟨decode_word_sel rfl rfl, fun h => exec_bbReadBit_ok (List.getElem?_eq_getElem h),
    exec_bbReadBit_beyond⟩

/-- Settles O18: the two ends of `pop`. -/
theorem bbRemoveLastDropsOneBit : Obligations.BbRemoveLastDropsOneBit := by
  unfold Obligations.BbRemoveLastDropsOneBit
  exact fun s dst => ⟨decode_word_dst rfl rfl, fun _ _ h => exec_bbRemoveLast_ok (BitBuf.pop_ok h),
    fun h => exec_bbRemoveLast_error (BitBuf.pop_empty h)⟩

/-- Settles O19: emptying the buffer is one write, of the old hwm, and has no error. -/
theorem bbClearKeepsTheHighWaterMark : Obligations.BbClearKeepsTheHighWaterMark := by
  unfold Obligations.BbClearKeepsTheHighWaterMark
  exact fun s dst => ⟨decode_word_dst rfl rfl, finish_ok (body := bbClearBody dst) rfl⟩

/-- Settles O20: the length fits RES, and R33 says when a codeword's is 0. -/
theorem bbLenReturnsTheLength : Obligations.BbLenReturnsTheLength := by
  unfold Obligations.BbLenReturnsTheLength
  intro s sel hinv
  have hres : (BitVec.ofNat 32 (s.buf sel).len).toNat = (s.buf sel).len := Nat.mod_eq_of_lt (hinv.buf_length_lt sel)
  refine ⟨decode_word_sel rfl rfl, BitVec.ofNat 32 (s.buf sel).len, finish_ok (body := bbLenBody sel) rfl, hres, ?_⟩
  rintro b rfl
  rw [hinv.valid_iff b, ← BitVec.toNat_inj, hres]
  rfl

/-- Settles O21: a length below `2 ^ 32` has fewer bytes than that. -/
theorem bbBytecountReturnsTheByteCount : Obligations.BbBytecountReturnsTheByteCount := by
  unfold Obligations.BbBytecountReturnsTheByteCount
  intro s sel hinv
  have hlen := hinv.buf_length_lt sel
  exact ⟨decode_word_sel rfl rfl, BitVec.ofNat 32 (ceil8 (s.buf sel).len), finish_ok (body := bbBytecountBody sel) rfl,
    Nat.mod_eq_of_lt (show ((s.buf sel).bits.length + 7) / 8 < 2 ^ 32 by omega)⟩

/-- Settles O22: each bit of OUT is the bit packing sees, which is the buffer's own below `len` and 0 from hwm on. -/
theorem bbToBytesPacksTheBits : Obligations.BbToBytesPacksTheBits := by
  unfold Obligations.BbToBytesPacksTheBits
  intro s sel hinv
  refine ⟨decode_word_sel rfl rfl, fun hfit => ?_, fun hfull => exec_bbToBytes_full hfull⟩
  refine ⟨_, exec_bbToBytes_ok hfit, rfl, Nat.le_add_right _ _, BitBuf.pack_length _ _, fun i hi => ?_,
    fun i hhwm hi => ?_⟩
  · exact (BitBuf.pack_bit _ _ _ (BitBuf.lt_packed_of_lt_length hi)).trans (BitBuf.packedBit_of_lt _ hi)
  · have hi' : i < 8 * ceil8 (s.buf sel).len := by rwa [← BitBuf.pack_length _ s.draws]
    exact (BitBuf.pack_bit _ _ _ hi').trans (BitBuf.packedBit_of_hwm_le _ ((hinv.len_le_hwm sel).trans hhwm) hhwm)

/-! ## Sequences and packing -/

/-- Settles O23: after BB_INIT the appended bits are the whole buffer, and BB_READ_BIT reads that. -/
theorem appendedBitsReadBack : Obligations.AppendedBitsReadBack := by
  unfold Obligations.AppendedBitsReadBack
  intro s dst bits hfit hword
  have hinit : exec (.bbInit dst) s = .next (ok (s.setBuf dst .created)) := (bbInitCreatesTheBufferEmpty s dst).2
  obtain ⟨t, hrun, hst, hok⟩ := runCmds_bbAppendBit (s := ok (s.setBuf dst .created)) (by
    rw [buf_ok_setBuf, dstCap_ok_setBuf]; exact BitBuf.created_pushAll hfit)
  rw [ok_setBuf_ok_setBuf] at hst
  obtain rfl : ok (s.setBuf dst (.fresh bits)) = t := hst.symm.trans (hok rfl)
  refine ⟨_, (runCmds_cons hinit).trans hrun, fun i hi => exec_bbReadBit_ok ?_⟩
  have hbuf : State.buf { ok (s.setBuf dst (.fresh bits)) with arg := BitVec.ofNat 32 i } dst.sel = .fresh bits := by
    cases dst <;> rfl
  rw [hbuf, BitVec.toNat_ofNat, Nat.mod_eq_of_lt (hi.trans hword)]
  exact List.getElem?_eq_getElem hi

/-- Settles O24: with `len ≤ hwm`, appending at the removed index does not raise hwm. -/
theorem removeThenAppendReplacesTheLastBit : Obligations.RemoveThenAppendReplacesTheLastBit := by
  unfold Obligations.RemoveThenAppendReplacesTheLastBit
  intro s dst bits old x hbits hinv
  have hlen : (s.buf dst.sel).len = bits.length + 1 := by rw [BitBuf.len, hbits, List.length_append, List.length_singleton]
  obtain ⟨hhwm, hcap⟩ := hinv.dst_wf dst
  have hlt : bits.length < (s.buf dst.sel).hwm := by omega
  rw [runCmds_cons (exec_bbRemoveLast_ok (BitBuf.pop_ok hbits)),
    runCmds_cons (exec_bbAppendBit_ok (by rw [buf_ok_setBuf, dstCap_ok_setBuf]; exact BitBuf.push_below_hwm hlt hcap)),
    ok_setBuf_ok_setBuf]
  rfl

/-- Settles O25: both are the push of all the source's bits. -/
theorem appendFromIsRepeatedAppendBit : Obligations.AppendFromIsRepeatedAppendBit := by
  unfold Obligations.AppendFromIsRepeatedAppendBit
  intro s dst src hne hfit
  obtain ⟨b, hb⟩ := BitBuf.pushAll_fits hfit
  obtain ⟨t, hrun, hst, -⟩ := runCmds_bbAppendBit hb
  exact ⟨t, hrun, hst ▸ exec_bbAppendFrom_ok hne hfit hb⟩

/-- Settles O26: below `len` packing sees the buffer's own bits, and no bit of the last byte is stale. -/
theorem unpackOfPackIsTheBits : Obligations.UnpackOfPackIsTheBits := by
  unfold Obligations.UnpackOfPackIsTheBits
  intro b base hhwm
  refine ⟨List.ext_getElem (Memory.unpack_length _ _ _) fun i _ hi => ?_, ?_⟩
  · rw [Memory.unpack_getElem, Nat.zero_add, Memory.byte_eq_getD, BitBuf.pack_bit _ _ _ (BitBuf.lt_packed_of_lt_length hi),
      BitBuf.packedBit_of_lt _ hi]
  · rw [BitBuf.packDraws, hhwm]
    omega

end Sys2Proof.Machine
end

section
/-! SUPPORT. The frequency counter (41_frequency_table.md): the table of counts, and the statements of FT_COUNT. -/

namespace Sys2Proof.Machine

open Sys2Proof.Claims

/-! ## The byte values and the entries of a table -/

theorem mem_byteValues (b : Byte) : b ∈ (List.range 256).map (BitVec.ofNat 8) :=
  List.mem_map.mpr ⟨b.toNat, List.mem_range.mpr b.isLt, BitVec.ofNat_toNat 8 b⟩

theorem byteValues_nodup : ((List.range 256).map (BitVec.ofNat 8)).Nodup :=
  List.nodup_range.map_on fun x hx y hy h => by
    rw [List.mem_range] at hx hy
    have := congrArg BitVec.toNat h
    rwa [BitVec.toNat_ofNat, BitVec.toNat_ofNat, Nat.mod_eq_of_lt hx, Nat.mod_eq_of_lt hy] at this

/-- Over a list that has every byte value once, each byte of a stream is counted once. -/
theorem sum_count_eq_length {values : List Byte} (hnodup : values.Nodup) (hmem : ∀ b, b ∈ values) (bytes : List Byte) :
    (values.map fun b => bytes.count b).sum = bytes.length := by
  rw [← List.sum_toFinset _ hnodup]
  simpa using Multiset.sum_count_eq_card (m := (bytes : Multiset Byte)) fun b _ => List.mem_toFinset.mpr (hmem b)

/-- The statements' entries are the model's, each with its count (R35). -/
theorem freqEntries_eq_map (freq : Table Word) :
    freqEntries freq = (tableEntries freq).map fun b => (b, (tget freq b).toNat) := by
  rw [tableEntries, ← List.filterMap_eq_map, List.filterMap_filter]
  refine List.filterMap_congr fun b _ => ?_
  by_cases h : tget freq b = 0 <;> simp [h]

/-! ## The counts (R140) -/

/-- A count of a stream that fits a 32-bit length does not wrap. -/
theorem toNat_tget_countBytes {bytes : List Byte} (h : bytes.length < 2 ^ 32) (b : Byte) :
    (tget (countBytes bytes) b).toNat = bytes.count b := by
  rw [countBytes, tget_tabulate, BitVec.toNat_ofNat]
  exact Nat.mod_eq_of_lt (List.count_le_length.trans_lt h)

theorem tget_countBytes_ne_zero {bytes : List Byte} (h : bytes.length < 2 ^ 32) (b : Byte) :
    tget (countBytes bytes) b ≠ 0 ↔ b ∈ bytes := by
  rw [ne_eq, ← BitVec.toNat_inj, toNat_tget_countBytes h]
  exact List.count_eq_zero.not.trans not_not

/-- The entries of the counts are the distinct bytes: both lists hold each of them once (R141). -/
theorem tableEntries_countBytes_perm {bytes : List Byte} (h : bytes.length < 2 ^ 32) :
    (tableEntries (countBytes bytes)).Perm bytes.dedup :=
  (List.perm_ext_iff_of_nodup (tableEntries_nodup _) bytes.nodup_dedup).mpr fun b => by
    rw [mem_tableEntries, tget_countBytes_ne_zero h, List.mem_dedup]

/-! ## FT_COUNT -/

theorem exec_ftCount (s : State) : exec .ftCount s = .next (ok { s with freq := countBytes s.inp }) :=
  finish_ok (body := ftCountBody) rfl

/-- Settles O27: IN_LEN is a 32-bit length, so no count wraps. -/
theorem ftCountCountsEveryByte : Obligations.FtCountCountsEveryByte := by
  unfold Obligations.FtCountCountsEveryByte
  exact fun s hinv => ⟨decode_eq_of_encode_eq (by decide) (by decide), _, exec_ftCount s, rfl,
    toNat_tget_countBytes hinv.inp_length_lt⟩

/-- Settles O28: every byte of IN is counted at one register, and the table's entries are IN without repetition. -/
theorem ftCountSumsToTheInputLength : Obligations.FtCountSumsToTheInputLength := by
  unfold Obligations.FtCountSumsToTheInputLength
  intro s hinv
  have hlen := hinv.inp_length_lt
  refine ⟨_, exec_ftCount s, ?_, tget_countBytes_ne_zero hlen, ?_⟩
  · exact (congrArg List.sum (List.map_congr_left fun b _ => toNat_tget_countBytes hlen b)).trans
      (sum_count_eq_length byteValues_nodup mem_byteValues s.inp)
  · exact (congrArg List.length (freqEntries_eq_map _)).trans
      ((List.length_map _).trans (tableEntries_countBytes_perm hlen).length_eq)

end Sys2Proof.Machine
end

section
/-! SUPPORT. The queue run of R152 to R155: the order of R154 as the model's keys have it, a run depends on its queue's nodes
alone and has one root, and HT_BUILD's loop is a run from the table's leaves. -/

namespace Sys2Proof.Claims

open Sys2Proof.Machine

/-! ## The order of nodes (R154) -/

theorem before_iff_key_lt (x y : Node) : Before x y ↔ x.key.lt y.key = true := by
  rw [Key.lt_iff]
  cases x <;> cases y <;> simp [Before, Node.key, s8, Nat.le_iff_lt_or_eq]

theorem Before.trans {x y z : Node} (hxy : Before x y) (hyz : Before y z) : Before x z := by
  rw [before_iff_key_lt] at *
  exact Key.lt_trans hxy hyz

theorem Before.asymm {x y : Node} (hxy : Before x y) : ¬ Before y x := fun hyx => by
  have hxx := (before_iff_key_lt x x).mp (hxy.trans hyx)
  rw [Key.lt_irrefl] at hxx
  exact Bool.false_ne_true hxx

theorem Before.weight_le {x y : Node} (hxy : Before x y) : x.weight.toNat ≤ y.weight.toNat := by
  rw [before_iff_key_lt, Key.lt_iff, Node.key_weight, Node.key_weight] at hxy
  omega

theorem before_of_weight_lt {x y : Node} (h : x.weight.toNat < y.weight.toNat) : Before x y := by
  rw [before_iff_key_lt, Key.lt_iff, Node.key_weight, Node.key_weight]
  exact .inl h

/-- A leaf precedes every internal node no lighter (R154). -/
theorem before_of_leaf {x y : Node} (hx : x.key.tag = 0) (hy : y.key.tag = 1) (h : x.weight.toNat ≤ y.weight.toNat) :
    Before x y := by
  rw [before_iff_key_lt, Key.lt_iff, Node.key_weight, Node.key_weight]
  omega

/-- An internal node precedes one created later and no lighter (R154). -/
theorem before_of_created_later {x a b : Node} {w : Weight} {seq : Nat} (hx : x.key.tag = 1 ∧ x.key.tie < seq)
    (h : x.weight.toNat ≤ w.toNat) : Before x (.internal w a b seq) := by
  rw [before_iff_key_lt, Key.lt_iff, Node.key_weight, Node.key]
  have := hx.2
  simp only
  omega

/-! ## Runs -/

/-- The queue is a set: a run from its nodes in another order is the same run (R152). -/
theorem QueueRun.perm {seq : Nat} {q q' : List Node} {root : Node} (h : QueueRun seq q root) (hp : q.Perm q') :
    QueueRun seq q' root := by
  cases h with
  | done => rw [← List.singleton_perm.mp hp]; exact .done seq root
  | turn _ _ a b rest _ hq ha hb hrun => exact .turn seq q' a b rest root (hp.symm.trans hq) ha hb hrun

/-- The node before all others of a queue is one node, and so are the others (R154). -/
theorem least_unique {a b : Node} {q q' : List Node} (hp : (a :: q).Perm (b :: q')) (ha : ∀ x ∈ q, Before a x)
    (hb : ∀ x ∈ q', Before b x) : a = b ∧ q.Perm q' := by
  have hab : a = b := by
    by_contra hne
    have hbq : b ∈ q := (List.mem_cons.mp (hp.symm.subset List.mem_cons_self)).resolve_left (Ne.symm hne)
    have haq : a ∈ q' := (List.mem_cons.mp (hp.subset List.mem_cons_self)).resolve_left hne
    exact (ha b hbq).asymm (hb a haq)
  subst hab
  exact ⟨rfl, hp.cons_inv⟩

/-- A run has one root: each turn takes the one least node and the one least of the rest (R157). -/
theorem QueueRun.root_unique {seq : Nat} {q : List Node} {root : Node} (h : QueueRun seq q root) :
    ∀ {root' : Node}, QueueRun seq q root' → root = root' := by
  induction h with
  | done seq root =>
    intro root' h'
    cases h' with
    | done => rfl
    | turn _ _ a b rest _ hq => exact absurd hq.length_eq (by simp)
  | turn seq q a b rest root hq ha hb _ ih =>
    intro root' h'
    cases h' with
    | done => exact absurd hq.length_eq (by simp)
    | turn _ _ a' b' rest' _ hq' ha' hb' hrun' =>
      obtain ⟨rfl, hrest⟩ := least_unique (hq.symm.trans hq') ha ha'
      obtain ⟨rfl, hperm⟩ := least_unique hrest hb hb'
      exact ih (hrun'.perm (hperm.symm.cons _))

end Sys2Proof.Claims

namespace Sys2Proof.Machine

open Sys2Proof.Claims

/-! ## The loop of HT_BUILD is a run -/

/-- The nodes of a queue have different keys, and every creation number in it is below the next one (R154). -/
structure DistinctKeys (seq : Nat) (q : List Node) : Prop where
  nodup : (q.map Node.key).Nodup
  created : ∀ x ∈ q, x.key.tag = 1 → x.key.tie < seq

theorem DistinctKeys.perm {seq : Nat} {q q' : List Node} (h : DistinctKeys seq q) (hp : q.Perm q') : DistinctKeys seq q' where
  nodup := (hp.map _).nodup h.nodup
  created x hx := h.created x (hp.symm.subset hx)

/-- The merge's key is new: no node of the queue has its creation number. -/
theorem DistinctKeys.turn {seq : Nat} {a b : Node} {rest : List Node} (w : Weight) (h : DistinctKeys seq (a :: b :: rest)) :
    DistinctKeys (seq + 1) (.internal w a b seq :: rest) where
  nodup := by
    refine List.nodup_cons.mpr ⟨fun hmem => ?_, h.nodup.of_cons.of_cons⟩
    obtain ⟨x, hx, hkey⟩ := List.mem_map.mp hmem
    have := h.created x (by simp [hx]) (congrArg Key.tag hkey)
    rw [hkey] at this
    exact absurd this (Int.lt_irrefl _)
  created x hx htag := by
    rcases List.mem_cons.mp hx with rfl | hx
    · exact Int.lt_succ _
    · exact Int.lt_trans (h.created x (by simp [hx]) htag) (Int.lt_succ _)

/-- With different keys, a node that no other precedes is before every other. -/
theorem before_of_least {a : Node} {rest : List Node} (hn : ((a :: rest).map Node.key).Nodup)
    (ha : ∀ x ∈ rest, x.key.lt a.key = false) : ∀ x ∈ rest, Before a x := fun x hx => by
  have hne : x.key ≠ a.key := fun he => (List.nodup_cons.mp hn).1 (he ▸ List.mem_map_of_mem hx)
  exact (before_iff_key_lt a x).mpr (Key.lt_of_not_lt (ha x hx) hne)

/-- The loop that ends with one node is a run to that node (R152). -/
theorem queueRun_of_mergeLoop : ∀ (fuel seq : Nat) (q : List Node) {root : Node}, DistinctKeys seq q →
    mergeLoop fuel seq q = [root] → QueueRun seq q root
  | 0, seq, q, root, _, he => by
    rw [mergeLoop] at he
    rw [he]; exact .done seq root
  | fuel + 1, seq, q, root, hk, he => by
    by_cases h2 : 2 ≤ q.length
    · obtain ⟨a, b, rest, hp, ha, hb, hturn⟩ := mergeLoop_turn fuel seq h2
      have hk' := hk.perm hp
      exact .turn seq q a b rest root hp (before_of_least hk'.nodup ha) (before_of_least hk'.nodup.of_cons hb)
        (queueRun_of_mergeLoop fuel (seq + 1) _ (hk'.turn _) (hturn ▸ he))
    · rw [mergeLoop_short _ _ (by omega)] at he
      rw [he]; exact .done seq root

/-! ## The leaves it starts from (R153) -/

theorem distinctKeys_seedQueue (freq : Table Word) : DistinctKeys 0 (seedQueue freq) where
  nodup := by
    rw [seedQueue, List.map_map]
    exact (tableEntries_nodup freq).map fun b c h => BitVec.toInt_inj.mp (congrArg Key.tie h)
  created x hx htag := by
    obtain ⟨b, -, rfl⟩ := mem_seedQueue hx
    exact absurd htag Nat.zero_ne_one

/-- The statements' leaves are the model's, in the order of the byte values instead of the table's (R35). -/
theorem seedQueue_perm_seeds (freq : Table Word) : (seedQueue freq).Perm (seeds freq) := by
  have horder : tableOrder.Perm ((List.range 256).map (BitVec.ofNat 8)) :=
    (List.perm_ext_iff_of_nodup tableOrder_nodup byteValues_nodup).mpr fun b =>
      iff_of_true (mem_tableOrder b) (mem_byteValues b)
  refine List.Perm.trans (.of_eq ?_) (horder.filterMap _)
  rw [seedQueue, tableEntries, ← List.filterMap_eq_map, List.filterMap_filter]
  refine List.filterMap_congr fun b _ => ?_
  by_cases h : tget freq b = 0 <;> simp [h]

theorem seeds_length (freq : Table Word) : (seeds freq).length = (tableEntries freq).length := by
  rw [← seedQueue_length, (seedQueue_perm_seeds freq).length_eq]

theorem stored_eq_toTree (x : Node) : stored x = x.toTree := by cases x <;> rfl

/-- A non-empty table's tree is the root of the run from its leaves (R152). -/
theorem buildTree_queueRun {freq : Table Word} (h : ∃ b, tget freq b ≠ 0) :
    ∃ root, buildTree freq = some (stored root) ∧ QueueRun 0 (seeds freq) root := by
  obtain ⟨root, hloop, htree⟩ := buildTree_root h
  exact ⟨root, htree.trans (congrArg some (stored_eq_toTree root).symm),
    (queueRun_of_mergeLoop _ 0 _ (distinctKeys_seedQueue freq) hloop).perm (seedQueue_perm_seeds freq)⟩

/-! ## HT_BUILD -/

theorem exec_htBuild_ok {s : State} {tree : TreeState} (h : buildTree s.freq = some tree) : exec .htBuild s =
    .next (ok { s.clearMap with tree := tree, treeInfo := builtInfo (tableEntries s.freq).length }) :=
  finish_ok (by rw [htBuildBody, h])

theorem exec_htBuild_empty {s : State} (h : ∀ b, tget s.freq b = 0) : exec .htBuild s = .next (s.takeError .emptyAlphabet) :=
  finish_error (by rw [htBuildBody, buildTree_eq_none.mpr h])

theorem builtInfo_toNat {n : Nat} (h : n ≤ 256) : (builtInfo n).toNat = (if n = 1 then 1 else 2) + 4 * n := by
  rw [builtInfo, treeInfoWord, BitVec.toNat_ofNat, Nat.mod_eq_of_lt]
  split <;> omega

/-- Settles O29: the loop is a run, since the leaves' symbols and the creation numbers keep the keys apart. -/
theorem htBuildRunsTheQueue : Obligations.HtBuildRunsTheQueue := by
  unfold Obligations.HtBuildRunsTheQueue
  refine ⟨decode_eq_of_encode_eq (by decide) (by decide), fun s => exec_htBuild_empty, fun s hs => ?_⟩
  obtain ⟨root, htree, hrun⟩ := buildTree_queueRun hs
  refine ⟨_, root, exec_htBuild_ok htree, hrun, rfl, rfl, fun b => tget_tabulate _ b, fun b => tget_tabulate _ b, ?_⟩
  rw [seeds_length]
  exact builtInfo_toNat (tableEntries_length_le s.freq)

end Sys2Proof.Machine
end

section
/-! SUPPORT. The two-queue method (R156): sorted leaves and internal nodes in creation order, the least node always at one of the
two fronts, and each merge no lighter than the one before it. -/

namespace Sys2Proof.Machine

open Sys2Proof.Claims

/-- The two queues in the order of R154: leaves on one side, internal nodes created before `seq` on the other. -/
structure SortedQueues (seq : Nat) (ls is : List Node) : Prop where
  leaf : ∀ x ∈ ls, x.key.tag = 0
  internal : ∀ x ∈ is, x.key.tag = 1 ∧ x.key.tie < seq
  leavesSorted : ls.Pairwise Before
  internalsSorted : is.Pairwise Before

theorem SortedQueues.tail_leaves {seq : Nat} {l : Node} {ls is : List Node} (h : SortedQueues seq (l :: ls) is) :
    SortedQueues seq ls is :=
  { h with leaf := fun x hx => h.leaf x (List.mem_cons_of_mem l hx), leavesSorted := h.leavesSorted.of_cons }

theorem SortedQueues.tail_internals {seq : Nat} {i : Node} {ls is : List Node} (h : SortedQueues seq ls (i :: is)) :
    SortedQueues seq ls is :=
  { h with internal := fun x hx => h.internal x (List.mem_cons_of_mem i hx), internalsSorted := h.internalsSorted.of_cons }

/-- A node before the head of a sorted queue is before all of it. -/
theorem before_of_before_head {a y : Node} {q : List Node} (hq : (y :: q).Pairwise Before) (h : Before a y) :
    ∀ x ∈ y :: q, Before a x
  | _, .head _ => h
  | _, .tail _ hx => h.trans (List.rel_of_pairwise_cons hq hx)

/-- The front node is the least of both queues (R154, R156). -/
theorem front_least {seq : Nat} {ls is ls' is' : List Node} {a : Node} (h : SortedQueues seq ls is)
    (hf : front ls is = some (a, ls', is')) :
    (ls ++ is).Perm (a :: (ls' ++ is')) ∧ (∀ x ∈ ls' ++ is', Before a x) ∧ SortedQueues seq ls' is' := by
  match ls, is with
  | [], [] => simp [front] at hf
  | l :: ls, [] =>
    simp only [front, Option.some.injEq, Prod.mk.injEq] at hf
    obtain ⟨rfl, rfl, rfl⟩ := hf
    refine ⟨.refl _, ?_, h.tail_leaves⟩
    rw [List.append_nil]
    exact fun x => List.rel_of_pairwise_cons h.leavesSorted
  | [], i :: is =>
    simp only [front, Option.some.injEq, Prod.mk.injEq] at hf
    obtain ⟨rfl, rfl, rfl⟩ := hf
    exact ⟨.refl _, fun x => List.rel_of_pairwise_cons h.internalsSorted, h.tail_internals⟩
  | l :: ls, i :: is =>
    rw [front] at hf
    split at hf
    · rename_i hlt
      simp only [Option.some.injEq, Prod.mk.injEq] at hf
      obtain ⟨rfl, rfl, rfl⟩ := hf
      refine ⟨List.perm_middle, List.forall_mem_append.mpr ⟨?_, ?_⟩, h.tail_internals⟩
      · exact before_of_before_head h.leavesSorted (before_of_weight_lt hlt)
      · exact fun x => List.rel_of_pairwise_cons h.internalsSorted
    · rename_i hle
      simp only [Option.some.injEq, Prod.mk.injEq] at hf
      obtain ⟨rfl, rfl, rfl⟩ := hf
      refine ⟨.refl _, List.forall_mem_append.mpr ⟨?_, ?_⟩, h.tail_leaves⟩
      · exact fun x => List.rel_of_pairwise_cons h.leavesSorted
      · exact before_of_before_head h.internalsSorted (before_of_leaf (h.leaf l List.mem_cons_self)
          (h.internal i List.mem_cons_self).1 (Nat.not_lt.mp hle))

theorem front_eq_none {ls is : List Node} (h : front ls is = none) : ls = [] ∧ is = [] := by
  match ls, is with
  | [], [] => exact ⟨rfl, rfl⟩
  | _ :: _, [] => simp [front] at h
  | [], _ :: _ => simp [front] at h
  | _ :: _, _ :: _ => rw [front] at h; split at h <;> simp at h

/-- A merge no lighter than the internal nodes waiting goes to the end of their queue. -/
theorem SortedQueues.push {seq : Nat} {a b : Node} {w : Weight} {ls is : List Node} (h : SortedQueues seq ls is)
    (hw : ∀ x ∈ is, x.weight.toNat ≤ w.toNat) : SortedQueues (seq + 1) ls (is ++ [.internal w a b seq]) where
  leaf := h.leaf
  internal := List.forall_mem_append.mpr
    ⟨fun x hx => ⟨(h.internal x hx).1, Int.lt_trans (h.internal x hx).2 (Int.lt_succ _)⟩,
      List.forall_mem_singleton.mpr ⟨rfl, Int.lt_succ _⟩⟩
  leavesSorted := h.leavesSorted
  internalsSorted := List.pairwise_append.mpr ⟨h.internalsSorted, List.pairwise_singleton _ _, fun x hx _ hy =>
    List.mem_singleton.mp hy ▸ before_of_created_later (h.internal x hx) (hw x hx)⟩

/-- What every turn keeps: the order, the forest of all nodes, and a weight `m` that no node is below and no internal node is
above twice. By this bound the next merge, of two nodes of weight `m` or more, is no lighter than any merge before it (R156). -/
structure TwoQueues (total n : Nat) (syms : List Byte) (seq : Nat) (ls is : List Node) : Prop where
  sorted : SortedQueues seq ls is
  forest : Forest total n syms seq (ls ++ is)
  spread : ∃ m, (∀ x ∈ ls ++ is, m ≤ x.weight.toNat) ∧ ∀ x ∈ is, x.weight.toNat ≤ 2 * m

theorem TwoQueues.turn {total n : Nat} {syms : List Byte} {seq : Nat} {ls is ls' is' : List Node} {a b : Node}
    (htotal : total < 2 ^ 40) (hn : n ≤ 256) (h : TwoQueues total n syms seq ls is)
    (hp : (ls ++ is).Perm (a :: b :: (ls' ++ is'))) (hab : Before a b) (hb : ∀ x ∈ ls' ++ is', Before b x)
    (hs : SortedQueues seq ls' is') :
    TwoQueues total n syms (seq + 1) ls' (is' ++ [.internal (a.weight + b.weight) a b seq]) := by
  have hforest := (h.forest.perm hp).turn htotal hn
  have hsum : (a.weight + b.weight).toNat = a.weight.toNat + b.weight.toNat := (hforest.wf _ List.mem_cons_self).1
  obtain ⟨m, hlow, hhigh⟩ := h.spread
  have ha := hlow a (hp.symm.subset List.mem_cons_self)
  have hle := hab.weight_le
  have hwaiting : ∀ x ∈ is', x.weight.toNat ≤ 2 * m := fun x hx => by
    have htag := (hs.internal x hx).1
    refine hhigh x ((List.mem_append.mp (hp.symm.subset (by simp [hx]))).resolve_left fun hl => ?_)
    have := h.sorted.leaf x hl
    omega
  refine ⟨hs.push fun x hx => ?_, ?_, b.weight.toNat, ?_, ?_⟩
  · have := hwaiting x hx
    omega
  · rw [← List.append_assoc]
    exact hforest.perm (List.perm_append_singleton _ _).symm
  · rw [← List.append_assoc]
    refine List.forall_mem_append.mpr ⟨fun x hx => (hb x hx).weight_le, List.forall_mem_singleton.mpr ?_⟩
    change _ ≤ (a.weight + b.weight).toNat
    omega
  · refine List.forall_mem_append.mpr ⟨fun x hx => ?_, List.forall_mem_singleton.mpr ?_⟩
    · have := hwaiting x hx
      omega
    · change (a.weight + b.weight).toNat ≤ _
      omega

/-- With a turn for each node the two-queue method ends, and it is a run (R156). -/
theorem twoQueue_run {total n : Nat} {syms : List Byte} (htotal : total < 2 ^ 40) (hn : n ≤ 256) :
    ∀ (fuel seq : Nat) (ls is : List Node), TwoQueues total n syms seq ls is → ls ++ is ≠ [] → (ls ++ is).length ≤ fuel →
      ∃ root, twoQueue fuel seq ls is = some root ∧ QueueRun seq (ls ++ is) root
  | 0, seq, ls, is, _, hne, hfuel => absurd (List.length_eq_zero_iff.mp (Nat.le_zero.mp hfuel)) hne
  | fuel + 1, seq, ls, is, h, hne, hfuel => by
    cases hf₁ : front ls is with
    | none =>
      obtain ⟨rfl, rfl⟩ := front_eq_none hf₁
      exact absurd rfl hne
    | some r₁ =>
      obtain ⟨a, ls₁, is₁⟩ := r₁
      obtain ⟨hp₁, ha, hs₁⟩ := front_least h.sorted hf₁
      cases hf₂ : front ls₁ is₁ with
      | none =>
        obtain ⟨rfl, rfl⟩ := front_eq_none hf₂
        exact ⟨a, by simp only [twoQueue, hf₁, hf₂], (QueueRun.done seq a).perm hp₁.symm⟩
      | some r₂ =>
        obtain ⟨b, ls₂, is₂⟩ := r₂
        obtain ⟨hp₂, hb, hs₂⟩ := front_least hs₁ hf₂
        have hp := hp₁.trans (hp₂.cons a)
        have ha' : ∀ x ∈ b :: (ls₂ ++ is₂), Before a x := fun x hx => ha x (hp₂.symm.subset hx)
        have hlen := hp.length_eq
        simp only [List.length_append, List.length_cons] at hlen hfuel
        obtain ⟨root, htwo, hrun⟩ := twoQueue_run htotal hn fuel (seq + 1) _ _
          (h.turn htotal hn hp (ha' b List.mem_cons_self) hb hs₂) (by simp)
          (by simp only [List.length_append, List.length_singleton]; omega)
        refine ⟨root, by simp only [twoQueue, hf₁, hf₂, htwo], .turn seq _ a b _ root hp ha' hb (hrun.perm ?_)⟩
        rw [← List.append_assoc]
        exact List.perm_append_singleton _ _

/-- The table's leaves sorted, and no internal node yet. -/
theorem twoQueues_seeds {freq : Table Word} {ls : List Node} (hp : ls.Perm (seeds freq)) (hsorted : ls.Pairwise Before) :
    TwoQueues ((tableEntries freq).map fun b => (tget freq b).toNat).sum (tableEntries freq).length (tableEntries freq) 0
      ls [] := by
  have hseed := (seedQueue_perm_seeds freq).trans hp.symm
  refine ⟨⟨fun x hx => ?_, by simp, hsorted, .nil⟩, ?_, 0, by simp, by simp⟩
  · obtain ⟨b, -, rfl⟩ := mem_seedQueue (hseed.symm.subset hx)
    rfl
  · rw [List.append_nil]
    exact (forest_seed freq).perm hseed

/-- Settles O31: the two-queue method is a run from the same leaves, and such a run has one root. -/
theorem htBuildEqualsTheTwoQueueMethod : Obligations.HtBuildEqualsTheTwoQueueMethod := by
  unfold Obligations.HtBuildEqualsTheTwoQueueMethod
  intro s ls hne hp hsorted
  obtain ⟨root, htwo, hrun⟩ := twoQueue_run (counts_lt s.freq) (tableEntries_length_le s.freq) ls.length 0 ls []
    (twoQueues_seeds hp hsorted) (by simpa using hne) (by simp)
  have htable : ∃ b, tget s.freq b ≠ 0 := by
    obtain ⟨x, hx⟩ := List.exists_mem_of_ne_nil ls hne
    obtain ⟨b, hb, -⟩ := mem_seedQueue ((seedQueue_perm_seeds s.freq).symm.subset (hp.subset hx))
    exact ⟨b, hb⟩
  obtain ⟨root', htree, hrun'⟩ := buildTree_queueRun htable
  rw [List.append_nil] at hrun
  rw [(hrun.perm hp).root_unique hrun'] at htwo
  exact ⟨_, root', exec_htBuild_ok htree, rfl, htwo⟩

end Sys2Proof.Machine
end

section
/-! SUPPORT. What the built tree is made of (R36, R156): its leaves, its creation numbers, its size. -/

namespace Sys2Proof.Machine

open Sys2Proof.Claims

/-- What every turn keeps: the queue's nodes hold the table's leaves, and the internal nodes numbered so far (R155, R156). -/
structure Census (entries : List (Byte × Weight)) (seq : Nat) (q : List Node) : Prop where
  leaves : (q.flatMap leaves).Perm entries
  seqs : (q.flatMap seqs).Perm (List.range seq)

theorem Census.perm {entries : List (Byte × Weight)} {seq : Nat} {q q' : List Node} (hp : q.Perm q')
    (h : Census entries seq q) : Census entries seq q' where
  leaves := (hp.flatMap_right _).symm.trans h.leaves
  seqs := (hp.flatMap_right _).symm.trans h.seqs

theorem Census.turn {entries : List (Byte × Weight)} {seq : Nat} {a b : Node} {rest : List Node} (w : Weight)
    (h : Census entries seq (a :: b :: rest)) : Census entries (seq + 1) (.internal w a b seq :: rest) where
  leaves := by simpa [Claims.leaves] using h.leaves
  seqs := by
    rw [List.range_succ]
    refine List.Perm.trans ?_ (List.perm_append_singleton seq _).symm
    simpa [Claims.seqs] using h.seqs

theorem census_seed (freq : Table Word) :
    Census ((freqEntries freq).map fun e => (e.1, BitVec.ofNat 40 e.2)) 0 (seedQueue freq) where
  leaves := .of_eq <| by
    rw [freqEntries_eq_map, List.map_map, seedQueue, List.flatMap_map, List.map_eq_flatMap]
    simp only [Function.comp_apply, BitVec.ofNat_toNat, Claims.leaves]
  seqs := by simp [seedQueue, List.flatMap_map, Claims.seqs]

theorem size_eq (x : Node) : size x = (leaves x).length + (seqs x).length := by
  induction x with
  | leaf s w => rfl
  | internal w l r k ihl ihr => simp only [size, leaves, seqs, List.length_append, List.length_cons, ihl, ihr]; omega

/-- A tree has one leaf more than it has internal nodes (R156). -/
theorem leaves_length (x : Node) : (leaves x).length = (seqs x).length + 1 := by
  induction x with
  | leaf s w => rfl
  | internal w l r k ihl ihr => simp only [leaves, seqs, List.length_append, List.length_cons, ihl, ihr]; omega

theorem Node.toTree_injective {x y : Node} (h : x.toTree = y.toTree) : x = y := by
  cases x <;> cases y <;> cases h <;> rfl

/-- Settles O30: the forest of the loop gives the weights, its census the leaves and the creation numbers. -/
theorem htBuildTreeSizeAndWeight : Obligations.HtBuildTreeSizeAndWeight := by
  unfold Obligations.HtBuildTreeSizeAndWeight
  intro s hs
  obtain ⟨root, hloop, htree⟩ := buildTree_root hs
  obtain ⟨root', hroot, hwf, -, hweight⟩ := buildTree_forest htree
  obtain rfl := Node.toTree_injective hroot
  obtain ⟨seq, hcensus⟩ := mergeLoop_keeps (P := Census _) (fun _ _ _ => Census.perm) (fun _ _ _ _ _ _ h => h.turn _)
    (seedQueue s.freq).length 0 _ (census_seed s.freq)
  rw [hloop] at hcensus
  have hleaves := hcensus.leaves
  have hseqs := hcensus.seqs
  rw [List.flatMap_singleton] at hleaves hseqs
  have hcount := hleaves.length_eq
  have hturns := hseqs.length_eq
  have hone := leaves_length root
  rw [List.length_map] at hcount
  rw [List.length_range] at hturns
  refine ⟨_, root, exec_htBuild_ok htree, (stored_eq_toTree root).symm, hwf, hleaves, ?_, ?_, ?_⟩
  · rwa [← hcount, hone, Nat.add_sub_cancel, hturns]
  · rw [size_eq]; omega
  · rw [hweight, freqEntries_eq_map, List.map_map]; rfl

end Sys2Proof.Machine
end

section
/-! SUPPORT. HT_INFER_MAP: the map holds exactly the tree's codewords (R160 to R162), so none begins with another and their
lengths meet Kraft's sum (R164). -/

namespace Sys2Proof.Machine

open Sys2Proof.Claims

/-! ## The codewords of a tree -/

@[simp] theorem treeCodes_symbols (tree : TreeState) : (treeCodes tree).map Prod.fst = tree.symbols := by
  cases tree with
  | empty => rfl
  | single s w => rfl
  | multi w l r k => exact codes_symbols (.internal w l r k)

theorem TreeState.wf.symbols_nodup {tree : TreeState} (h : tree.wf) : tree.symbols.Nodup := by
  cases tree with
  | empty => exact List.nodup_nil
  | single s w => exact List.nodup_singleton s
  | multi w l r k => exact h.2

/-- No codeword of a tree begins with another entry's (R164 a). -/
theorem treeCodes_prefix_free {tree : TreeState} {c d : Byte × List Bool} (hc : c ∈ treeCodes tree) (hd : d ∈ treeCodes tree)
    (hne : c ≠ d) : ¬ c.2 <+: d.2 := by
  cases tree with
  | empty => exact absurd hc List.not_mem_nil
  | single s w => exact absurd ((List.mem_singleton.mp hc).trans (List.mem_singleton.mp hd).symm) hne
  | multi w l r k =>
    have : Std.Symm fun c d : Byte × List Bool => ¬ c.2 <+: d.2 ∧ ¬ d.2 <+: c.2 := ⟨fun _ _ => And.symm⟩
    exact ((codes_prefix_free (.internal w l r k)).forall hc hd hne).1

/-! ## The map -/

/-- The map of a state is the tree's: each leaf's symbol has its codeword, no other symbol has one (R160). -/
structure HoldsMap (tree : TreeState) (t : State) : Prop where
  code : ∀ c ∈ treeCodes tree, tget t.cw c.1 = BitBuf.fresh c.2 ∧ tget t.cwValid c.1 = true
  absent : ∀ b, b ∉ tree.symbols → tget t.cw b = BitBuf.created ∧ tget t.cwValid b = false

/-- A symbol with an entry has a codeword of the tree. -/
theorem HoldsMap.code_of_valid {tree : TreeState} {t : State} (h : HoldsMap tree t) {b : Byte}
    (hb : tget t.cwValid b = true) : (b, (tget t.cw b).bits) ∈ treeCodes tree := by
  have hmem : b ∈ tree.symbols := by
    by_contra hnot
    rw [(h.absent b hnot).2] at hb
    exact Bool.false_ne_true hb
  rw [← treeCodes_symbols, List.mem_map] at hmem
  obtain ⟨c, hc, rfl⟩ := hmem
  rw [(h.code c hc).1]
  exact hc

theorem HoldsMap.valid_iff {tree : TreeState} {t : State} (h : HoldsMap tree t) (b : Byte) :
    tget t.cwValid b = true ↔ b ∈ tree.symbols := by
  refine ⟨fun hb => ?_, fun hb => ?_⟩
  · rw [← treeCodes_symbols]
    exact List.mem_map_of_mem (f := Prod.fst) (h.code_of_valid hb)
  · rw [← treeCodes_symbols, List.mem_map] at hb
    obtain ⟨c, hc, rfl⟩ := hb
    exact (h.code c hc).2

/-- PATH as HT_INFER_MAP leaves it: empty, with the stale bits of the longest codeword walked (R160). -/
def inferredPath : TreeState → BitBuf
  | .multi w l r k => ⟨[], longest (treeCodes (.multi w l r k))⟩
  | .empty | .single _ _ => BitBuf.created

theorem inferMap_single (w : Word) {s : State} {sym : Byte} {wt : Weight} (h : s.tree = .single sym wt) :
    inferMapBody w s = .ok (s.beginInfer.assign sym [false]) := by
  rw [inferMapBody, h]

theorem holdsMap_single (s : State) (sym : Byte) (wt : Weight) :
    HoldsMap (.single sym wt) (s.beginInfer.assign sym [false]) where
  code c hc := by
    obtain rfl := List.mem_singleton.mp hc
    simp
  absent b hb := by
    have hne : sym ≠ b := fun he => hb (List.mem_singleton.mpr he.symm)
    simp [tget_tset_of_ne, hne]

/-- HT_INFER_MAP on a tree makes the tree's map, and PATH as the walk leaves it (R160 to R162). -/
theorem inferMap_ok (w : Word) {s : State} (h : BlockInv s) (hne : s.tree ≠ .empty) :
    ∃ t, inferMapBody w s = .ok t ∧ HoldsMap s.tree t ∧ t.path = inferredPath s.tree := by
  cases htree : s.tree with
  | empty => exact absurd htree hne
  | single sym wt => exact ⟨_, inferMap_single w htree, holdsMap_single s sym wt, rfl⟩
  | multi wt l r k =>
    have hwf := h.tree
    rw [htree] at hwf
    have hdepth := longest_codes_le (x := .internal wt l r k) hwf.symbols_nodup
    obtain ⟨t, hvisit, hframe, hcode, hrest⟩ := visit_ok (.internal wt l r k) s.beginInfer
      ((Nat.zero_add _).trans_le (hdepth.trans h.cfg.2.1.1)) (Nat.le_refl 0) hwf.symbols_nodup
    refine ⟨t, by rw [inferMapBody, htree]; exact hvisit, ⟨hcode, fun b hb => ?_⟩, ?_⟩
    · simpa using hrest b hb
    · rw [hframe]
      exact congrArg (BitBuf.mk []) ((Nat.zero_max _).trans (Nat.zero_add _))

theorem exec_htInferMap_ok {s : State} (h : BlockInv s) (hne : s.tree ≠ .empty) :
    ∃ t, exec .htInferMap s = .next t ∧ t = ok { s with cw := t.cw, cwValid := t.cwValid, path := t.path } ∧
      HoldsMap s.tree t ∧ t.path = inferredPath s.tree := by
  obtain ⟨t, hbody, hmap, hpath⟩ := inferMap_ok (encode .htInferMap) h hne
  exact ⟨t.endOk, finish_ok hbody, congrArg State.endOk (inferMap_frame hbody), ⟨hmap.code, hmap.absent⟩, hpath⟩

theorem exec_htInferMap_noTree {s : State} (h : s.tree = .empty) :
    exec .htInferMap s = .next (s.takeError (.illegal .noTree (encode .htInferMap))) :=
  finish_error (by rw [inferMapBody, h])

/-! ## The statements -/

/-- Settles O32: the walk of R162 gives each leaf its branch bits, since distinct symbols keep the tree's depth in PATH. -/
theorem inferMapAssignsTheTreePaths : Obligations.InferMapAssignsTheTreePaths := by
  unfold Obligations.InferMapAssignsTheTreePaths
  refine ⟨decode_eq_of_encode_eq (by decide) (by decide), fun s => exec_htInferMap_noTree, fun s hinv hne => ?_⟩
  obtain ⟨t, hexec, hframe, hmap, hpath⟩ := exec_htInferMap_ok hinv hne
  refine ⟨t, hexec, hframe, fun b β hc => hmap.code (b, β) hc, ?_, fun b w h => ?_, fun w l r k h => ?_⟩
  · rw [treeCodes_symbols]
    exact hmap.absent
  · rw [hpath, h]; rfl
  · rw [hpath, h]; rfl

/-- Settles O33: symbols with an entry have codewords of the tree, and none of those begins with another. -/
theorem inferredMapIsPrefixFree : Obligations.InferredMapIsPrefixFree := by
  unfold Obligations.InferredMapIsPrefixFree
  intro s hinv hne
  obtain ⟨t, hexec, -, hmap, -⟩ := exec_htInferMap_ok hinv hne
  exact ⟨t, hexec, fun a b ha hb hab => treeCodes_prefix_free (hmap.code_of_valid ha) (hmap.code_of_valid hb)
    fun he => hab (congrArg Prod.fst he)⟩

/-- A sum over the symbols with an entry is a sum over the tree's codewords. -/
theorem HoldsMap.sum_valid {tree : TreeState} {t : State} (h : HoldsMap tree t) (hn : tree.symbols.Nodup)
    (f : List Bool → Nat) :
    ((((List.range 256).map (BitVec.ofNat 8)).filter fun b => tget t.cwValid b).map fun b => f (tget t.cw b).bits).sum =
      ((treeCodes tree).map fun c => f c.2).sum := by
  have hperm : (((List.range 256).map (BitVec.ofNat 8)).filter fun b => tget t.cwValid b).Perm tree.symbols :=
    (List.perm_ext_iff_of_nodup (byteValues_nodup.filter _) hn).mpr fun b => by
      rw [List.mem_filter, h.valid_iff]
      exact and_iff_right (mem_byteValues b)
  rw [(hperm.map _).sum_eq, ← treeCodes_symbols, List.map_map]
  refine congrArg List.sum (List.map_congr_left fun c hc => ?_)
  rw [Function.comp_apply, (h.code c hc).1, BitBuf.fresh_bits]

/-- Settles O34: Kraft's sum over the entries is the one over the tree's codewords, none longer than 255 bits. -/
theorem inferredMapIsComplete : Obligations.InferredMapIsComplete := by
  unfold Obligations.InferredMapIsComplete
  intro s w l r k hinv htree
  obtain ⟨t, hexec, -, hmap, -⟩ := exec_htInferMap_ok hinv (by simp [htree])
  have hwf := hinv.tree
  rw [htree] at hmap hwf
  have hdepth := longest_codes_le (x := .internal w l r k) hwf.symbols_nodup
  refine ⟨t, hexec, (hmap.sum_valid hwf.symbols_nodup fun β => 2 ^ (255 - β.length)).trans ?_⟩
  exact codes_kraft (.internal w l r k) 255 fun c hc => (le_longest hc).trans hdepth

end Sys2Proof.Machine
end

section
/-! SUPPORT. HT_DECODE_ONE: a codeword at CUR, or one bit of a Single tree, and its agreement with the inferred map (R170 to
R173). -/

namespace Sys2Proof.Machine

open Sys2Proof.Claims

theorem exec_htDecodeOne_ok {s : State} {sym : Byte} {c : Nat}
    (h : decodeOne (encode .htDecodeOne) s.tree s.pb.bits s.cur.toNat = .ok (sym, c)) :
    exec .htDecodeOne s = .next (ok { s with res := sym.setWidth 32, cur := BitVec.ofNat 32 c }) :=
  finish_ok (body := decodeOneBody (encode .htDecodeOne)) (by
    simp only [decodeOneBody, h, State.setRes, BitVec.ofNat_toNat])

theorem exec_htDecodeOne_error {s : State} {e : Err}
    (h : decodeOne (encode .htDecodeOne) s.tree s.pb.bits s.cur.toNat = .error e) :
    exec .htDecodeOne s = .next (s.takeError e) :=
  finish_error (body := decodeOneBody (encode .htDecodeOne)) (by simp only [decodeOneBody, h])

theorem decodeOne_empty (w : Word) (bits : List Bool) (c : Nat) :
    decodeOne w .empty bits c = .error (.illegal .noTree w) := rfl

theorem decodeOne_single_overrun {w : Word} {s : Byte} {wt : Weight} {bits : List Bool} {c : Nat} (h : bits.length ≤ c) :
    decodeOne w (.single s wt) bits c = .error (.decodeOverrun bits.length c) := by
  rw [decodeOne, if_pos h]

/-- Where an entry's codeword stands, or inside the buffer for a Single tree, decoding gives its symbol and consumes exactly
its codeword (R173). -/
theorem decodeOne_of_code {w : Word} {tree : TreeState} {bits : List Bool} {c : Nat} {d : Byte × List Bool}
    (hd : d ∈ treeCodes tree)
    (hat : d.2 <+: bits.drop c ∨ (∃ wt, tree = .single d.1 wt) ∧ c < bits.length) :
    decodeOne w tree bits c = .ok (d.1, c + d.2.length) := by
  cases tree with
  | empty => exact absurd hd List.not_mem_nil
  | single s wt =>
    obtain rfl := List.mem_singleton.mp hd
    refine decodeOne_single (hat.elim (fun hp => ?_) And.right)
    have := hp.length_le
    simp only [List.length_singleton, List.length_drop] at this
    omega
  | multi wt l r k => exact decodeOne_multi hd (hat.resolve_right fun ⟨⟨_, he⟩, _⟩ => TreeState.noConfusion he)

/-- Settles O35: each clause is one case of `decode_one`. -/
theorem htDecodeOneWalksTheTree : Obligations.HtDecodeOneWalksTheTree := by
  unfold Obligations.HtDecodeOneWalksTheTree
  refine ⟨decode_eq_of_encode_eq (by decide) (by decide), fun s htree => ?_,
    fun s sym w _ htree => ⟨fun hc => ?_, fun hc => ?_⟩,
    fun s w l r k htree => ⟨fun b β hd hp => ?_, fun hnone => ?_⟩⟩
  · exact exec_htDecodeOne_error (by rw [htree]; exact decodeOne_empty _ _ _)
  · have hcur : BitVec.ofNat 32 (s.cur.toNat + 1) = s.cur + 1 := BitVec.eq_of_toNat_eq (by simp)
    rw [exec_htDecodeOne_ok (by rw [htree]; exact decodeOne_single hc), hcur]
  · exact exec_htDecodeOne_error (by rw [htree]; exact decodeOne_single_overrun hc)
  · exact exec_htDecodeOne_ok (by rw [htree] at hd ⊢; exact decodeOne_multi hd hp)
  · exact exec_htDecodeOne_error (by rw [htree] at hnone ⊢; exact decodeOne_multi_overrun hnone)

/-- Settles O36: a symbol with an entry has a codeword of the same tree; the cursor stays inside PB, so it does not wrap. -/
theorem decodingAgreesWithTheInferredMap : Obligations.DecodingAgreesWithTheInferredMap := by
  unfold Obligations.DecodingAgreesWithTheInferredMap
  intro s p c hinv hne hlen
  obtain ⟨t, hexec, hframe, hmap, -⟩ := exec_htInferMap_ok hinv hne
  have htree : t.tree = s.tree := by rw [hframe]; rfl
  refine ⟨t, hexec, fun b hb hat => ?_⟩
  have hdecode : decodeOne (encode .htDecodeOne) t.tree p.bits c.toNat = .ok (b, c.toNat + (tget t.cw b).bits.length) := by
    rw [htree]
    exact decodeOne_of_code (hmap.code_of_valid hb) hat
  have hinside := (decodeOne_bounds hdecode).2
  refine ⟨_, exec_htDecodeOne_ok (s := { t with pb := p, cur := c }) hdecode, rfl, rfl, ?_⟩
  change (BitVec.ofNat 32 _).toNat = _
  rw [BitVec.toNat_ofNat, Nat.mod_eq_of_lt (by omega)]

end Sys2Proof.Machine
end

section
/-! SUPPORT. ENC_ENCODE: what its loop answers on the whole input, each way the command can end, and the statement of the
encoder (R180, R181). -/

namespace Sys2Proof.Machine

open Sys2Proof.Claims

/-! ## The loop over the whole input -/

section
variable {cw : Table BitBuf} {valid : Table Bool} {cap : Nat} {done rest : List Byte} {b : Byte}

theorem encodeLoop_all {bytes : List Byte} (hvalid : ∀ x ∈ bytes, tget valid x = true)
    (hfit : (bytes.flatMap fun x => (tget cw x).bits).length ≤ cap) :
    encodeLoop cw valid cap bytes 0 [] = .ok (bytes.flatMap fun x => (tget cw x).bits) := by
  simpa [encodeLoop] using encodeLoop_append cw valid cap [] bytes 0 [] hvalid (by simpa using hfit)

/-- The loop gets as far as the first byte that fails: `done` is taken, and its length is the byte's address. -/
theorem encodeLoop_reaches (hvalid : ∀ x ∈ done, tget valid x = true)
    (hfit : (done.flatMap fun x => (tget cw x).bits).length ≤ cap) :
    encodeLoop cw valid cap (done ++ rest) 0 [] =
      encodeLoop cw valid cap rest done.length (done.flatMap fun x => (tget cw x).bits) := by
  simpa using encodeLoop_append cw valid cap rest done 0 [] hvalid (by simpa using hfit)

theorem encodeLoop_missing (a : Nat) (β : List Bool) (hb : tget valid b = false) :
    encodeLoop cw valid cap (b :: rest) a β = .error (.missingCodeword b a) := by
  rw [encodeLoop, if_pos hb]

theorem encodeLoop_full {β : List Bool} (a : Nat) (hb : tget valid b = true) (hfull : cap < β.length + (tget cw b).bits.length) :
    encodeLoop cw valid cap (b :: rest) a β = .error (.capacityBitBuffer cap (β.length + (tget cw b).bits.length)) := by
  rw [encodeLoop, if_neg (by simp [hb]), BitBuf.len, if_pos hfull]

/-- When the loop ends with no error its answer is the codewords in order. -/
theorem encodeLoop_eq_of_ok : ∀ {bytes : List Byte} {a : Nat} {β γ : List Bool},
    encodeLoop cw valid cap bytes a β = .ok γ → γ = β ++ bytes.flatMap fun x => (tget cw x).bits
  | [], a, β, γ, h => by
    rw [encodeLoop, Except.ok.injEq] at h
    simp [h]
  | x :: bytes, a, β, γ, h => by
    rw [encodeLoop] at h
    split at h
    · simp at h
    · split at h
      · simp at h
      · rw [encodeLoop_eq_of_ok h, List.append_assoc, List.flatMap_cons]

end

/-! ## The command -/

theorem exec_encEncode_ok {s : State} {bits : List Bool}
    (h : encodeLoop s.cw s.cwValid s.cfg.capPb s.inp 0 [] = .ok bits) :
    exec .encEncode s = .next (ok { s with pb := BitBuf.fresh bits }) :=
  finish_ok (body := encodeBody) (by rw [encodeBody, h, Except.map])

theorem exec_encEncode_error {s : State} {e : Err}
    (h : encodeLoop s.cw s.cwValid s.cfg.capPb s.inp 0 [] = .error e) : exec .encEncode s = .next (s.takeError e) :=
  finish_error (body := encodeBody) (by rw [encodeBody, h, Except.map])

/-- Settles O37: the loop takes the bytes before the first that fails, so it is the one reported. -/
theorem encEncodeConcatenatesCodewords : Obligations.EncEncodeConcatenatesCodewords := by
  unfold Obligations.EncEncodeConcatenatesCodewords
  refine ⟨decode_eq_of_encode_eq (by decide) (by decide), fun s _ => ⟨fun hvalid hfit => ?_,
    fun done b rest hinp hvalid hfit => ⟨fun hb => ?_, fun hb hfull => ?_⟩⟩⟩
  · rw [exec_encEncode_ok (encodeLoop_all hvalid hfit), BitBuf.fresh, List.length_flatMap]
  · exact exec_encEncode_error (by rw [hinp, encodeLoop_reaches hvalid hfit]; exact encodeLoop_missing _ _ hb)
  · exact exec_encEncode_error (by rw [hinp, encodeLoop_reaches hvalid hfit]; exact encodeLoop_full _ hb hfull)

end Sys2Proof.Machine
end

section
/-! SUPPORT. DEC_DECODE: bits that decode to bytes, the loop on such bits with anything behind them, each way the command can
end, and the statement of the decoder (R172, R184). -/

namespace Sys2Proof.Claims

open Sys2Proof.Machine

/-! ## Bits that decode to bytes -/

theorem codeword_mem {tree : TreeState} {b : Byte} (hb : b ∈ tree.symbols) : (b, codeword tree b) ∈ treeCodes tree := by
  rw [codeword]
  cases hlook : (treeCodes tree).lookup b with
  | none =>
    rw [← treeCodes_symbols, List.mem_map] at hb
    obtain ⟨c, hc, rfl⟩ := hb
    simpa using List.lookup_eq_none_iff.mp hlook c hc
  | some β =>
    obtain ⟨pre, post, hsplit, -⟩ := List.lookup_eq_some_iff.mp hlook
    simp [hsplit]

/-- The codewords of bytes that all have one decode to the bytes (R98, R172). -/
theorem decodesTo_codewords {tree : TreeState} {bs : List Byte} (hne : tree ≠ .empty) (hbs : ∀ b ∈ bs, b ∈ tree.symbols) :
    DecodesTo tree (bs.flatMap (codeword tree)) bs := by
  cases tree with
  | empty => exact absurd rfl hne
  | single s w =>
    have hall : ∀ b ∈ bs, b = s := fun b hb => List.mem_singleton.mp (hbs b hb)
    refine List.eq_replicate_iff.mpr ⟨?_, hall⟩
    have hone : bs.map (fun b => (codeword (.single s w) b).length) = bs.map fun _ => 1 :=
      List.map_congr_left fun b hb => by simp [hall b hb, codeword, treeCodes]
    simp [List.length_flatMap, hone]
  | multi w l r k => exact ⟨hbs, rfl⟩

theorem DecodesTo.ne_empty {tree : TreeState} {bits : List Bool} {bs : List Byte} (h : DecodesTo tree bits bs) :
    tree ≠ .empty := by
  rintro rfl
  exact h

theorem DecodesTo.eq_nil {tree : TreeState} {bits : List Bool} (h : DecodesTo tree bits []) : bits = [] := by
  cases tree with
  | empty => exact h.elim
  | single s w => exact List.length_eq_zero_iff.mp (by simpa using (congrArg List.length h).symm)
  | multi w l r k => exact h.2

/-- The last byte decodes where the bits of the others end, whatever stands behind it. -/
theorem DecodesTo.last {tree : TreeState} {bits : List Bool} {bs : List Byte} {b : Byte} (h : DecodesTo tree bits (bs ++ [b])) :
    ∃ done code, bits = done ++ code ∧ DecodesTo tree done bs ∧
      ∀ w tail, decodeOne w tree (bits ++ tail) done.length = .ok (b, bits.length) := by
  cases tree with
  | empty => exact h.elim
  | single s wt =>
    have hlen : bits.length = bs.length + 1 := by simpa using (congrArg List.length h).symm
    obtain ⟨-, hall⟩ := List.eq_replicate_iff.mp h
    refine ⟨bits.take bs.length, bits.drop bs.length, (List.take_append_drop ..).symm, ?_, fun w tail => ?_⟩
    · exact List.eq_replicate_iff.mpr ⟨by simp [hlen], fun x hx => hall x (by simp [hx])⟩
    · rw [decodeOne_single (by simp [hlen]; omega), hall b (by simp)]
      simp [hlen]
  | multi wt l r k =>
    obtain ⟨hmem, hbits⟩ := h
    rw [List.flatMap_append, List.flatMap_singleton] at hbits
    refine ⟨_, _, hbits, ⟨fun x hx => hmem x (by simp [hx]), rfl⟩, fun w tail => ?_⟩
    rw [decodeOne_multi (codeword_mem (hmem b (by simp))) (by simp [hbits]), hbits, List.length_append]

end Sys2Proof.Claims

namespace Sys2Proof.Machine

open Sys2Proof.Claims

/-! ## The loop -/

section
variable {w : Word} {tree : TreeState} {bits tail : List Bool} {cap fuel c : Nat} {out : List Byte}

theorem decodeLoop_decode_error {e : Err} (hfuel : fuel ≠ 0) (hc : c < bits.length) (h : decodeOne w tree bits c = .error e) :
    decodeLoop w tree bits cap fuel c out = .error e := by
  obtain ⟨fuel, rfl⟩ := Nat.exists_eq_succ_of_ne_zero hfuel
  rw [decodeLoop, if_pos hc, h]

theorem decodeLoop_full {r : Byte × Nat} (hfuel : fuel ≠ 0) (hout : out.length = cap) (h : decodeOne w tree bits c = .ok r) :
    decodeLoop w tree bits cap fuel c out = .error (.capacityOut cap (cap + 1)) := by
  obtain ⟨fuel, rfl⟩ := Nat.exists_eq_succ_of_ne_zero hfuel
  obtain ⟨hlt, hle⟩ := decodeOne_bounds h
  rw [decodeLoop, if_pos (hlt.trans_le hle), h]
  simp only [hout, if_true]

/-- Bits that decode to bytes OUT has room for are read whole, with fuel left for every bit behind them. -/
theorem decodeLoop_of_decodesTo {bs : List Byte} (h : DecodesTo tree bits bs) (hroom : bs.length ≤ cap) :
    ∃ fuel, decodeLoop w tree (bits ++ tail) cap (bits ++ tail).length 0 [] =
      decodeLoop w tree (bits ++ tail) cap (fuel + tail.length) bits.length bs := by
  induction bs using List.reverseRecOn generalizing bits tail with
  | nil =>
    obtain rfl := h.eq_nil
    exact ⟨0, by simp⟩
  | append_singleton bs b ih =>
    rw [List.length_append, List.length_singleton] at hroom
    obtain ⟨done, code, rfl, hdone, hlast⟩ := h.last
    obtain ⟨fuel, hreach⟩ := ih (tail := code ++ tail) hdone (by omega)
    have hdecode := hlast w tail
    obtain ⟨hlt, hle⟩ := decodeOne_bounds hdecode
    obtain ⟨k, hk⟩ : ∃ k, code.length = k + 1 :=
      Nat.exists_eq_add_one.mpr (by rw [List.length_append] at hlt; omega)
    refine ⟨fuel + k, ?_⟩
    rw [List.append_assoc, hreach, ← List.append_assoc, List.length_append (as := code), hk,
      show fuel + (k + 1 + tail.length) = fuel + k + tail.length + 1 by omega]
    exact decodeLoop_turn (hlt.trans_le hle) hdecode (by omega)

end

/-! ## The command, for any command word NoTree records -/

section
variable {s : State} {bs : List Byte} {bits tail : List Bool} (w : Word)

theorem decode_noTree (h : s.tree = .empty) : decodeBody w s = .error (.illegal .noTree w) := by
  rw [decodeBody, if_pos h]

theorem decodeBody_of_tree (h : s.tree ≠ .empty) : decodeBody w s =
    (decodeLoop w s.tree s.pb.bits s.cfg.capOut s.pb.bits.length 0 []).map fun r =>
      { s with out := r.1, cur := BitVec.ofNat 32 r.2 } := by
  rw [decodeBody, if_neg h, BitBuf.len]

/-- PB decodes to bytes OUT has room for. -/
theorem decode_ok (h : DecodesTo s.tree s.pb.bits bs) (hroom : bs.length ≤ s.cfg.capOut) :
    decodeBody w s = .ok { s with out := bs, cur := BitVec.ofNat 32 s.pb.bits.length } := by
  obtain ⟨fuel, hreach⟩ := decodeLoop_of_decodesTo (w := w) (tail := []) h hroom
  rw [List.append_nil] at hreach
  rw [decodeBody_of_tree w h.ne_empty, hreach, decodeLoop_end _ (Nat.le_refl _), Except.map]

/-- Behind bits that decode, and fit OUT, stand bits that begin with no codeword. -/
theorem decode_overrun {wt : Weight} {l r : Node} {k : Nat} (htree : s.tree = .multi wt l r k) (h : DecodesTo s.tree bits bs)
    (hpb : s.pb.bits = bits ++ tail) (hroom : bs.length ≤ s.cfg.capOut) (htail : tail ≠ [])
    (hnone : ∀ c ∈ treeCodes s.tree, ¬ c.2 <+: tail) :
    decodeBody w s = .error (.decodeOverrun s.pb.bits.length bits.length) := by
  have hpos := List.length_pos_iff.mpr htail
  have hdecode : decodeOne w s.tree s.pb.bits bits.length = .error (.decodeOverrun s.pb.bits.length bits.length) := by
    rw [htree] at hnone ⊢
    exact decodeOne_multi_overrun (by rwa [hpb, List.drop_left])
  obtain ⟨fuel, hreach⟩ := decodeLoop_of_decodesTo (w := w) (tail := tail) h hroom
  rw [← hpb] at hreach
  rw [decodeBody_of_tree w h.ne_empty, hreach,
    decodeLoop_decode_error (by omega) (by rw [hpb, List.length_append]; omega) hdecode, Except.map]

/-- PB begins with bits that decode to one byte more than OUT has room for. -/
theorem decode_full (h : DecodesTo s.tree bits bs) (hpb : s.pb.bits = bits ++ tail) (hlen : bs.length = s.cfg.capOut + 1) :
    decodeBody w s = .error (.capacityOut s.cfg.capOut (s.cfg.capOut + 1)) := by
  obtain ⟨bs, b, rfl⟩ := (List.eq_nil_or_concat' bs).resolve_left (by rintro rfl; simp at hlen)
  rw [List.length_append, List.length_singleton, Nat.add_right_cancel_iff] at hlen
  obtain ⟨done, code, rfl, hdone, hlast⟩ := h.last
  have hlt := (decodeOne_bounds (hlast w [])).1
  rw [List.length_append] at hlt
  obtain ⟨fuel, hreach⟩ := decodeLoop_of_decodesTo (w := w) (tail := code ++ tail) hdone hlen.le
  rw [← List.append_assoc, ← hpb] at hreach
  rw [decodeBody_of_tree w h.ne_empty, hreach,
    decodeLoop_full (by rw [List.length_append]; omega) hlen (by rw [hpb]; exact hlast w tail), Except.map]

end

theorem exec_decDecode_error {s : State} {e : Err} (h : decodeBody (encode .decDecode) s = .error e) :
    exec .decDecode s = .next (s.emptyOut.takeError e) :=
  finishOut_error h

/-- Settles O38: the loop reads the bits that decode, and what stands behind them ends it. -/
theorem decDecodeDecodesTheWholeBuffer : Obligations.DecDecodeDecodesTheWholeBuffer := by
  unfold Obligations.DecDecodeDecodesTheWholeBuffer
  refine ⟨decode_eq_of_encode_eq (by decide) (by decide), fun s htree => exec_decDecode_error (decode_noTree _ htree),
    fun s bs h hroom => finishOut_ok (decode_ok _ h hroom),
    fun s bs tail w l r k htree hbs hpb hroom htail hnone => ?_,
    fun s bs bits tail hpb h hlen => exec_decDecode_error (decode_full _ h hpb hlen)⟩
  have hdecodes := decodesTo_codewords (by simp [htree]) hbs
  exact exec_decDecode_error (decode_overrun _ htree hdecodes hpb hroom htail hnone)

end Sys2Proof.Machine
end

section
/-! SUPPORT. What the encoder makes with the map of a tree decodes with that tree, and the statement of the round trip (R186). -/

namespace Sys2Proof.Machine

open Sys2Proof.Claims

/-- The map of a tree holds the tree's codewords (R160). -/
theorem HoldsMap.bits_eq_codeword {tree : TreeState} {t : State} (h : HoldsMap tree t) {b : Byte} (hb : b ∈ tree.symbols) :
    (tget t.cw b).bits = codeword tree b := by
  rw [(h.code _ (codeword_mem hb)).1, BitBuf.fresh_bits]

/-- The bits ENC_ENCODE concatenates decode to the bytes they stand for (R186). -/
theorem HoldsMap.decodesTo {tree : TreeState} {t : State} (h : HoldsMap tree t) (hne : tree ≠ .empty) {bs : List Byte}
    (hbs : ∀ b ∈ bs, b ∈ tree.symbols) : DecodesTo tree (bs.flatMap fun b => (tget t.cw b).bits) bs := by
  rw [List.flatMap_congr fun b hb => h.bits_eq_codeword (hbs b hb)]
  exact decodesTo_codewords hne hbs

/-- A table's tree has a codeword for exactly the symbols with a count (R153, R164 c). -/
theorem mem_symbols_of_buildTree {freq : Table Word} {tree : TreeState} (h : buildTree freq = some tree) {b : Byte} :
    b ∈ tree.symbols ↔ tget freq b ≠ 0 :=
  (buildTree_symbols h).mem_iff.trans mem_tableEntries

theorem Err.status_ne_zero (e : Err) : e.status ≠ 0 := by
  intro h
  have hkind := statusErr_statusWord e.sub (kind := e.kind) (by have := e.kind_bounds; omega)
  rw [← Err.status, h] at hkind
  exact absurd hkind (Nat.ne_of_lt e.kind_bounds.1)

/-- When ENC_ENCODE ends `Ok`, PB is IN's codewords in order (R180). -/
theorem exec_encEncode_of_status {s t : State} (h : exec .encEncode s = .next t) (hok : t.status = 0) :
    t = ok { s with pb := BitBuf.fresh (s.inp.flatMap fun b => (tget s.cw b).bits) } := by
  cases hloop : encodeLoop s.cw s.cwValid s.cfg.capPb s.inp 0 [] with
  | ok bits =>
    rw [exec_encEncode_ok hloop, Host.Outcome.next.injEq] at h
    rw [← h, encodeLoop_eq_of_ok hloop, List.nil_append]
  | error e =>
    rw [exec_encEncode_error hloop, Host.Outcome.next.injEq] at h
    subst h
    exact absurd hok e.status_ne_zero

theorem runCmds_singleton {i : Instr} {s t : State} (h : runCmds [i] s = some t) : exec i s = .next t := by
  rw [runCmds] at h
  split at h
  · rename_i u hu
    rw [hu, Option.some.inj h]
  · simp at h
  · simp at h

/-- Settles O39: the encoder's bits decode with the tree whose map it used, and a length in PB fits CUR. -/
theorem encodeThenDecodeReturnsIn : Obligations.EncodeThenDecodeReturnsIn := by
  unfold Obligations.EncodeThenDecodeReturnsIn
  intro s t hinv hfreq hcover hroom hrun hok
  obtain ⟨root, -, htree⟩ := buildTree_root hfreq
  have hbuild := exec_htBuild_ok htree
  have hinv₁ := exec_inv hbuild hinv
  obtain ⟨s₂, hinfer, hframe, hmap, -⟩ := exec_htInferMap_ok hinv₁ root.toTree_ne_empty
  rw [runCmds_cons hbuild, runCmds_cons hinfer] at hrun
  have hencode := runCmds_singleton hrun
  have hpb := exec_encEncode_of_status hencode hok
  have hlen := (exec_inv hencode (exec_inv hinfer hinv₁)).pb_length_lt
  have hinp : s₂.inp = s.inp := by rw [hframe]; rfl
  have hcfg : t.cfg = s.cfg := by rw [hpb, hframe]; rfl
  have htree₂ : s₂.tree = root.toTree := by rw [hframe]; rfl
  have hdecodes : DecodesTo t.tree t.pb.bits s.inp := by
    rw [hpb, ← hinp]
    change DecodesTo s₂.tree (s₂.inp.flatMap fun b => (tget s₂.cw b).bits) s₂.inp
    rw [htree₂]
    exact hmap.decodesTo root.toTree_ne_empty fun b hb => (mem_symbols_of_buildTree htree).mpr (hcover b (hinp ▸ hb))
  refine ⟨_, finishOut_ok (decode_ok (encode .decDecode) hdecodes (hcfg ▸ hroom)), rfl, rfl, ?_⟩
  exact (BitVec.toNat_ofNat ..).trans (Nat.mod_eq_of_lt hlen)

end Sys2Proof.Machine
end

section
/-! SUPPORT. The bytes of a container (30_encoding.md R92 to R95): where its fields stand, what CT_SERIALIZE's table and payload
are in it, and what a table of entries holds. -/

namespace Sys2Proof.Claims

open Sys2Proof.Machine

/-! ## Lists of entries (R34, R94) -/

theorem mem_of_lookup {es : List (Byte × Nat)} {b : Byte} {cnt : Nat} (h : es.lookup b = some cnt) : (b, cnt) ∈ es := by
  obtain ⟨pre, post, hsplit, -⟩ := List.lookup_eq_some_iff.mp h
  simp [hsplit]

/-- A symbol with an entry has a count. -/
theorem HoldsTable.ne_zero_of_mem {freq : Table Word} {es : List (Byte × Nat)} {b : Byte} (h : HoldsTable freq es)
    (hcounts : ∀ e ∈ es, 1 ≤ e.2 ∧ e.2 < 2 ^ 32) (hb : b ∈ es.map Prod.fst) : tget freq b ≠ 0 := by
  intro hzero
  have hcount := h b
  rw [hzero] at hcount
  cases hlook : es.lookup b with
  | none =>
    obtain ⟨e, he, rfl⟩ := List.mem_map.mp hb
    simpa using List.lookup_eq_none_iff.mp hlook e he
  | some cnt =>
    have hpos := (hcounts _ (mem_of_lookup hlook)).1
    rw [hlook] at hcount
    exact absurd hcount (Nat.ne_of_lt hpos)

/-- Entries determine the register file that holds them. -/
theorem HoldsTable.unique {f g : Table Word} {es : List (Byte × Nat)} (hf : HoldsTable f es) (hg : HoldsTable g es) : f = g :=
  table_ext fun b => BitVec.eq_of_toNat_eq ((hf b).trans (hg b).symm)

theorem TableEntries.length_lt {es : List (Byte × Nat)} (h : TableEntries es) : es.length < 2 ^ 32 := by
  obtain ⟨-, hnodup, -⟩ := h
  have hle := symbols_length_le hnodup
  rw [List.length_map] at hle
  omega

end Sys2Proof.Claims

namespace Sys2Proof.Machine

open Sys2Proof.Claims

/-! ## The fields of a container (R92, R93) -/

section
variable {m : Memory} {es : List (Byte × Nat)} {bitCount : Nat} {rest : List Byte}

@[simp] theorem entriesBytes_length (es : List (Byte × Nat)) : (entriesBytes es).length = 5 * es.length := entries_length es

@[simp] theorem headBytes_length (es : List (Byte × Nat)) (bitCount : Nat) :
    (headBytes es bitCount).length = 12 + 5 * es.length := by
  simp only [headBytes, List.length_append, entriesBytes_length, bytesLe32_length, List.length_cons, List.length_nil]

theorem headBytes_magic (es : List (Byte × Nat)) (bitCount : Nat) (rest : List Byte) :
    Memory.slice (headBytes es bitCount ++ rest) 0 4 = magic := rfl

theorem headBytes_symbolCount (bitCount : Nat) (rest : List Byte) (h : es.length < 2 ^ 32) :
    le32 (Memory.slice (headBytes es bitCount ++ rest) 4 4) = es.length :=
  le32_bytesLe32 h

theorem headBytes_bitCount (es : List (Byte × Nat)) (rest : List Byte) (h : bitCount < 2 ^ 32) :
    le32 (Memory.slice (headBytes es bitCount ++ rest) 8 4) = bitCount :=
  le32_bytesLe32 h

theorem headBytes_drop_entries (es : List (Byte × Nat)) (bitCount : Nat) (rest : List Byte) :
    (headBytes es bitCount ++ rest).drop 12 = entriesBytes es ++ rest := rfl

theorem headBytes_drop_payload (es : List (Byte × Nat)) (bitCount : Nat) (rest : List Byte) :
    (headBytes es bitCount ++ rest).drop (12 + 5 * es.length) = rest := by
  rw [← headBytes_length es bitCount, List.drop_left]

theorem entriesBytes_append (es more : List (Byte × Nat)) : entriesBytes (es ++ more) = entriesBytes es ++ entriesBytes more :=
  List.flatMap_append

/-- What lies before a cut is read as before it. -/
theorem Memory.slice_take {a k n : Nat} (m : Memory) (h : a + k ≤ n) : Memory.slice (m.take n) a k = m.slice a k := by
  rw [Memory.slice, Memory.slice, List.drop_take, List.take_take, Nat.min_eq_left (by omega)]

/-- The entry at an offset: its symbol and its count (R92). -/
theorem entry_of_drop {a cnt : Nat} {b : Byte} (h : m.drop a = b :: (bytesLe32 cnt ++ rest)) (hcnt : cnt < 2 ^ 32) :
    m.byte a = b ∧ le32 (m.slice (a + 1) 4) = cnt := by
  have hdrop : m.drop (a + 1) = bytesLe32 cnt ++ rest := by rw [← List.tail_drop, h, List.tail_cons]
  exact ⟨Memory.byte_of_drop h, by rw [← bytesLe32_length cnt, Memory.slice_of_drop hdrop, le32_bytesLe32 hcnt]⟩

/-- Bytes that hold bits unpack to them, whatever stands behind them (R66, R201, R202). -/
theorem Memory.unpack_of_holds {a : Nat} {bits : List Bool} (hm : m.drop a = rest) (h : Holds rest bits) :
    m.unpack a bits.length = bits := by
  refine List.ext_getElem (Memory.unpack_length _ _ _) fun i _ hi => ?_
  rw [Memory.unpack_getElem, ← h.2 i hi, ← hm, Memory.byte, Memory.read, List.getD, List.getElem?_drop]

end

/-! ## The packed payload (R95, R120) -/

/-- A buffer's packed bytes hold its bits. -/
theorem BitBuf.holds_pack (b : BitBuf) (base : Nat) : Holds (b.pack base) b.bits :=
  ⟨(BitBuf.pack_length b base).ge, fun i hi =>
    (BitBuf.pack_bit b base i (BitBuf.lt_packed_of_lt_length hi)).trans (BitBuf.packedBit_of_lt base hi)⟩

/-! ## The table of a list of entries (R34, R94) -/

/-- The register file CT_DESERIALIZE makes of entries, written into an empty one in order (R195). -/
def tableOf (es : List (Byte × Nat)) : Table Word :=
  es.foldl (fun f e => tset f e.1 (BitVec.ofNat 32 e.2)) (tabulate fun _ => 0)

/-- Entries with distinct symbols and 32-bit counts make a register file that holds exactly them. -/
theorem holdsTable_tableOf {es : List (Byte × Nat)} (hnodup : (es.map Prod.fst).Nodup)
    (hcounts : ∀ e ∈ es, 1 ≤ e.2 ∧ e.2 < 2 ^ 32) : HoldsTable (tableOf es) es := by
  intro b
  rw [tableOf, tget_foldl_tset es _ b hnodup, tget_tabulate]
  cases hlook : es.lookup b with
  | none => rfl
  | some cnt => exact Nat.mod_eq_of_lt (hcounts _ (mem_of_lookup hlook)).2

/-! ## FREQ's own entries (R35) -/

theorem freqEntries_length (freq : Table Word) : (freqEntries freq).length = (tableEntries freq).length := by
  rw [freqEntries_eq_map, List.length_map]

theorem freqEntries_tableEntries {freq : Table Word} (hne : freqEntries freq ≠ []) : TableEntries (freqEntries freq) := by
  refine ⟨hne, ?_, ?_⟩
  · rw [freqEntries_eq_map, List.map_map]
    exact (tableEntries_nodup freq).map fun _ _ h => h
  · intro e he
    rw [freqEntries_eq_map, List.mem_map] at he
    obtain ⟨b, hb, rfl⟩ := he
    have hpos : (tget freq b).toNat ≠ 0 := fun h => mem_tableEntries.mp hb (BitVec.eq_of_toNat_eq h)
    exact ⟨Nat.one_le_iff_ne_zero.mpr hpos, (tget freq b).isLt⟩

/-- FREQ holds exactly its entries: a symbol without one has count 0. -/
theorem holdsTable_freqEntries (freq : Table Word) : HoldsTable freq (freqEntries freq) := by
  intro b
  rw [freqEntries_eq_map]
  by_cases hb : b ∈ tableEntries freq
  · rw [List.lookup_graph _ hb, Option.getD_some]
  · have hnone : ((tableEntries freq).map fun x => (x, (tget freq x).toNat)).lookup b = none := by
      rw [List.lookup_eq_none_iff]
      intro e he
      obtain ⟨x, hx, rfl⟩ := List.mem_map.mp he
      exact bne_iff_ne.mpr fun h => hb (h ▸ hx)
    rw [hnone, not_not.mp (mem_tableEntries.not.mp hb)]
    rfl

/-- The bytes CT_SERIALIZE writes, with the table's entries as the statements list them (R190). -/
theorem containerBytes_eq_headBytes (freq : Table Word) (bitCount : Nat) (payload : List Byte) :
    containerBytes freq bitCount payload = headBytes (freqEntries freq) bitCount ++ payload := by
  rw [containerBytes, headBytes, entriesBytes, freqEntries_length, freqEntries_eq_map, List.flatMap_map]
  rfl

end Sys2Proof.Machine
end

section
/-! SUPPORT. CT_SERIALIZE: each way it can end, and its statement (R190, R191). -/

namespace Sys2Proof.Machine

open Sys2Proof.Claims

section
variable {s : State}

theorem exec_ctSerialize_empty (h : freqEntries s.freq = []) :
    exec .ctSerialize s = .next (s.emptyOut.takeError .emptyAlphabet) := by
  have hn : (tableEntries s.freq).length = 0 := by rw [← freqEntries_length, h, List.length_nil]
  exact finishOut_error (by simp only [serializeBody, if_pos hn])

theorem exec_ctSerialize_full (hne : freqEntries s.freq ≠ [])
    (hfull : s.cfg.capOut < containerLength (freqEntries s.freq).length s.pb.len) : exec .ctSerialize s =
      .next (s.emptyOut.takeError (.capacityOut s.cfg.capOut (containerLength (freqEntries s.freq).length s.pb.len))) := by
  have hn := mt List.length_eq_zero_iff.mp hne
  rw [freqEntries_length] at hn hfull ⊢
  exact finishOut_error (by simp only [serializeBody, if_neg hn, if_pos hfull])

theorem exec_ctSerialize_ok (hne : freqEntries s.freq ≠ [])
    (hfit : containerLength (freqEntries s.freq).length s.pb.len ≤ s.cfg.capOut) : exec .ctSerialize s =
      .next (ok { s with out := headBytes (freqEntries s.freq) s.pb.len ++ s.pb.pack s.draws,
                         draws := s.draws + s.pb.packDraws }) := by
  have hn := mt List.length_eq_zero_iff.mp hne
  rw [← containerBytes_eq_headBytes]
  rw [freqEntries_length] at hn hfit
  exact finishOut_ok (by simp only [serializeBody, if_neg hn, if_neg (Nat.not_lt.mpr hfit)])

/-- When CT_SERIALIZE ends `Ok`, the table has entries and OUT begins with its container (R190). -/
theorem exec_ctSerialize_of_status {t : State} (h : exec .ctSerialize s = .next t) (hok : t.status = 0) :
    freqEntries s.freq ≠ [] ∧ t.out = headBytes (freqEntries s.freq) s.pb.len ++ s.pb.pack s.draws := by
  by_cases hempty : freqEntries s.freq = []
  · rw [exec_ctSerialize_empty hempty, Host.Outcome.next.injEq] at h
    subst h
    exact absurd hok (Err.status_ne_zero _)
  · refine ⟨hempty, ?_⟩
    rcases Nat.lt_or_ge s.cfg.capOut (containerLength (freqEntries s.freq).length s.pb.len) with hfull | hfit
    · rw [exec_ctSerialize_full hempty hfull, Host.Outcome.next.injEq] at h
      subst h
      exact absurd hok (Err.status_ne_zero _)
    · rw [exec_ctSerialize_ok hempty hfit, Host.Outcome.next.injEq] at h
      subst h
      rfl

end

/-- Settles O40: the payload is the packed buffer, whose bits are PB's own below `len` and 0 from hwm on. -/
theorem ctSerializeWritesTheContainer : Obligations.CtSerializeWritesTheContainer := by
  unfold Obligations.CtSerializeWritesTheContainer
  refine ⟨decode_eq_of_encode_eq (by decide) (by decide), fun s hinv => ⟨fun hempty => exec_ctSerialize_empty hempty,
    fun hne hfit => ?_, fun hne hfull => exec_ctSerialize_full hne hfull⟩⟩
  refine ⟨_, s.pb.pack s.draws, exec_ctSerialize_ok hne hfit, rfl, rfl, BitBuf.pack_length _ _, BitBuf.holds_pack _ _,
    fun i hhwm hi => ?_⟩
  rw [BitBuf.pack_length] at hi
  exact (BitBuf.pack_bit _ _ _ hi).trans (BitBuf.packedBit_of_hwm_le _ (hinv.pb.1.trans hhwm) hhwm)

end Sys2Proof.Machine
end

section
/-! SUPPORT. CT_DESERIALIZE's header checks, one lemma for each that can fail, the header of a container, and the statements of
the checks and of a container cut short (R195 to R198, R204). -/

namespace Sys2Proof.Machine

open Sys2Proof.Claims

/-! ## The checks (R196, R197) -/

section
variable {m : Memory} {sc bc : Nat}

theorem parseHeader_truncatedMagic (h : m.length < 4) : parseHeader m = .error (.format .truncatedMagic 4 m.length) := by
  simp only [parseHeader, if_pos h]

theorem parseHeader_badMagic (h4 : 4 ≤ m.length) (hmagic : m.slice 0 4 ≠ magic) :
    parseHeader m = .error (.format .badMagic 0xDE0DDEC0 (le32 (m.slice 0 4))) := by
  simp only [parseHeader, if_neg (Nat.not_lt.mpr h4), if_pos hmagic]

/-- Four bytes are there once they equal the magic. -/
theorem length_of_magic (h : m.slice 0 4 = magic) : 4 ≤ m.length := by
  have hlen := congrArg List.length h
  simp only [Memory.slice, List.drop_zero, List.length_take, magic, List.length_cons, List.length_nil] at hlen
  omega

/-- With the magic in place only the counts and the lengths are left to check. -/
theorem parseHeader_of_magic (hmagic : m.slice 0 4 = magic) (hsc : le32 (m.slice 4 4) = sc) (hbc : le32 (m.slice 8 4) = bc) :
    parseHeader m =
      if m.length < 8 then .error (.format .truncatedSymbolCount 8 m.length)
      else if m.length < 12 then .error (.format .truncatedBitCount 12 m.length)
      else if m.length < 12 + 5 * sc then .error (.format .truncatedTable (12 + 5 * sc) m.length)
      else if m.length < 12 + 5 * sc + ceil8 bc then .error (.format .truncatedPayload (12 + 5 * sc + ceil8 bc) m.length)
      else if sc = 0 then .error (.format .emptyTable 1 0)
      else .ok (sc, bc) := by
  have h4 := Nat.not_lt.mpr (length_of_magic hmagic)
  simp only [parseHeader, if_neg h4, hmagic, hsc, hbc, ne_eq, not_true_eq_false, if_false]

theorem parseHeader_truncatedSymbolCount (hmagic : m.slice 0 4 = magic) (h : m.length < 8) :
    parseHeader m = .error (.format .truncatedSymbolCount 8 m.length) := by
  rw [parseHeader_of_magic hmagic rfl rfl, if_pos h]

theorem parseHeader_truncatedBitCount (hmagic : m.slice 0 4 = magic) (h8 : 8 ≤ m.length) (h : m.length < 12) :
    parseHeader m = .error (.format .truncatedBitCount 12 m.length) := by
  rw [parseHeader_of_magic hmagic rfl rfl, if_neg (by omega), if_pos h]

theorem parseHeader_truncatedTable (hmagic : m.slice 0 4 = magic) (hsc : le32 (m.slice 4 4) = sc) (h12 : 12 ≤ m.length)
    (h : m.length < 12 + 5 * sc) : parseHeader m = .error (.format .truncatedTable (12 + 5 * sc) m.length) := by
  rw [parseHeader_of_magic hmagic hsc rfl, if_neg (by omega), if_neg (by omega), if_pos h]

theorem parseHeader_truncatedPayload (hmagic : m.slice 0 4 = magic) (hsc : le32 (m.slice 4 4) = sc)
    (hbc : le32 (m.slice 8 4) = bc) (ht : 12 + 5 * sc ≤ m.length) (h : m.length < 12 + 5 * sc + ceil8 bc) :
    parseHeader m = .error (.format .truncatedPayload (12 + 5 * sc + ceil8 bc) m.length) := by
  rw [parseHeader_of_magic hmagic hsc hbc, if_neg (by omega), if_neg (by omega), if_neg (by omega), if_pos h]

theorem parseHeader_emptyTable (hmagic : m.slice 0 4 = magic) (hsc : le32 (m.slice 4 4) = sc)
    (hbc : le32 (m.slice 8 4) = bc) (hp : 12 + 5 * sc + ceil8 bc ≤ m.length) (h : sc = 0) :
    parseHeader m = .error (.format .emptyTable 1 0) := by
  rw [parseHeader_of_magic hmagic hsc hbc, if_neg (by omega), if_neg (by omega), if_neg (by omega), if_neg (by omega), if_pos h]

/-- The header of a stream that covers the counts it declares passes every check. -/
theorem parseHeader_headBytes {es : List (Byte × Nat)} {rest : List Byte} (hne : es ≠ []) (hes : es.length < 2 ^ 32)
    (hbc : bc < 2 ^ 32) (hrest : ceil8 bc ≤ rest.length) : parseHeader (headBytes es bc ++ rest) = .ok (es.length, bc) :=
  parseHeader_of_layout (headBytes_magic es bc rest) (headBytes_symbolCount bc rest hes) (headBytes_bitCount es rest hbc)
    (by rw [List.length_append, headBytes_length]; omega) (mt List.length_eq_zero_iff.mp hne)

end

/-! ## The command -/

section
variable {s : State}

theorem exec_ctDeserialize_ok {freq : Table Word} {bits : List Bool}
    (h : parseContainer s.cfg.capPb s.inp = .ok (freq, bits)) :
    exec .ctDeserialize s = .next (ok { s with freq := freq, pb := BitBuf.fresh bits }) :=
  finish_ok (body := deserializeBody) (by rw [deserializeBody, h, Except.map])

theorem exec_ctDeserialize_error {e : Err} (h : parseContainer s.cfg.capPb s.inp = .error e) :
    exec .ctDeserialize s = .next (s.takeError e) :=
  finish_error (body := deserializeBody) (by rw [deserializeBody, h, Except.map])

theorem exec_ctDeserialize_header_error {e : Err} (h : parseHeader s.inp = .error e) :
    exec .ctDeserialize s = .next (s.takeError e) :=
  exec_ctDeserialize_error (by rw [parseContainer, h])

end

/-- Settles O41: each clause is one check that fails after the ones before it passed. -/
theorem headerChecksFailInOrder : Obligations.HeaderChecksFailInOrder := by
  unfold Obligations.HeaderChecksFailInOrder
  rintro s sc bc rfl rfl
  exact ⟨fun h => exec_ctDeserialize_header_error (parseHeader_truncatedMagic h),
    fun h4 hbad => exec_ctDeserialize_header_error (parseHeader_badMagic h4 hbad),
    fun hmagic => ⟨fun h => exec_ctDeserialize_header_error (parseHeader_truncatedSymbolCount hmagic h),
      fun h8 h => exec_ctDeserialize_header_error (parseHeader_truncatedBitCount hmagic h8 h),
      fun h12 => ⟨fun h => exec_ctDeserialize_header_error (parseHeader_truncatedTable hmagic rfl h12 h),
        fun ht h => exec_ctDeserialize_header_error (parseHeader_truncatedPayload hmagic rfl rfl ht h),
        fun hp h => exec_ctDeserialize_header_error (parseHeader_emptyTable hmagic rfl rfl hp h)⟩⟩⟩

/-- Settles O45: the fields before the cut are the container's own, so the first length the cut falls short of is reported. -/
theorem truncatedContainersAreRejected : Obligations.TruncatedContainersAreRejected := by
  unfold Obligations.TruncatedContainersAreRejected
  intro s es bits pay n hes hbits hpay _ hn hinp
  have hlen : s.inp.length = n := by rw [hinp, List.length_take, Nat.min_eq_left hn.le]
  have hmagic : 4 ≤ n → s.inp.slice 0 4 = magic := fun h => by
    rw [hinp, Memory.slice_take _ h, headBytes_magic]
  have hsc : 12 ≤ n → le32 (s.inp.slice 4 4) = es.length := fun h => by
    rw [hinp, Memory.slice_take _ (by omega), headBytes_symbolCount _ _ hes.length_lt]
  have hbc : 12 ≤ n → le32 (s.inp.slice 8 4) = bits.length := fun h => by
    rw [hinp, Memory.slice_take _ h, headBytes_bitCount _ _ hbits]
  rw [List.length_append, headBytes_length, hpay] at hn
  subst hlen
  exact ⟨fun h => exec_ctDeserialize_header_error (parseHeader_truncatedMagic h),
    fun h4 h => exec_ctDeserialize_header_error (parseHeader_truncatedSymbolCount (hmagic h4) h),
    fun h8 h => exec_ctDeserialize_header_error (parseHeader_truncatedBitCount (hmagic (by omega)) h8 h),
    fun h12 h => exec_ctDeserialize_header_error (parseHeader_truncatedTable (hmagic (by omega)) (hsc h12) h12 h),
    fun ht => exec_ctDeserialize_header_error
      (parseHeader_truncatedPayload (hmagic (by omega)) (hsc (by omega)) (hbc (by omega)) ht hn)⟩

end Sys2Proof.Machine
end

section
/-! SUPPORT. CT_DESERIALIZE's table loop and its payload, and the statements of bad entries, of a whole container and of the
inverse law (R199 to R202, R205). -/

namespace Sys2Proof.Machine

open Sys2Proof.Claims

/-! ## The table loop (R199, R200) -/

section
variable {m : Memory} {es : List (Byte × Nat)} {rest : List Byte} {b : Byte}

theorem readEntries_zeroCount {k i : Nat} {f : Table Word} (h : m.drop (12 + 5 * i) = b :: (bytesLe32 0 ++ rest)) :
    readEntries m (k + 1) i f = .error (.format .zeroCount (12 + 5 * i) b.toNat) := by
  obtain ⟨hb, hcnt⟩ := entry_of_drop h (by decide)
  simp only [readEntries, hb, hcnt, if_true]

theorem readEntries_duplicate {k i cnt : Nat} {f : Table Word} (h : m.drop (12 + 5 * i) = b :: (bytesLe32 cnt ++ rest))
    (hlt : cnt < 2 ^ 32) (hne : cnt ≠ 0) (hseen : tget f b ≠ 0) :
    readEntries m (k + 1) i f = .error (.format .duplicateSymbol (12 + 5 * i) b.toNat) := by
  obtain ⟨hb, hcnt⟩ := entry_of_drop h hlt
  simp only [readEntries, hb, hcnt, if_neg hne, if_pos hseen]

/-- The loop takes the good entries a table begins with. -/
theorem readEntries_reaches (more : List (Byte × Nat)) (bc : Nat) (rest : List Byte) (hnodup : (es.map Prod.fst).Nodup)
    (hcounts : ∀ e ∈ es, 1 ≤ e.2 ∧ e.2 < 2 ^ 32) :
    readEntries (headBytes (es ++ more) bc ++ rest) (es ++ more).length 0 (tabulate fun _ => 0) =
      readEntries (headBytes (es ++ more) bc ++ rest) more.length es.length (tableOf es) := by
  have hdrop : (headBytes (es ++ more) bc ++ rest).drop (12 + 5 * 0) = entriesBytes es ++ (entriesBytes more ++ rest) := by
    rw [headBytes_drop_entries, entriesBytes_append, List.append_assoc]
  rw [List.length_append, Nat.add_comm es.length,
    readEntries_append es more.length 0 _ hdrop hnodup hcounts fun _ _ => tget_tabulate _ _, Nat.zero_add]
  rfl

/-- The entry behind the first `es.length` ones, at its offset. -/
theorem headBytes_drop_entry (es more : List (Byte × Nat)) (b : Byte) (cnt bc : Nat) (rest : List Byte) :
    (headBytes (es ++ (b, cnt) :: more) bc ++ rest).drop (12 + 5 * es.length) =
      b :: (bytesLe32 cnt ++ (entriesBytes more ++ rest)) := by
  rw [← List.drop_drop, headBytes_drop_entries, entriesBytes_append, List.append_assoc,
    List.drop_left' (entriesBytes_length es)]
  rfl

end

/-! ## The parse (R195) -/

section
variable {cap : Nat} {m : Memory}

theorem parseContainer_table_error {sc bc : Nat} {e : Err} (hhead : parseHeader m = .ok (sc, bc))
    (h : readEntries m sc 0 (tabulate fun _ => 0) = .error e) : parseContainer cap m = .error e := by
  simp only [parseContainer, hhead, h]

/-- On a container only PB's capacity is left to check. -/
theorem parseContainer_of_isContainer {es : List (Byte × Nat)} {bits : List Bool} (h : IsContainer m es bits) :
    parseContainer cap m =
      if cap < bits.length then .error (.capacityBitBuffer cap bits.length) else .ok (tableOf es, bits) := by
  obtain ⟨htable, hbits, rest, rfl, hholds⟩ := h
  have hhead := parseHeader_headBytes htable.1 htable.length_lt hbits hholds.1
  obtain ⟨-, hnodup, hcounts⟩ := htable
  have hread := readEntries_reaches [] bits.length rest hnodup hcounts
  rw [List.append_nil, List.length_nil, readEntries] at hread
  have hunpack := Memory.unpack_of_holds (headBytes_drop_payload es bits.length rest) hholds
  simp only [parseContainer, hhead, hread, hunpack]

end

/-! ## The statements -/

/-- Settles O42: the loop takes the good entries, and its next turn meets the bad one. -/
theorem badTableEntriesAreRefused : Obligations.BadTableEntriesAreRefused := by
  unfold Obligations.BadTableEntriesAreRefused
  intro s es more b cnt bc rest hnodup hcounts hcnt hbc hlen hrest hinp
  have hhead := parseHeader_headBytes (by simp) hlen hbc hrest
  have hreach := readEntries_reaches ((b, cnt) :: more) bc rest hnodup hcounts
  have hentry := headBytes_drop_entry es more b cnt bc rest
  rw [← hinp] at hhead hreach hentry
  refine ⟨?_, fun hne hmem => ?_⟩
  · rintro rfl
    exact exec_ctDeserialize_error (parseContainer_table_error hhead (hreach.trans (readEntries_zeroCount hentry)))
  · have hseen := (holdsTable_tableOf hnodup hcounts).ne_zero_of_mem hcounts hmem
    exact exec_ctDeserialize_error
      (parseContainer_table_error hhead (hreach.trans (readEntries_duplicate hentry hcnt hne hseen)))

/-- Settles O43: the parse of a container is its entries' table and its bits, unless PB has no room for them. -/
theorem ctDeserializeReadsTheContainer : Obligations.CtDeserializeReadsTheContainer := by
  unfold Obligations.CtDeserializeReadsTheContainer
  intro s es bits h
  have hparse := parseContainer_of_isContainer (cap := s.cfg.capPb) h
  obtain ⟨⟨-, hnodup, hcounts⟩, -⟩ := h
  refine ⟨fun hroom => ?_, fun hfull => ?_⟩
  · rw [if_neg (Nat.not_lt.mpr hroom)] at hparse
    exact ⟨_, exec_ctDeserialize_ok hparse, rfl, holdsTable_tableOf hnodup hcounts⟩
  · rw [if_pos hfull] at hparse
    exact exec_ctDeserialize_error hparse

/-- Settles O44: what CT_SERIALIZE wrote is a container of FREQ's entries and PB's bits, and FREQ is the one table that holds
those entries. -/
theorem deserializeInvertsSerialize : Obligations.DeserializeInvertsSerialize := by
  unfold Obligations.DeserializeInvertsSerialize
  intro s t u hinv hrun hok hcfg hinp
  obtain ⟨hne, hout⟩ := exec_ctSerialize_of_status hrun hok
  have hcontainer : IsContainer u.inp (freqEntries s.freq) s.pb.bits :=
    ⟨freqEntries_tableEntries hne, hinv.pb_length_lt, s.pb.pack s.draws, hinp.trans hout, BitBuf.holds_pack _ _⟩
  have hroom : s.pb.bits.length ≤ u.cfg.capPb := hcfg ▸ hinv.pb.1.trans hinv.pb.2
  obtain ⟨v, hexec, hframe, htable⟩ := (ctDeserializeReadsTheContainer u _ _ hcontainer).1 hroom
  have hfreq : v.freq = s.freq := htable.unique (holdsTable_freqEntries s.freq)
  refine ⟨v, hexec, ?_, hfreq, ?_⟩ <;> rw [hframe] <;> rfl

end Sys2Proof.Machine
end

section
/-! SUPPORT. The composite commands against the commands they are made of (45_system_toplevel.md R211, R216): the stages read no
error register, so a composite answers what its stages issued one after the other leave. -/

namespace Sys2Proof.Machine

open Sys2Proof.Claims

/-! ## HT_INFER_MAP reads the tree and the parameters alone (R160) -/

/-- `s` with the codeword map and PATH of `t`, and its parameters, which bound PATH. -/
def State.withMapOf (s t : State) : State :=
  { s with cfg := t.cfg, cw := t.cw, cwValid := t.cwValid, path := t.path }

theorem pushPath_withMapOf (bit : Bool) (s t : State) :
    pushPath bit (s.withMapOf t) = (pushPath bit t).map s.withMapOf := by
  change (t.path.push t.cfg.capPath bit).map _ = ((t.path.push t.cfg.capPath bit).map _).map _
  cases t.path.push t.cfg.capPath bit <;> rfl

theorem popPath_withMapOf (s t : State) : popPath (s.withMapOf t) = (popPath t).map s.withMapOf := by
  change t.path.pop.map _ = (t.path.pop.map _).map _
  cases t.path.pop <;> rfl

/-- A change of state that commutes with a body and with what follows it commutes with both in a row. -/
theorem bind_map_comm {f : State → State} {x y : Except Err State} {body : Body} (hx : x = y.map f)
    (hbody : ∀ t, body (f t) = (body t).map f) : x.bind body = (y.bind body).map f := by
  subst hx
  cases y with
  | error e => rfl
  | ok t => exact hbody t

/-- The walk of a tree reads no part of the state but the map, PATH and its capacity. -/
theorem visit_withMapOf (s : State) : ∀ (x : Node) (t : State), visit x (s.withMapOf t) = (visit x t).map s.withMapOf
  | .leaf _ _, _ => rfl
  | .internal _ l r _, t =>
    bind_map_comm (pushPath_withMapOf false s t) fun t₁ =>
      bind_map_comm (visit_withMapOf s l t₁) fun t₂ =>
        bind_map_comm (popPath_withMapOf s t₂) fun t₃ =>
          bind_map_comm (pushPath_withMapOf true s t₃) fun t₄ =>
            bind_map_comm (visit_withMapOf s r t₄) fun t₅ => popPath_withMapOf s t₅

/-- HT_INFER_MAP empties the map and PATH first, so where the tree and the parameters are the same it makes the same map
or raises the same error. -/
theorem inferMapBody_withMapOf (w : Word) {s t : State} (hcfg : s.cfg = t.cfg) (htree : s.tree = t.tree) :
    inferMapBody w s = (inferMapBody w t).map s.withMapOf := by
  have hbegin : s.beginInfer = s.withMapOf t.beginInfer := by
    rw [State.withMapOf, t.beginInfer_cfg, ← hcfg]; rfl
  rw [inferMapBody, inferMapBody, htree, hbegin]
  cases t.tree with
  | empty => rfl
  | single sym wt => rfl
  | multi wt l r k => exact visit_withMapOf s _ _

/-! ## A stage as a computation and a write -/

/-- `s` with a new tree, its mirror, and the map emptied, as HT_BUILD leaves them (R152). -/
def State.withTree (s : State) (tree : TreeState) : State := { s.clearMap with tree := tree, treeInfo := tree.info }

theorem htBuildBody_eq_map (s : State) :
    htBuildBody s = ((buildTree s.freq).elim (Except.error Err.emptyAlphabet) Except.ok).map s.withTree := by
  rw [htBuildBody]
  cases htree : buildTree s.freq with
  | none => rfl
  | some tree => rw [builtInfo_eq_info htree]; rfl

/-- The two checks of CT_SERIALIZE before it writes (R190, R191). -/
def serializeChecks (cap : Nat) (freq : Table Word) (bitCount : Nat) : Except Err Unit :=
  if (tableEntries freq).length = 0 then .error .emptyAlphabet
  else if cap < containerLength (tableEntries freq).length bitCount then
    .error (.capacityOut cap (containerLength (tableEntries freq).length bitCount))
  else .ok ()

/-- `s` with the container of FREQ and PB in OUT, and the draws that packing PB made (R190). -/
def State.withContainer (s : State) : State :=
  { s with out := containerBytes s.freq s.pb.len (s.pb.pack s.draws), draws := s.draws + s.pb.packDraws }

theorem serializeBody_eq_map (s : State) :
    serializeBody s = (serializeChecks s.cfg.capOut s.freq s.pb.len).map fun _ => s.withContainer := by
  rw [serializeBody, serializeChecks]
  by_cases hempty : (tableEntries s.freq).length = 0
  · rw [if_pos hempty, if_pos hempty]; rfl
  · rw [if_neg hempty, if_neg hempty]
    split <;> rfl

/-- A PB created whole packs without a draw (R192). -/
theorem State.withContainer_fresh {s : State} {bits : List Bool} (h : s.pb = BitBuf.fresh bits) :
    s.withContainer = { s with out := containerBytes s.freq bits.length ((BitBuf.fresh bits).pack s.draws) } := by
  rw [State.withContainer, h, BitBuf.fresh_packDraws, BitBuf.fresh_len, Nat.add_zero]

/-! ## No stage reads an error register -/

/-- The body does the same from a state with the error registers cleared. -/
def IgnoresErrors (body : Body) : Prop := ∀ s : State, body s.endOk = (body s).map State.endOk

/-- A body that makes a value from no error register and then writes it. -/
theorem ignoresErrors_map {α : Type} {f : State → Except Err α} {write : State → α → State} (hf : ∀ s, f s.endOk = f s)
    (hwrite : ∀ s a, write s.endOk a = (write s a).endOk) : IgnoresErrors fun s => (f s).map (write s) := by
  intro s
  simp only [hf]
  cases f s with
  | error e => rfl
  | ok a => exact congrArg Except.ok (hwrite s a)

theorem ftCount_ignoresErrors : IgnoresErrors ftCountBody := fun _ => rfl

theorem htBuild_ignoresErrors : IgnoresErrors htBuildBody := by
  rw [funext htBuildBody_eq_map]
  exact ignoresErrors_map (fun _ => rfl) fun _ _ => rfl

theorem inferMap_ignoresErrors (w : Word) : IgnoresErrors (inferMapBody w) := by
  intro s
  rw [inferMapBody_withMapOf w s.endOk_cfg s.endOk_tree]
  cases h : inferMapBody w s with
  | error e => rfl
  | ok t =>
    refine congrArg Except.ok ?_
    rw [inferMap_frame h]; rfl

theorem encode_ignoresErrors : IgnoresErrors encodeBody :=
  ignoresErrors_map (f := fun s => encodeLoop s.cw s.cwValid s.cfg.capPb s.inp 0 []) (fun _ => rfl) fun _ _ => rfl

theorem deserialize_ignoresErrors : IgnoresErrors deserializeBody :=
  ignoresErrors_map (f := fun s => parseContainer s.cfg.capPb s.inp) (fun _ => rfl) fun _ _ => rfl

theorem decode_ignoresErrors (w : Word) : IgnoresErrors (decodeBody w) := by
  intro s
  by_cases htree : s.tree = .empty
  · rw [decode_noTree w htree, decode_noTree w (s := s.endOk) htree]; rfl
  · rw [decodeBody_of_tree w htree, decodeBody_of_tree w (s := s.endOk) htree]
    exact ignoresErrors_map (f := fun s => decodeLoop w s.tree s.pb.bits s.cfg.capOut s.pb.bits.length 0 []) (fun _ => rfl)
      (write := fun s r => { s with out := r.1, cur := BitVec.ofNat 32 r.2 }) (fun _ _ => rfl) s

theorem serialize_ignoresErrors : IgnoresErrors serializeBody := by
  rw [funext serializeBody_eq_map]
  exact ignoresErrors_map (write := fun s _ => s.withContainer) (fun _ => rfl) fun _ _ => rfl

/-- Cleared error registers do not show in how the stages end, which writes all three (R28, R29). -/
theorem endState_runStages_endOk (emptiesOut : Bool) : ∀ {stages : List Body} (s : State),
    (∀ body ∈ stages, IgnoresErrors body) →
      endState emptiesOut (runStages stages s.endOk) = endState emptiesOut (runStages stages s)
  | [], _, _ => rfl
  | body :: stages, s, h => by
    obtain ⟨hbody, hrest⟩ := List.forall_mem_cons.mp h
    simp only [runStages, hbody s]
    cases body s with
    | error e => cases emptiesOut <;> rfl
    | ok t => exact endState_runStages_endOk emptiesOut t hrest

/-- A command whose stages read no error register answers the same whatever the registers hold. -/
theorem exec_endOk {i : Instr} (h : ∀ body ∈ commandStages i, IgnoresErrors body) (s : State) : exec i s.endOk = exec i s := by
  rw [exec_eq_endState, exec_eq_endState, endState_runStages_endOk _ s h]

/-! ## The command word a stage records is of no account once there is a tree (R151) -/

theorem inferMapBody_word {s : State} (h : s.tree ≠ .empty) (w w' : Word) : inferMapBody w s = inferMapBody w' s := by
  cases htree : s.tree with
  | empty => exact absurd htree h
  | single sym wt => rw [inferMapBody, inferMapBody, htree]
  | multi wt l r k => rw [inferMapBody, inferMapBody, htree]

theorem decodeOne_word {tree : TreeState} (h : tree ≠ .empty) (w w' : Word) (bits : List Bool) (c : Nat) :
    decodeOne w tree bits c = decodeOne w' tree bits c := by
  cases tree with
  | empty => exact absurd rfl h
  | single sym wt => rfl
  | multi wt l r k => rfl

theorem decodeLoop_word {tree : TreeState} (h : tree ≠ .empty) (w w' : Word) (bits : List Bool) (cap : Nat) :
    ∀ (fuel c : Nat) (out : List Byte), decodeLoop w tree bits cap fuel c out = decodeLoop w' tree bits cap fuel c out
  | 0, _, _ => rfl
  | fuel + 1, c, out => by
    rw [decodeLoop, decodeLoop, decodeOne_word h w w' bits c]
    simp only [decodeLoop_word h w w' bits cap fuel]

theorem decodeBody_word {s : State} (h : s.tree ≠ .empty) (w w' : Word) : decodeBody w s = decodeBody w' s := by
  rw [decodeBody_of_tree w h, decodeBody_of_tree w' h, decodeLoop_word h w w']

/-- HT_BUILD leaves a tree (R152). -/
theorem htBuild_tree {s t : State} (h : htBuildBody s = .ok t) : t.tree ≠ .empty := by
  rw [htBuildBody] at h
  split at h
  · simp at h
  · rename_i tree htree
    obtain ⟨root, rfl, -⟩ := buildTree_forest htree
    rw [Except.ok.injEq] at h
    rw [← h]
    exact root.toTree_ne_empty

/-! ## A composite against its stages issued as commands -/

theorem runUntilError_of_ok {i : Instr} {is : List Instr} {s t : State} (h : exec i s = .next t) (hok : t.status = 0) :
    runUntilError (i :: is) s = runUntilError is t := by
  simp only [runUntilError, h, if_pos hok]

theorem runUntilError_of_error {i : Instr} {is : List Instr} {s t : State} (h : exec i s = .next t) (herr : t.status ≠ 0) :
    runUntilError (i :: is) s = some t := by
  simp only [runUntilError, h, if_neg herr]

/-- From `s` the commands issued one after the other end where the stages do, but that OUT is still to be emptied on an
error. -/
def Composes (is : List Instr) (stages : List Body) (s : State) : Prop :=
  ∃ u, runUntilError is s.endOk = some u ∧
    endState true (runStages stages s) = if u.status = 0 then u else { u with out := [] }

theorem composes_nil (s : State) : Composes [] [] s := ⟨s.endOk, rfl, rfl⟩

/-- One command more in front, which runs the one stage more. -/
theorem composes_cons {i : Instr} {is : List Instr} {body : Body} {stages : List Body} {s : State}
    (hignore : ∀ b ∈ commandStages i, IgnoresErrors b)
    (hstage : exec i s = .next (endState (writesOut i) (runStages [body] s)))
    (hrest : ∀ t, body s = .ok t → Composes is stages t) : Composes (i :: is) (body :: stages) s := by
  rw [← exec_endOk hignore] at hstage
  cases hbody : body s with
  | ok t =>
    obtain ⟨u, hrun, hend⟩ := hrest t hbody
    simp only [runStages, hbody] at hstage
    refine ⟨u, (runUntilError_of_ok hstage rfl).trans hrun, ?_⟩
    simpa only [runStages, hbody] using hend
  | error e =>
    simp only [runStages, hbody] at hstage
    have herr : (endState (writesOut i) (s, some e)).status ≠ 0 := e.status_ne_zero
    refine ⟨_, runUntilError_of_error hstage herr, ?_⟩
    rw [if_neg herr]
    simp only [runStages, hbody]
    cases writesOut i <;> rfl

/-- The commands COMPRESS is made of (R212). -/
abbrev compressCommands : List Instr := [.ftCount, .htBuild, .htInferMap, .encEncode, .ctSerialize]

/-- The commands DECOMPRESS is made of (R214). -/
abbrev decompressCommands : List Instr := [.ctDeserialize, .htBuild, .decDecode]

/-- HT_INFER_MAP finds the tree HT_BUILD left, so the one stage that records a command word has none to record. -/
theorem compress_composes (s : State) : Composes compressCommands compressStages s := by
  refine composes_cons (List.forall_mem_singleton.mpr ftCount_ignoresErrors) (exec_eq_endState .ftCount s) fun s₁ _ => ?_
  refine composes_cons (List.forall_mem_singleton.mpr htBuild_ignoresErrors) (exec_eq_endState .htBuild s₁) fun s₂ hbuild => ?_
  refine composes_cons (List.forall_mem_singleton.mpr (inferMap_ignoresErrors _)) ?_ fun s₃ _ => ?_
  · rw [exec_eq_endState, commandStages, runStages, runStages, inferMapBody_word (htBuild_tree hbuild)]
  refine composes_cons (List.forall_mem_singleton.mpr encode_ignoresErrors) (exec_eq_endState .encEncode s₃) fun s₄ _ => ?_
  exact composes_cons (List.forall_mem_singleton.mpr serialize_ignoresErrors) (exec_eq_endState .ctSerialize s₄)
    fun t _ => composes_nil t

/-- So does DEC_DECODE. -/
theorem decompress_composes (s : State) : Composes decompressCommands decompressStages s := by
  refine composes_cons (List.forall_mem_singleton.mpr deserialize_ignoresErrors) (exec_eq_endState .ctDeserialize s)
    fun s₁ _ => ?_
  refine composes_cons (List.forall_mem_singleton.mpr htBuild_ignoresErrors) (exec_eq_endState .htBuild s₁) fun s₂ hbuild => ?_
  refine composes_cons (List.forall_mem_singleton.mpr (decode_ignoresErrors _)) ?_ fun t _ => composes_nil t
  rw [exec_eq_endState, commandStages, runStages, runStages, decodeBody_word (htBuild_tree hbuild)]

/-- A composite whose first command reads no error register answers what its commands leave. -/
theorem Composes.exec_eq {i j : Instr} {is : List Instr} {s : State} (h : Composes (i :: is) (commandStages j) s)
    (hj : writesOut j = true) (hignore : ∀ b ∈ commandStages i, IgnoresErrors b) :
    ∃ u, runUntilError (i :: is) s = some u ∧ exec j s = .next (if u.status = 0 then u else { u with out := [] }) := by
  obtain ⟨u, hrun, hend⟩ := h
  simp only [runUntilError, exec_endOk hignore] at hrun
  exact ⟨u, hrun, by rw [exec_eq_endState, hj, hend]⟩

/-- Settles O46: the stages read no error register, so those the commands write between them change nothing. -/
theorem compositesAreTheirStages : Obligations.CompositesAreTheirStages := by
  unfold Obligations.CompositesAreTheirStages
  exact fun s => ⟨(compress_composes s).exec_eq (j := .compress) rfl (List.forall_mem_singleton.mpr ftCount_ignoresErrors),
    (decompress_composes s).exec_eq (j := .decompress) rfl (List.forall_mem_singleton.mpr deserialize_ignoresErrors)⟩

end Sys2Proof.Machine
end

section
/-! SUPPORT. NOP, COMPRESS and DECOMPRESS run command by command (45_system_toplevel.md R210 to R215), and their statements. -/

namespace Sys2Proof.Machine

open Sys2Proof.Claims

/-! ## NOP -/

/-- Settles O12: NOP's row has no operand, so every bit above its opcode is reserved. -/
theorem nopErasesTheErrorRecord : Obligations.NopErasesTheErrorRecord := by
  unfold Obligations.NopErasesTheErrorRecord
  refine ⟨fun s => finish_ok rfl, decode_eq_of_encode_eq (by decide) (by decide), fun w hop hne => ?_⟩
  exact illegalWordsFailAtTheFirstCheck.2.1 w (0x00, 0xFFFFFFFF) (by decide) hop
    ((BitVec.and_allOnes (x := w)).trans_ne hne)

/-! ## What a run of their commands makes of the composites (R211) -/

section
variable {s t u : State} {i : Instr} {is : List Instr}

theorem exec_compress_of_run (h : runUntilError compressCommands s = some u) (hok : u.status = 0) :
    exec .compress s = .next u := by
  obtain ⟨v, hrun, hexec⟩ := (compositesAreTheirStages s).1
  rwa [← Option.some.inj (h.symm.trans hrun), if_pos hok] at hexec

theorem exec_compress_of_failed_run (h : runUntilError compressCommands s = some u) (herr : u.status ≠ 0) :
    exec .compress s = .next u.emptyOut := by
  obtain ⟨v, hrun, hexec⟩ := (compositesAreTheirStages s).1
  rwa [← Option.some.inj (h.symm.trans hrun), if_neg herr] at hexec

theorem exec_decompress_of_run (h : runUntilError decompressCommands s = some u) (hok : u.status = 0) :
    exec .decompress s = .next u := by
  obtain ⟨v, hrun, hexec⟩ := (compositesAreTheirStages s).2
  rwa [← Option.some.inj (h.symm.trans hrun), if_pos hok] at hexec

/-- Where COMPRESS ends `Ok`, its commands end so too, in the same state. -/
theorem run_of_exec_compress (h : exec .compress s = .next t) (hok : t.status = 0) :
    runUntilError compressCommands s = some t := by
  obtain ⟨u, hrun, hexec⟩ := (compositesAreTheirStages s).1
  rw [h, Host.Outcome.next.injEq] at hexec
  have hu : u.status = 0 := by
    by_contra hne
    rw [if_neg hne] at hexec
    exact hne ((congrArg State.status hexec).symm.trans hok)
  rw [hrun, hexec, if_pos hu]

/-- A run that ends `Ok` got past its first command. -/
theorem runUntilError_cons_of_status (h : runUntilError (i :: is) s = some u) (hok : u.status = 0) :
    ∃ t, exec i s = .next t ∧ t.status = 0 ∧ runUntilError is t = some u := by
  obtain ⟨t, ht⟩ := exec_next i s
  by_cases hstatus : t.status = 0
  · exact ⟨t, ht, hstatus, (runUntilError_of_ok ht hstatus).symm.trans h⟩
  · rw [runUntilError_of_error ht hstatus, Option.some.injEq] at h
    exact absurd (h ▸ hok) hstatus

end

/-! ## COMPRESS (R212) -/

/-- Settles O47: the counts of no byte are an empty table, and HT_BUILD raises before it writes. -/
theorem compressOfNothingIsEmptyAlphabet : Obligations.CompressOfNothingIsEmptyAlphabet := by
  unfold Obligations.CompressOfNothingIsEmptyAlphabet
  intro s hinp
  have hzero : ∀ b, tget (countBytes s.inp) b = 0 := fun b => by rw [hinp, countBytes, tget_tabulate]; rfl
  have hbuild := exec_htBuild_empty (s := ok { s with freq := countBytes s.inp }) hzero
  have hrun := (runUntilError_of_ok (is := [.htBuild, .htInferMap, .encEncode, .ctSerialize]) (exec_ftCount s) rfl).trans
    (runUntilError_of_error hbuild (Err.status_ne_zero _))
  exact ⟨_, exec_compress_of_failed_run hrun (Err.status_ne_zero _), rfl, hzero⟩

/-- What the first three stages of COMPRESS leave of `s`: the counts of IN, their tree and its map (R212). -/
structure Prepared (s : State) (tree : TreeState) (t : State) : Prop where
  build : buildTree (countBytes s.inp) = some tree
  symbols : ∀ b ∈ s.inp, b ∈ tree.symbols
  map : HoldsMap tree t
  inv : BlockInv t
  frame : t = ok { s with freq := countBytes s.inp, tree := tree, treeInfo := t.treeInfo, cw := t.cw,
                          cwValid := t.cwValid, path := t.path }

/-- On an IN with a byte the first three stages of COMPRESS end `Ok`: the counts are not all 0. -/
theorem exists_prepared {s : State} (h : BlockInv s) (hne : s.inp ≠ []) : ∃ tree t, Prepared s tree t ∧
    runUntilError compressCommands s = runUntilError [.encEncode, .ctSerialize] t := by
  have hmem := tget_countBytes_ne_zero h.inp_length_lt
  obtain ⟨b, hb⟩ := List.exists_mem_of_ne_nil _ hne
  obtain ⟨root, -, htree⟩ := buildTree_root ⟨b, (hmem b).mpr hb⟩
  have hcount := exec_ftCount s
  have hbuild := exec_htBuild_ok (s := ok { s with freq := countBytes s.inp }) htree
  have hinv := exec_inv hbuild (exec_inv hcount h)
  obtain ⟨t, hinfer, hframe, hmap, -⟩ := exec_htInferMap_ok hinv root.toTree_ne_empty
  refine ⟨root.toTree, t, ⟨htree, fun b hb => (mem_symbols_of_buildTree htree).mpr ((hmem b).mpr hb), hmap,
    exec_inv hinfer hinv, ?_⟩, ?_⟩
  · rw [hframe]; rfl
  · rw [runUntilError_of_ok hcount rfl, runUntilError_of_ok hbuild rfl, runUntilError_of_ok hinfer (by rw [hframe]; rfl)]

section
variable {s t : State} {tree : TreeState}

theorem Prepared.inp (h : Prepared s tree t) : t.inp = s.inp := by rw [h.frame]; rfl
theorem Prepared.cfg (h : Prepared s tree t) : t.cfg = s.cfg := by rw [h.frame]; rfl
theorem Prepared.freq (h : Prepared s tree t) : t.freq = countBytes s.inp := by rw [h.frame]; rfl

/-- The bits ENC_ENCODE makes of IN with the map are its payload (R98, R212). -/
theorem Prepared.encodes (h : Prepared s tree t) : (t.inp.flatMap fun b => (tget t.cw b).bits) = payload s.inp := by
  rw [h.inp, payload, h.build]
  exact List.flatMap_congr fun b hb => h.map.bits_eq_codeword (h.symbols b hb)

theorem Prepared.decodesTo (h : Prepared s tree t) : DecodesTo tree (payload s.inp) s.inp := by
  obtain ⟨root, rfl, -⟩ := buildTree_forest h.build
  rw [payload, h.build]
  exact decodesTo_codewords root.toTree_ne_empty h.symbols

end

/-- The statements' entries of IN are FREQ's after FT_COUNT (R140). -/
theorem countEntries_eq_freqEntries {bytes : List Byte} (h : bytes.length < 2 ^ 32) :
    countEntries bytes = freqEntries (countBytes bytes) := by
  refine List.filterMap_congr fun b _ => ?_
  rw [← toNat_tget_countBytes h b]
  exact if_congr (BitVec.toNat_eq (y := 0)).symm rfl rfl

/-- Each byte's bits, summed over the bytes or over the counts (R212). -/
theorem length_flatMap_eq_sum_counts {bytes : List Byte} (h : bytes.length < 2 ^ 32) (code : Byte → List Bool) :
    (bytes.flatMap code).length = ((countEntries bytes).map fun e => e.2 * (code e.1).length).sum := by
  have hcounts : ((countEntries bytes).map fun e => e.2 * (code e.1).length) =
      (tableEntries (countBytes bytes)).map fun b => bytes.count b * (code b).length := by
    rw [countEntries_eq_freqEntries h, freqEntries_eq_map, List.map_map]
    exact List.map_congr_left fun b _ => congrArg (· * _) (toNat_tget_countBytes h b)
  rw [hcounts, ((tableEntries_countBytes_perm h).map _).sum_eq, List.length_flatMap, Finset.sum_list_map_count]
  rfl

/-- A table with a tree has entries (R152). -/
theorem freqEntries_ne_nil {freq : Table Word} {tree : TreeState} (h : buildTree freq = some tree) : freqEntries freq ≠ [] := by
  intro hnil
  have hlen : (tableEntries freq).length = 0 := by rw [← freqEntries_length, hnil, List.length_nil]
  have hnone := buildTree_eq_none.mpr (seedQueue_eq_nil.mp (List.length_eq_zero_iff.mp ((seedQueue_length freq).trans hlen)))
  rw [hnone] at h
  simp at h

/-- A PB created whole is serialized without a draw (R192). -/
theorem exec_ctSerialize_fresh {s : State} {bits : List Bool} (hpb : s.pb = BitBuf.fresh bits) (hne : freqEntries s.freq ≠ [])
    (hfit : containerLength (freqEntries s.freq).length bits.length ≤ s.cfg.capOut) : exec .ctSerialize s =
      .next (ok { s with out := headBytes (freqEntries s.freq) bits.length ++ (BitBuf.fresh bits).pack s.draws }) := by
  rw [exec_ctSerialize_ok hne (by rwa [hpb, BitBuf.fresh_len]), hpb, BitBuf.fresh_packDraws, BitBuf.fresh_len, Nat.add_zero]

/-- `s` after COMPRESS, `t` being what its first three stages left (R212, R213). -/
def compressed (s t : State) : State :=
  ok { t with pb := BitBuf.fresh (payload s.inp),
              out := headBytes (countEntries s.inp) (payload s.inp).length ++ (BitBuf.fresh (payload s.inp)).pack t.draws }

/-- Where the codewords fit PB and the container fits OUT, the last two stages write both. -/
theorem Prepared.run {s t : State} {tree : TreeState} (h : Prepared s tree t) (hlen : s.inp.length < 2 ^ 32)
    (hpb : (payload s.inp).length ≤ s.cfg.capPb)
    (hout : containerLength (countEntries s.inp).length (payload s.inp).length ≤ s.cfg.capOut) :
    runUntilError [.encEncode, .ctSerialize] t = some (compressed s t) := by
  have hencode := exec_encEncode_ok (encodeLoop_all (fun b hb => (h.map.valid_iff b).mpr (h.symbols b (h.inp ▸ hb)))
    (by rwa [h.encodes, h.cfg]))
  have hentries : countEntries s.inp = freqEntries t.freq := by rw [countEntries_eq_freqEntries hlen, h.freq]
  rw [h.encodes] at hencode
  rw [hentries, ← h.cfg] at hout
  have hserialize := exec_ctSerialize_fresh (s := ok { t with pb := BitBuf.fresh (payload s.inp) }) rfl
    (h.freq ▸ freqEntries_ne_nil h.build) hout
  rw [runUntilError_of_ok hencode rfl, runUntilError_of_ok hserialize rfl, runUntilError, compressed, hentries]
  rfl

/-- Settles O48: the last two stages write the payload and its container, and no bit of a PB created whole is stale. -/
theorem compressWritesTheContainer : Obligations.CompressWritesTheContainer := by
  unfold Obligations.CompressWritesTheContainer
  intro s hinv hne hpb hout
  have hlen := hinv.inp_length_lt
  obtain ⟨tree, t, h, hrun⟩ := exists_prepared hinv hne
  have hcodeword : codeword tree = codeword (compressed s t).tree := by rw [compressed, h.frame]; rfl
  have hpayload : payload s.inp = s.inp.flatMap (codeword (compressed s t).tree) := by
    rw [payload, h.build, ← hcodeword]
  refine ⟨compressed s t, (BitBuf.fresh (payload s.inp)).pack t.draws,
    exec_compress_of_run (hrun.trans (h.run hlen hpb hout)) rfl, ?_, rfl, BitBuf.pack_length _ _, BitBuf.holds_pack _ _,
    fun i hi hlt => ?_, fun b => ?_, ?_, fun b hb => ⟨?_, ?_⟩, ?_⟩
  · rw [compressed, h.frame]; rfl
  · rw [BitBuf.pack_length] at hlt
    exact (BitBuf.pack_bit _ _ _ hlt).trans (BitBuf.packedBit_of_hwm_le _ hi hi)
  · exact (congrArg (fun f => (tget f b).toNat) h.freq).trans (toNat_tget_countBytes hlen b)
  · rw [compressed, h.frame]; exact h.build
  · exact (h.map.valid_iff b).mpr (h.symbols b hb)
  · exact hcodeword ▸ h.map.bits_eq_codeword (h.symbols b hb)
  · rw [← length_flatMap_eq_sum_counts hlen, ← hpayload]

/-! ## DECOMPRESS (R214) -/

theorem exec_htBuild_withTree {s : State} {tree : TreeState} (h : buildTree s.freq = some tree) :
    exec .htBuild s = .next (ok (s.withTree tree)) := by
  rw [exec_htBuild_ok h, builtInfo_eq_info h]; rfl

theorem exec_decDecode_ok {s : State} {bs : List Byte} (h : DecodesTo s.tree s.pb.bits bs) (hroom : bs.length ≤ s.cfg.capOut) :
    exec .decDecode s = .next (ok { s with out := bs, cur := BitVec.ofNat 32 s.pb.bits.length }) :=
  finishOut_ok (decode_ok _ h hroom)

/-- Settles O50: the entries determine FREQ, whose tree then decodes PB. -/
theorem decompressWritesTheDecodedBytes : Obligations.DecompressWritesTheDecodedBytes := by
  unfold Obligations.DecompressWritesTheDecodedBytes
  intro s es bits bs f tree hcontainer htable htree hdecodes hpb hout
  obtain ⟨s₁, hparse, hframe, htable₁⟩ := (ctDeserializeReadsTheContainer s es bits hcontainer).1 hpb
  rw [htable₁.unique htable] at hframe
  rw [hframe] at hparse
  have hbuild := exec_htBuild_withTree (s := ok { s with freq := f, pb := ⟨bits, bits.length⟩ }) htree
  have hdecode := exec_decDecode_ok (s := ok (State.withTree { s with freq := f, pb := ⟨bits, bits.length⟩ } tree)) hdecodes hout
  have hrun := (runUntilError_of_ok (is := [.htBuild, .decDecode]) hparse rfl).trans
    ((runUntilError_of_ok (is := [.decDecode]) hbuild rfl).trans (runUntilError_of_ok (is := []) hdecode rfl))
  exact ⟨_, exec_decompress_of_run hrun rfl, rfl, fun b => tget_tabulate _ b, fun b => tget_tabulate _ b⟩

/-! ## The round trip (R215) -/

/-- Settles O51: COMPRESS wrote a container of IN's counts and of bits that decode to IN under the counts' own tree. -/
theorem decompressInvertsCompress : Obligations.DecompressInvertsCompress := by
  unfold Obligations.DecompressInvertsCompress
  intro s t hinv hne hexec hok hroom
  obtain ⟨tree, s₃, h, hrun⟩ := exists_prepared hinv hne
  rw [run_of_exec_compress hexec hok] at hrun
  obtain ⟨s₄, hencode, hok₄, hrun⟩ := runUntilError_cons_of_status hrun.symm hok
  obtain ⟨s₅, hserialize, -, hrun⟩ := runUntilError_cons_of_status hrun hok
  obtain rfl : s₅ = t := Option.some.inj hrun
  obtain ⟨hentries, hout⟩ := exec_ctSerialize_of_status hserialize hok
  have hinv₄ := exec_inv hencode h.inv
  have hpb := exec_encEncode_of_status hencode hok₄
  rw [h.encodes] at hpb
  have hcfg := (exec_keeps_cfg_host hexec).1
  have hfreq : s₄.freq = countBytes s.inp := by rw [hpb]; exact h.freq
  have hbits : s₄.pb.bits = payload s.inp := by rw [hpb]; rfl
  have hcontainer : IsContainer s₅.out (freqEntries s₄.freq) s₄.pb.bits :=
    ⟨freqEntries_tableEntries hentries, hinv₄.pb_length_lt, s₄.pb.pack s₄.draws, hout, BitBuf.holds_pack _ _⟩
  have hfit : s₄.pb.bits.length ≤ s₅.cfg.capPb := (exec_keeps_cfg_host hserialize).1 ▸ hinv₄.pb.1.trans hinv₄.pb.2
  obtain ⟨v, hv, hframe, -⟩ := decompressWritesTheDecodedBytes { s₅ with inp := s₅.out } _ _ s.inp s₄.freq tree hcontainer
    (holdsTable_freqEntries _) (hfreq ▸ h.build) (hbits ▸ h.decodesTo) hfit (hcfg ▸ hroom)
  exact ⟨v, hv, by rw [hframe]; rfl, by rw [hframe]; rfl⟩

end Sys2Proof.Machine
end

section
/-! SUPPORT. Two runs of COMPRESS on the same IN under the same parameters (45_system_toplevel.md R213). -/

namespace Sys2Proof.Machine

open Sys2Proof.Claims

/-- Two runs of stages that end the same: both in the same error or both with the same OUT, and with no draw made since the
counters stood at `d` and `d'`. -/
inductive SameRun (d d' : Nat) : State × Option Err → State × Option Err → Prop
  | ok {t t' : State} : t.draws = d → t'.draws = d' → t.out = t'.out → SameRun d d' (t, none) (t', none)
  | error {t t' : State} (e : Err) : t.draws = d → t'.draws = d' → SameRun d d' (t, some e) (t', some e)

/-- One stage more in front, which makes the same value `x` in both runs, or raises its error. -/
theorem SameRun.cons {d d' : Nat} {α : Type} {body : Body} {stages : List Body} {s s' : State} (hd : s.draws = d)
    (hd' : s'.draws = d') (x : Except Err α) {write write' : α → State} (h : body s = x.map write)
    (h' : body s' = x.map write')
    (hrest : ∀ a, x = .ok a → SameRun d d' (runStages stages (write a)) (runStages stages (write' a))) :
    SameRun d d' (runStages (body :: stages) s) (runStages (body :: stages) s') := by
  rw [runStages, runStages, h, h']
  cases hx : x with
  | error e => exact .error e hd hd'
  | ok a => exact hrest a hx

/-- What the ending of a composite makes of two runs that end the same. -/
theorem SameRun.endState {d d' : Nat} {r r' : State × Option Err} (h : SameRun d d' r r') :
    (endState true r).out = (endState true r').out ∧ (endState true r).status = (endState true r').status ∧
      (endState true r).errExp = (endState true r').errExp ∧ (endState true r).errAct = (endState true r').errAct ∧
      (endState true r).draws = d ∧ (endState true r').draws = d' := by
  cases h with
  | ok hd hd' hout => exact ⟨hout, rfl, rfl, rfl, hd, hd'⟩
  | error e hd hd' => exact ⟨rfl, rfl, rfl, rfl, hd, hd'⟩

section
variable {s s' : State} (hcfg : s.cfg = s'.cfg) (hinp : s.inp = s'.inp) (hfreq : s.freq = s'.freq)

include hcfg hfreq

/-- CT_SERIALIZE reads FREQ, PB and CAP_OUT, and a PB created whole packs without a draw (R192). -/
theorem serialize_sameRun {bits : List Bool} (hpb : s.pb = BitBuf.fresh bits) (hpb' : s'.pb = BitBuf.fresh bits) :
    SameRun s.draws s'.draws (runStages [serializeBody] s) (runStages [serializeBody] s') := by
  refine .cons rfl rfl _ (serializeBody_eq_map s) (by rw [serializeBody_eq_map, hcfg, hfreq, hpb, hpb']) fun _ _ => ?_
  rw [State.withContainer_fresh hpb, State.withContainer_fresh hpb']
  exact .ok rfl rfl (by rw [hfreq, BitBuf.fresh_pack bits])

include hinp

/-- ENC_ENCODE reads the map, IN and CAP_PB (R180). -/
theorem encode_sameRun (hcw : s.cw = s'.cw) (hvalid : s.cwValid = s'.cwValid) :
    SameRun s.draws s'.draws (runStages [encodeBody, serializeBody] s) (runStages [encodeBody, serializeBody] s') := by
  refine .cons rfl rfl (encodeLoop s.cw s.cwValid s.cfg.capPb s.inp 0 []) rfl
    (by rw [hcw, hvalid, hcfg, hinp]; rfl) fun bits _ => ?_
  exact serialize_sameRun (s := { s with pb := BitBuf.fresh bits }) (s' := { s' with pb := BitBuf.fresh bits })
    hcfg hfreq rfl rfl

/-- HT_INFER_MAP reads TREE and CAP_PATH (R160). -/
theorem inferMap_sameRun (w : Word) (htree : s.tree = s'.tree) :
    SameRun s.draws s'.draws (runStages [inferMapBody w, encodeBody, serializeBody] s)
      (runStages [inferMapBody w, encodeBody, serializeBody] s') := by
  refine .cons rfl rfl (inferMapBody w s) (write := fun t => t) (by cases inferMapBody w s <;> rfl)
    (inferMapBody_withMapOf w hcfg.symm htree.symm) fun t ht => ?_
  have hframe := inferMap_frame ht
  have hdraws : t.draws = s.draws := by rw [hframe]
  rw [← hdraws]
  exact encode_sameRun (s' := s'.withMapOf t) rfl (by rw [hframe]; exact hinp) (by rw [hframe]; exact hfreq) rfl rfl

end

/-- FT_COUNT reads IN, and HT_BUILD reads FREQ (R140, R157). -/
theorem compress_sameRun {s s' : State} (hcfg : s.cfg = s'.cfg) (hinp : s.inp = s'.inp) :
    SameRun s.draws s'.draws (runStages compressStages s) (runStages compressStages s') := by
  refine .cons rfl rfl (.ok (countBytes s.inp)) (write := fun f => { s with freq := f })
    (write' := fun f => { s' with freq := f }) rfl (by rw [ftCountBody, ← hinp]; rfl) fun freq _ => ?_
  refine .cons rfl rfl _ (htBuildBody_eq_map _) (htBuildBody_eq_map _) fun tree _ => ?_
  exact inferMap_sameRun (s := State.withTree { s with freq := freq } tree)
    (s' := State.withTree { s' with freq := freq } tree) hcfg hinp rfl _ rfl

/-- Settles O49: each stage makes the same of both states, and the one that could draw packs a PB created whole. -/
theorem compressDependsOnlyOnIn : Obligations.CompressDependsOnlyOnIn := by
  unfold Obligations.CompressDependsOnlyOnIn
  intro s s' hcfg hinp
  exact ⟨_, _, exec_eq_endState .compress s, exec_eq_endState .compress s', (compress_sameRun hcfg hinp).endState⟩

end Sys2Proof.Machine
end

section
/-! SUPPORT. Which errors the commands raise (60_exceptions.md R229): the STATUS value of an error, the values that each body can
end in, and those that a command's stages can; and all that a primitive command can answer (R226, R227). -/

namespace Sys2Proof.Machine

open Sys2Proof.Claims

/-! ## The STATUS value of an error (R28, R220) -/

/-- STATUS of an error as a number: the kind in the low digit, the sub-code above it (R28). -/
def Err.code (e : Err) : Nat := e.kind + 16 * e.sub

theorem Err.status_eq_code (e : Err) : e.status = BitVec.ofNat 32 e.code := rfl

@[simp] theorem Err.code_emptyAlphabet : Err.emptyAlphabet.code = 0x01 := rfl
@[simp] theorem Err.code_indexRead (len index : Nat) : (Err.indexRead len index).code = 0x12 := rfl
@[simp] theorem Err.code_indexUnderflow : Err.indexUnderflow.code = 0x22 := rfl
@[simp] theorem Err.code_format (sub : FormatSub) (exp act : Nat) : (Err.format sub exp act).code = 3 + 16 * sub.code := rfl
@[simp] theorem Err.code_decodeOverrun (len start : Nat) : (Err.decodeOverrun len start).code = 0x04 := rfl
@[simp] theorem Err.code_missingCodeword (sym : Byte) (addr : Nat) : (Err.missingCodeword sym addr).code = 0x05 := rfl
@[simp] theorem Err.code_capacityBitBuffer (cap need : Nat) : (Err.capacityBitBuffer cap need).code = 0x16 := rfl
@[simp] theorem Err.code_capacityOut (cap need : Nat) : (Err.capacityOut cap need).code = 0x26 := rfl
@[simp] theorem Err.code_noTree (w : Word) : (Err.illegal .noTree w).code = 0x57 := rfl

/-- If the answer is an error, its STATUS value is listed. -/
def ErrorsIn {α : Type} (codes : List Nat) (x : Except Err α) : Prop := ∀ e, x = .error e → e.code ∈ codes

section
variable {α β : Type} {codes : List Nat}

theorem errorsIn_ok (a : α) : ErrorsIn codes (.ok a : Except Err α) := nofun

theorem errorsIn_error {e : Err} (h : e.code ∈ codes) : ErrorsIn codes (.error e : Except Err α) :=
  fun _ he => Except.error.inj he ▸ h

theorem ErrorsIn.map {x : Except Err α} (h : ErrorsIn codes x) (f : α → β) : ErrorsIn codes (x.map f) := by
  cases x with
  | ok a => exact errorsIn_ok (f a)
  | error e => exact errorsIn_error (h e rfl)

theorem ErrorsIn.ite {p : Prop} [Decidable p] {x y : Except Err α} (hx : p → ErrorsIn codes x) (hy : ¬p → ErrorsIn codes y) :
    ErrorsIn codes (if p then x else y) := by
  split
  · exact hx ‹_›
  · exact hy ‹_›

theorem ErrorsIn.mono {codes' : List Nat} {x : Except Err α} (h : ErrorsIn codes x) (hsub : codes ⊆ codes') :
    ErrorsIn codes' x := fun e he => hsub (h e he)

end

/-! ## The bodies one by one -/

theorem bbAppendBit_errorsIn (dst : Dst) (bit : Bool) (s : State) : ErrorsIn [0x16] (bbAppendBitBody dst bit s) :=
  .map (.ite (fun _ => errorsIn_error (by simp)) fun _ => errorsIn_ok _) _

/-- Once the whole source is known to fit, no single push finds the buffer full (R114). -/
theorem bbAppendFrom_errorsIn {dst : Dst} {src : Sel} (hne : dst.sel ≠ src) (s : State) :
    ErrorsIn [0x16] (bbAppendFromBody dst src s) := by
  refine .ite (fun heq => absurd heq hne) fun _ => .ite (fun _ => errorsIn_error (by simp)) fun hfit => ?_
  obtain ⟨b, hb⟩ := BitBuf.pushAll_fits (bits := (s.buf src).bits) (Nat.le_of_not_lt hfit)
  rw [hb]
  exact errorsIn_ok _

theorem bbReadBit_errorsIn (sel : Sel) (s : State) : ErrorsIn [0x12] (bbReadBitBody sel s) := by
  rw [bbReadBitBody]
  split
  · exact errorsIn_error (by simp)
  · exact errorsIn_ok _

theorem bbRemoveLast_errorsIn (dst : Dst) (s : State) : ErrorsIn [0x22] (bbRemoveLastBody dst s) :=
  .map (.ite (fun _ => errorsIn_error (by simp)) fun _ => errorsIn_ok _) _

theorem bbToBytes_errorsIn (sel : Sel) (s : State) : ErrorsIn [0x26] (bbToBytesBody sel s) :=
  .ite (fun _ => errorsIn_error (by simp)) fun _ => errorsIn_ok _

theorem htBuild_errorsIn (s : State) : ErrorsIn [0x01] (htBuildBody s) := by
  rw [htBuildBody]
  split
  · exact errorsIn_error (by simp)
  · exact errorsIn_ok _

/-- On a tree the walk cannot overflow PATH, since distinct symbols bound its depth (R162). -/
theorem inferMap_errorsIn (w : Word) {s : State} (h : BlockInv s) : ErrorsIn [0x57] (inferMapBody w s) := by
  by_cases htree : s.tree = .empty
  · rw [inferMapBody, htree]
    exact errorsIn_error (by simp)
  · obtain ⟨t, ht, -⟩ := inferMap_ok w h htree
    rw [ht]
    exact errorsIn_ok t

theorem decodeOne_errorsIn (w : Word) (tree : TreeState) (bits : List Bool) (c : Nat) :
    ErrorsIn [0x57, 0x04] (decodeOne w tree bits c) := by
  by_cases htree : tree = .empty
  · rw [htree]
    exact errorsIn_error (by simp)
  · intro e he
    rw [decodeOne_error he htree]
    simp

theorem decodeOneBody_errorsIn (w : Word) (s : State) : ErrorsIn [0x57, 0x04] (decodeOneBody w s) := by
  have hone := decodeOne_errorsIn w s.tree s.pb.bits s.cur.toNat
  rw [decodeOneBody]
  split
  · rename_i e he
    exact errorsIn_error (hone e he)
  · exact errorsIn_ok _

/-- Where every byte of IN has an entry, only the capacity of PB is left to fail (R180). -/
theorem encode_errorsIn_of_valid {s : State} (h : ∀ b ∈ s.inp, tget s.cwValid b = true) : ErrorsIn [0x16] (encodeBody s) := by
  refine .map (fun e he => ?_) _
  rcases encodeLoop_error he with ⟨b, addr, -, hmem, hmissing⟩ | ⟨need, rfl⟩
  · exact absurd ((h b hmem).symm.trans hmissing) (by decide)
  · simp

theorem encode_errorsIn (s : State) : ErrorsIn [0x05, 0x16] (encodeBody s) := by
  refine .map (fun e he => ?_) _
  rcases encodeLoop_error he with ⟨b, addr, rfl, -, -⟩ | ⟨need, rfl⟩
  · simp
  · simp

theorem decode_errorsIn_of_tree (w : Word) {s : State} (h : s.tree ≠ .empty) : ErrorsIn [0x04, 0x26] (decodeBody w s) := by
  rw [decodeBody_of_tree w h]
  refine .map (fun e he => ?_) _
  rcases decodeLoop_error h he with ⟨start, rfl⟩ | ⟨need, rfl⟩
  · simp
  · simp

theorem decode_errorsIn (w : Word) (s : State) : ErrorsIn [0x57, 0x04, 0x26] (decodeBody w s) := by
  by_cases htree : s.tree = .empty
  · rw [decode_noTree w htree]
    exact errorsIn_error (by simp)
  · exact (decode_errorsIn_of_tree w htree).mono (List.subset_cons_self _ _)

theorem serialize_errorsIn (s : State) : ErrorsIn [0x01, 0x26] (serializeBody s) := by
  rw [serializeBody_eq_map]
  exact .map (.ite (fun _ => errorsIn_error (by simp)) fun _ =>
    .ite (fun _ => errorsIn_error (by simp)) fun _ => errorsIn_ok _) _

theorem deserialize_errorsIn (s : State) : ErrorsIn (bodyErrors .ctDeserialize) (deserializeBody s) := by
  refine .map (fun e he => ?_) _
  rcases parseContainer_error he with ⟨sub, exp, act, rfl⟩ | ⟨need, rfl⟩
  · cases sub <;> simp [bodyErrors, FormatSub.code]
  · simp [bodyErrors]

/-! ## The stages of a command (R211) -/

/-- If the stages run from `s` end in an error, its STATUS value is listed. -/
def StagesErrorsIn (codes : List Nat) (stages : List Body) (s : State) : Prop :=
  ∀ e, (runStages stages s).2 = some e → e.code ∈ codes

section
variable {codes : List Nat} {body : Body} {stages : List Body} {s : State}

theorem stagesErrorsIn_nil (s : State) : StagesErrorsIn codes [] s := nofun

theorem StagesErrorsIn.cons (hbody : ErrorsIn codes (body s)) (hrest : ∀ t, body s = .ok t → StagesErrorsIn codes stages t) :
    StagesErrorsIn codes (body :: stages) s := by
  intro e he
  rw [runStages] at he
  cases h : body s with
  | ok t => exact hrest t h e (by rwa [h] at he)
  | error e' =>
    rw [h, Option.some.injEq] at he
    exact he ▸ hbody e' h

theorem StagesErrorsIn.cons_ok {t : State} (hbody : body s = .ok t) (hrest : StagesErrorsIn codes stages t) :
    StagesErrorsIn codes (body :: stages) s := by
  rwa [StagesErrorsIn, runStages, hbody]

theorem stagesErrorsIn_singleton (hbody : ErrorsIn codes (body s)) : StagesErrorsIn codes [body] s :=
  .cons hbody fun t _ => stagesErrorsIn_nil t

/-- Everything STATUS can hold after a command, from the errors of its stages. -/
theorem StagesErrorsIn.exec {i : Instr} (h : StagesErrorsIn codes (commandStages i) s) :
    ∃ t, exec i s = .next t ∧ (t.status = 0 ∨ ∃ v ∈ codes, t.status = BitVec.ofNat 32 v) := by
  refine ⟨_, exec_eq_endState i s, ?_⟩
  rcases hrun : runStages (commandStages i) s with ⟨u, _ | e⟩
  · exact .inl rfl
  · exact .inr ⟨e.code, h e (congrArg Prod.snd hrun), e.status_eq_code⟩

end

/-! ## The composites (R229) -/

theorem htBuildBody_of_buildTree {s : State} {tree : TreeState} (h : buildTree s.freq = some tree) :
    htBuildBody s = .ok (s.withTree tree) := by
  rw [htBuildBody_eq_map, h]
  rfl

theorem htBuildBody_ok {s t : State} (h : htBuildBody s = .ok t) :
    ∃ tree, buildTree s.freq = some tree ∧ t = s.withTree tree := by
  cases htree : buildTree s.freq with
  | none => simp [htBuildBody, htree] at h
  | some tree => exact ⟨tree, rfl, Except.ok.inj (h.symm.trans (htBuildBody_of_buildTree htree))⟩

/-- The counts of IN have a tree with a leaf for each byte of IN, so no byte is missing from the map made of it (R212). -/
theorem compress_errorsIn {s : State} (h : BlockInv s) : StagesErrorsIn (bodyErrors .compress) compressStages s := by
  have hinv₁ := ftCount_inv s _ h rfl
  refine .cons_ok (t := { s with freq := countBytes s.inp }) rfl ?_
  refine .cons ((htBuild_errorsIn _).mono (by decide)) fun s₂ hbuild => ?_
  have hinv₂ := htBuild_inv _ s₂ hinv₁ hbuild
  obtain ⟨s₃, hinfer, hmap, -⟩ := inferMap_ok (encode .compress) hinv₂ (htBuild_tree hbuild)
  obtain ⟨tree, htree, rfl⟩ := htBuildBody_ok hbuild
  have hinp : s₃.inp = s.inp := by rw [inferMap_frame hinfer]; rfl
  have hvalid : ∀ b ∈ s₃.inp, tget s₃.cwValid b = true := fun b hb =>
    (hmap.valid_iff b).mpr ((mem_symbols_of_buildTree htree).mpr ((tget_countBytes_ne_zero h.inp_length_lt b).mpr (hinp ▸ hb)))
  refine .cons_ok hinfer ?_
  refine .cons ((encode_errorsIn_of_valid hvalid).mono (by decide)) fun s₄ _ => ?_
  exact stagesErrorsIn_singleton ((serialize_errorsIn s₄).mono (by decide))

/-- A table that CT_DESERIALIZE accepts has an entry, so HT_BUILD leaves a tree (R214). -/
theorem decompress_errorsIn (s : State) : StagesErrorsIn (bodyErrors .decompress) decompressStages s := by
  refine .cons ((deserialize_errorsIn s).mono (by decide)) fun s₁ hparse => ?_
  obtain ⟨r, hr, rfl⟩ := exists_of_map_eq_ok hparse
  obtain ⟨root, -, htree⟩ := buildTree_root (parseContainer_ok hr).1
  refine .cons_ok (htBuildBody_of_buildTree htree) ?_
  exact stagesErrorsIn_singleton ((decode_errorsIn_of_tree (encode .decompress) root.toTree_ne_empty).mono (by decide))

/-- The errors of a well-formed command's stages are those R229 lists for it. -/
theorem commandStages_errorsIn {i : Instr} {s : State} (hi : i.WellFormed) (h : BlockInv s) :
    StagesErrorsIn (bodyErrors i) (commandStages i) s := by
  cases i with
  | compress => exact compress_errorsIn h
  | decompress => exact decompress_errorsIn s
  | nop => exact stagesErrorsIn_singleton (errorsIn_ok _)
  | bbInit dst => exact stagesErrorsIn_singleton (errorsIn_ok _)
  | bbAppendBit dst bit => exact stagesErrorsIn_singleton (bbAppendBit_errorsIn dst bit s)
  | bbAppendFrom dst src => exact stagesErrorsIn_singleton (bbAppendFrom_errorsIn (bne_iff_ne.mp hi) s)
  | bbReadBit sel => exact stagesErrorsIn_singleton (bbReadBit_errorsIn sel s)
  | bbRemoveLast dst => exact stagesErrorsIn_singleton (bbRemoveLast_errorsIn dst s)
  | bbClear dst => exact stagesErrorsIn_singleton (errorsIn_ok _)
  | bbLen sel => exact stagesErrorsIn_singleton (errorsIn_ok _)
  | bbBytecount sel => exact stagesErrorsIn_singleton (errorsIn_ok _)
  | bbToBytes sel => exact stagesErrorsIn_singleton (bbToBytes_errorsIn sel s)
  | ftCount => exact stagesErrorsIn_singleton (errorsIn_ok _)
  | htBuild => exact stagesErrorsIn_singleton (htBuild_errorsIn s)
  | htInferMap => exact stagesErrorsIn_singleton (inferMap_errorsIn _ h)
  | htDecodeOne => exact stagesErrorsIn_singleton (decodeOneBody_errorsIn _ s)
  | encEncode => exact stagesErrorsIn_singleton (encode_errorsIn s)
  | decDecode => exact stagesErrorsIn_singleton (decode_errorsIn _ s)
  | ctSerialize => exact stagesErrorsIn_singleton (serialize_errorsIn s)
  | ctDeserialize => exact stagesErrorsIn_singleton (deserialize_errorsIn s)

/-! ## A primitive command runs one body (R226, R227) -/

theorem commandStages_of_primitive {i : Instr} (h : Primitive i) : ∃ body, commandStages i = [body] := by
  cases i with
  | compress => exact absurd rfl h.1
  | decompress => exact absurd rfl h.2
  | _ => exact ⟨_, rfl⟩

/-- Everything a primitive command can answer: it ends `Ok`, or takes its body's error in the state before it, OUT emptied if
the command writes OUT. -/
theorem exec_primitive_cases {i : Instr} (hi : Primitive i) {s t : State} (h : exec i s = .next t) :
    t.status = 0 ∨ ∃ e, t = (if writesOut i then s.emptyOut else s).takeError e := by
  obtain ⟨body, hbody⟩ := commandStages_of_primitive hi
  rw [exec_eq_endState, hbody, runStages, Host.Outcome.next.injEq] at h
  cases hs : body s with
  | ok u =>
    rw [hs] at h
    exact .inl (h ▸ rfl)
  | error e =>
    rw [hs] at h
    exact .inr ⟨e, h.symm⟩

end Sys2Proof.Machine
end

section
/-! SUPPORT. The statements of the errors (60_exceptions.md): which a command can raise, and what a failed primitive commits. -/

namespace Sys2Proof.Machine

open Sys2Proof.Claims

/-- Settles O52: body by body, the checks that a command makes. In a state that meets the invariants PATH cannot overflow, and
the composites' own stages rule out MissingCodeword, NoTree and, after a parse, EmptyAlphabet. -/
theorem commandsRaiseOnlyTheirKinds : Obligations.CommandsRaiseOnlyTheirKinds := by
  unfold Obligations.CommandsRaiseOnlyTheirKinds
  exact fun i s hi h => (commandStages_errorsIn hi h).exec

/-- Settles O53: the one body of a primitive command answers an error and no state. -/
theorem failedPrimitivesCommitNothing : Obligations.FailedPrimitivesCommitNothing := by
  unfold Obligations.FailedPrimitivesCommitNothing
  intro i s t hi h hstatus
  obtain hok | ⟨e, rfl⟩ := exec_primitive_cases hi h
  · exact absurd hok hstatus
  · cases writesOut i <;> rfl

end Sys2Proof.Machine
end

section
/-! SUPPORT. The statements of reset (70_reset_and_hazards.md R250, R252): the HOST's reset, and each command on the reset
state, where every buffer is empty as created, the table is all 0, IN is empty and there is no tree (R45). -/

namespace Sys2Proof.Machine

open Sys2Proof.Claims

/-! ## Reset as a HOST operation (R250) -/

/-- Settles O11: of the state without the oldest operation, the reset leaves the parameters, the draw counter and the queue. -/
theorem resetSignalRestoresEveryReset : Obligations.ResetSignalRestoresEveryReset := by
  unfold Obligations.ResetSignalRestoresEveryReset
  exact fun s rest h => step_of_host h

/-! ## The reset state -/

/-- Every buffer a selector names is empty after reset (R45). -/
@[simp] theorem reset_buf (sel : Sel) : State.reset.buf sel = BitBuf.created := by
  cases sel with
  | cw b => exact tget_replicate BitBuf.created b
  | pb => rfl
  | path => rfl

/-- Creating a buffer that is still as created, and ending `Ok` with the error registers still clear, changes nothing. -/
theorem ok_reset_setBuf_created (dst : Dst) : ok (State.reset.setBuf dst BitBuf.created) = State.reset := by
  cases dst <;> rfl

theorem reset_freq (b : Byte) : tget State.reset.freq b = 0 := tget_replicate 0 b

/-! ## The commands without an error -/

theorem exec_bbInit_reset (dst : Dst) : exec (.bbInit dst) State.reset = .next State.reset :=
  (bbInitCreatesTheBufferEmpty State.reset dst).2.trans (congrArg Host.Outcome.next (ok_reset_setBuf_created dst))

/-- A buffer never written has the hwm of one just created. -/
theorem exec_bbClear_reset (dst : Dst) : exec (.bbClear dst) State.reset = .next State.reset := by
  rw [(bbClearKeepsTheHighWaterMark State.reset dst).2, reset_buf]
  exact congrArg Host.Outcome.next (ok_reset_setBuf_created dst)

theorem exec_bbLen (sel : Sel) (s : State) : exec (.bbLen sel) s = .next (ok (s.setRes (s.buf sel).len)) :=
  finish_ok (body := bbLenBody sel) rfl

theorem exec_bbBytecount (sel : Sel) (s : State) :
    exec (.bbBytecount sel) s = .next (ok (s.setRes (ceil8 (s.buf sel).len))) :=
  finish_ok (body := bbBytecountBody sel) rfl

/-- An empty buffer's length is the 0 that RES holds after reset. -/
theorem exec_bbLen_reset (sel : Sel) : exec (.bbLen sel) State.reset = .next State.reset := by
  rw [exec_bbLen, reset_buf]
  rfl

/-- So is the number of its bytes. -/
theorem exec_bbBytecount_reset (sel : Sel) : exec (.bbBytecount sel) State.reset = .next State.reset := by
  rw [exec_bbBytecount, reset_buf]
  rfl

/-- Every buffer has room for a first bit. -/
theorem exec_bbAppendBit_reset (dst : Dst) (bit : Bool) :
    ∃ t, exec (.bbAppendBit dst bit) State.reset = .next t ∧ t.status = 0 := by
  have hroom : (State.reset.buf dst.sel).len ≠ State.reset.dstCap dst := by
    rw [reset_buf]
    cases dst <;> decide
  exact ⟨_, exec_bbAppendBit_ok (BitBuf.push_ok bit hroom), rfl⟩

/-- No bit of an empty source is pushed. -/
theorem exec_bbAppendFrom_reset {dst : Dst} {src : Sel} (hne : dst.sel ≠ src) :
    exec (.bbAppendFrom dst src) State.reset = .next State.reset := by
  have hfit : (State.reset.buf dst.sel).len + (State.reset.buf src).len ≤ State.reset.dstCap dst := by
    rw [reset_buf, reset_buf]
    exact Nat.zero_le _
  have hpush : (State.reset.buf dst.sel).pushAll (State.reset.dstCap dst) (State.reset.buf src).bits = .ok .created := by
    rw [reset_buf, reset_buf]
    rfl
  rw [exec_bbAppendFrom_ok hne hfit hpush, ok_reset_setBuf_created]

/-- An empty buffer packs to no byte. -/
theorem exec_bbToBytes_reset (sel : Sel) :
    ∃ t, exec (.bbToBytes sel) State.reset = .next t ∧ t.status = 0 ∧ t.out = [] := by
  have hfit : ceil8 (State.reset.buf sel).len ≤ State.reset.cfg.capOut := by
    rw [reset_buf]
    exact Nat.zero_le _
  exact ⟨_, exec_bbToBytes_ok hfit, rfl, by rw [reset_buf]; rfl⟩

/-! ## The commands that raise an error -/

theorem exec_bbReadBit_reset (sel : Sel) : exec (.bbReadBit sel) State.reset = .next (err State.reset 0x12 0 0) := by
  rw [exec_bbReadBit_beyond (by rw [reset_buf]; exact Nat.zero_le _), reset_buf]
  rfl

theorem exec_bbRemoveLast_reset (dst : Dst) : exec (.bbRemoveLast dst) State.reset = .next (err State.reset 0x22 1 0) :=
  exec_bbRemoveLast_error (BitBuf.pop_empty (by rw [reset_buf]; rfl))

/-- FREQ is all 0, so the table has no entry. -/
theorem exec_ctSerialize_reset : exec .ctSerialize State.reset = .next (err State.reset 0x01 1 0) :=
  exec_ctSerialize_empty (List.filterMap_eq_nil_iff.mpr fun b _ => if_pos (reset_freq b))

/-- IN is empty, so the header's first check fails. -/
theorem exec_ctDeserialize_reset : exec .ctDeserialize State.reset = .next (err State.reset 0x13 4 0) :=
  exec_ctDeserialize_header_error (s := State.reset) (parseHeader_truncatedMagic (by decide))

/-- IN is empty, so FREQ stays all 0 and HT_BUILD is the stage that fails. -/
theorem exec_compress_reset :
    ∃ t, exec .compress State.reset = .next t ∧ t.status = 0x01 ∧ t.errExp = 1 ∧ t.errAct = 0 := by
  obtain ⟨t, hexec, herr, -⟩ := compressOfNothingIsEmptyAlphabet State.reset rfl
  rw [herr] at hexec
  exact ⟨_, hexec, rfl, rfl, rfl⟩

/-- Where a command DECOMPRESS is made of fails, DECOMPRESS ends in the state that command left, OUT emptied (R211). -/
theorem exec_decompress_of_failed_run {s u : State} (h : runUntilError decompressCommands s = some u) (herr : u.status ≠ 0) :
    exec .decompress s = .next u.emptyOut := by
  obtain ⟨v, hrun, hexec⟩ := (compositesAreTheirStages s).2
  rwa [← Option.some.inj (h.symm.trans hrun), if_neg herr] at hexec

/-- CT_DESERIALIZE is the stage that fails, and OUT is empty already. -/
theorem exec_decompress_reset : exec .decompress State.reset = .next (err State.reset 0x13 4 0) :=
  exec_decompress_of_failed_run (runUntilError_of_error exec_ctDeserialize_reset (by decide)) (by decide)

/-- Settles O58: on empty buffers, an empty IN, a table of 0 and no tree, each command's own rule says how it ends. -/
theorem firstCommandAfterReset : Obligations.FirstCommandAfterReset := by
  unfold Obligations.FirstCommandAfterReset
  exact ⟨nopErasesTheErrorRecord.1 State.reset,
    fun dst => ⟨exec_bbInit_reset dst, exec_bbClear_reset dst⟩,
    exec_bbAppendBit_reset,
    fun _ _ => exec_bbAppendFrom_reset,
    fun sel => ⟨exec_bbLen_reset sel, exec_bbBytecount_reset sel⟩,
    exec_bbReadBit_reset,
    exec_bbRemoveLast_reset,
    exec_bbToBytes_reset,
    ⟨_, exec_ftCount State.reset, rfl, tget_tabulate _⟩,
    exec_htBuild_empty reset_freq,
    exec_compress_reset,
    exec_ctSerialize_reset,
    exec_htInferMap_noTree rfl,
    exec_htDecodeOne_error (s := State.reset) (decodeOne_empty _ _ _),
    exec_decDecode_error (decode_noTree _ rfl),
    ⟨_, exec_encEncode_ok rfl, rfl, rfl⟩,
    exec_ctDeserialize_reset,
    exec_decompress_reset⟩

end Sys2Proof.Machine
end
